-- ==== Sys2Proof/Word.lean ====
section
/-! DEFINITION. The words of the machine: bytes, 16-bit and 32-bit values, the eight registers of the block (R20), and a request as it stands on one of the three ports (R80). -/

namespace Sys2Proof

/-- One byte: a FIFO entry, a byte on the wire, a CRC value (R14). -/
abbrev Byte := BitVec 8

/-- A 16-bit value: a divisor, a timeout, a transfer length, a sensor word (R14). -/
abbrev Half := BitVec 16

/-- A 32-bit value: what one register access moves (R14, R67). -/
abbrev Word := BitVec 32

/-- A 7-bit target address (R14, R60). -/
abbrev Addr7 := BitVec 7

/-- The eight registers of the block, in the order of their offsets (R20, R65). -/
inductive Reg where
  | C | S | DLEN | A | FIFO | DIV | DEL | CLKT
  deriving DecidableEq, Repr

/-- The typed arguments of a procedure call (R85), one slot of each kind that the table of R85 uses.
A procedure reads the slots its rule lists and no others. -/
structure ProcArgs where
  /-- The natural-number arguments, in the order the rule lists them: a base address, a length, a
  frequency, a number of seconds, an offset. -/
  nat0 : Nat
  nat1 : Nat
  /-- The 16-bit and 8-bit arguments. -/
  half0 : Half
  half1 : Half
  byte0 : Byte
  /-- The 32-bit arguments of SET_MASKED_BITS. -/
  word0 : Word
  word1 : Word
  /-- The buffer of WRITE. -/
  buffer : List Byte
  deriving DecidableEq, Repr

/-- A request on its port (R80): "Each reaches the model on its own port, so a decoder always knows which
format it holds". -/
inductive PortWord where
  /-- Format H, 38 bits (R81). -/
  | h (w : BitVec 38)
  /-- Format V, 25 bits (R84). -/
  | v (w : BitVec 25)
  /-- Format P: a 5-bit procedure id and typed arguments (R85). -/
  | p (pid : BitVec 5) (args : ProcArgs)
  deriving DecidableEq, Repr

end Sys2Proof
end

