-- ==== Sys2Proof/Config.lean ====
section
/-! DEFINITION. What is fixed for one machine (the parameters of R11 to R15, R260) and what the spec leaves open (the draws of R17). A draw is an opaque constant with no body: nothing in Lean can evaluate it. -/

namespace Sys2Proof

/-- `RX_COMMIT_LAG` (R15): whether a received byte may wait in `rxStage` before it is in the FIFO. -/
inductive RxCommitLag where
  | allowed | none
  deriving DecidableEq, Repr

/-- `CDIV_READBACK` (R15, R33). -/
inductive CdivReadback where
  | asWritten | bit0Cleared
  deriving DecidableEq, Repr

/-- The eight OPEN opcode constants of the sensor (R260). -/
structure Opcodes where
  softReset : Half
  startContinuous : Half
  stopContinuous : Half
  setInterval : Half
  getDataReady : Half
  readMeasurement : Half
  setAltitude : Half
  setTempOffset : Half
  deriving DecidableEq, Repr, Inhabited

/-- The implementation parameters (R11, R12, R15, R260). "a model takes it as an argument": the state holds
them in its field `cfg`, which no step writes, so a statement about every state is one about every
value of them. -/
structure Params where
  /-- `FIFO_DEPTH` (R11). -/
  fifoDepth : Nat
  /-- `CORE_CLOCK_HZ` (R12), "a positive natural number". -/
  coreClockHz : Nat
  rxCommitLag : RxCommitLag
  cdivReadback : CdivReadback
  /-- `CLKT_ZERO_DISABLES` (R15, R152). -/
  clktZeroDisables : Bool
  /-- `PINS_ROUTED_AT_RESET` (R15, R327). -/
  pinsRoutedAtReset : Bool
  opcodes : Opcodes
  deriving DecidableEq, Repr

/-- The parameters at the defaults the spec gives (R11, R15); the OPEN ones (R12, R260) are arguments. -/
def Params.default (coreClockHz : Nat) (opcodes : Opcodes) : Params :=
  { fifoDepth := 16, coreClockHz := coreClockHz, rxCommitLag := .allowed, cdivReadback := .asWritten,
    clktZeroDisables := true, pinsRoutedAtReset := false, opcodes := opcodes }

/-- Which agent the next step is offered to (R9, R10): the host, the Engine's phase step (ADDR, TXB or RXB),
or the Engine's commit step RXC (R140). Log entry 3. -/
inductive Turn where
  | host | phase | commit
  deriving DecidableEq, Repr, Inhabited

/-- The free inputs of one atomic step (R17: "`draw T` is a free input of the step. It may be any value of
type T and is under no law"). One record serves every kind of step; a step reads the fields its rule draws. -/
structure Draws where
  /-- Reserved bits of a register read (R37), and the whole value read from an empty FIFO (R111). -/
  bits : Word
  /-- The thresholds of RXR and TXW (R26). -/
  rxr : Bool
  txw : Bool
  /-- The Target stretches the clock past the limit, or forever (R152). -/
  stretch : Bool
  /-- The Target acknowledges (R143, R146). -/
  ack : Bool
  /-- The Target's byte (R149). -/
  byte : Byte
  /-- DONE is set as well on a NACK or an abandoned transfer (R145, R153). -/
  alsoDone : Bool
  /-- A timeout abandons the transfer rather than freezing it (R153). -/
  abandon : Bool
  /-- The platform grants a mapping (R182). -/
  mapGranted : Bool
  /-- The mapped base pointer of a granted mapping (R40). -/
  mapPointer : Nat
  /-- Which byte a full FIFO loses when RXC commits one more. Log entry 7. -/
  lost : Nat
  /-- The agent offered the step after this one (R10). -/
  turn : Turn
  deriving DecidableEq, Repr, Inhabited

namespace Config

/-- The draws of the `n`-th step of a run. No body: no law is known of them (R17). Log entry 2. -/
opaque freeDraws : Nat → Draws

/-- One less than `CORE_CLOCK_HZ`, which the spec leaves OPEN and positive (R12). Log entry 4. -/
opaque coreClockPred : Nat

/-- The OPEN opcode constants (R260). Log entry 4. -/
opaque opcodes : Opcodes

/-- The effective divisor for `CDIV` values 1 and above 32768, "unspecified" (R32). Log entry 5. -/
opaque unspecifiedDivisor : Half → Nat

/-- A host-local difference below 0, a quotient and a remainder by 0: R16 gives them no value. Log entry 6. -/
opaque unstatedDifference : Nat → Nat → Nat
opaque unstatedQuotient : Nat → Nat → Nat
opaque unstatedRemainder : Nat → Nat → Nat

/-- The bitwise NOT of a host-local value wider than 32 bits (R16). Log entry 6. -/
opaque unstatedComplement : Nat → Nat

/-- `v[hi:lo]` with `hi` below `lo`; `{a, b}`, `zext_N` and `sext_N` of a value wider than its stated width, and
`sext_N` to fewer bits: R16 gives them no value. Log entry 6. -/
opaque unstatedSlice : Nat → Nat → Nat → Nat
opaque unstatedConcat : Nat → Nat → Nat → Nat
opaque unstatedZext : Nat → Nat → Nat
opaque unstatedSext : Nat → Nat → Nat → Nat

/-- A host-local name that no step has bound, read in an expression (R90). Log entry 6. -/
opaque unboundLocal : Nat → Nat

/-- The `k`-th argument of a call that gives fewer arguments than its rule lists (R85). Log entry 6. -/
opaque missingArgument : Nat → Nat

/-- The operand of `width` bits that a request takes from a host-local value too wide for it (R90). Log entry 6. -/
opaque unstatedOperand : Nat → Nat → Nat

end Config

end Sys2Proof
end

