-- ==== Sys2Proof/Syntax.lean ====
section
/-! DEFINITION. The instruction set: one constructor for each of the 38 rows of spec/opcode_table.json (R3, R86, R84, R85). -/

namespace Sys2Proof

/-- A request the machine accepts (R3).

A register request carries `lo`, the two low bits OFF[1:0] of its byte offset: the decoder names the
operation from OFF[4:2] and leaves the offset checks to R100 (R82, conflict C8), so a misaligned request
is a form of the operation that R100 answers with a fault. -/
inductive Instr where
  -- Format H: register access (R86)
  | rdC (lo : BitVec 2)
  | wrC (lo : BitVec 2) (data : Word)
  | rdS (lo : BitVec 2)
  | wrS (lo : BitVec 2) (data : Word)
  | rdDlen (lo : BitVec 2)
  | wrDlen (lo : BitVec 2) (data : Word)
  | rdA (lo : BitVec 2)
  | wrA (lo : BitVec 2) (data : Word)
  | rdFifo (lo : BitVec 2)
  | wrFifo (lo : BitVec 2) (data : Word)
  | rdDiv (lo : BitVec 2)
  | wrDiv (lo : BitVec 2) (data : Word)
  | rdDel (lo : BitVec 2)
  | wrDel (lo : BitVec 2) (data : Word)
  | rdClkt (lo : BitVec 2)
  | wrClkt (lo : BitVec 2) (data : Word)
  -- Format V: the CRC unit (R84)
  | crc8 (b0 b1 : Byte)
  | crcchk (b0 b1 ck : Byte)
  -- Format P: driver procedures (R85)
  | init (physicalBase length : Nat)
  | deinit
  /-- Also written `set_scl_frequency` (R92). -/
  | setClockFrequency (hz : Nat)
  | getSclFrequency
  | getCdiv
  /-- Also written `set_clkt_tout` (R92). -/
  | setClockTimeout (count : Half)
  /-- Also written `get_clkt_tout` (R92). -/
  | getClockTimeout
  | setSlaveAddress (addr : Byte)
  | getSlaveAddress
  | write (buffer : List Byte) (length : Nat)
  | read (length : Nat)
  | setMaskedBits (offset : Nat) (value mask : Word)
  | map (physicalBase length : Nat)
  | unmap
  -- Format P: sensor command frames (host layer, R7)
  | cmdNoArg (opcode : Half)
  | cmdReadWord (opcode : Half)
  | cmdWriteWord (opcode value : Half)
  | readMeasurement
  | dataReady
  | setMeasurementInterval (seconds : Nat)
  deriving DecidableEq, Repr

end Sys2Proof
end

