-- ==== Sys2Proof/WellFormed.lean ====
section
/-! DEFINITION. Which instructions are encodings with an operation (R88): a register request is aligned (R66) and a register write sets no reserved bit (R37, R100). -/

namespace Sys2Proof

/-- The byte offset of a register within the block (R65). -/
def Reg.offset : Reg → Nat
  | .C => 0x00
  | .S => 0x04
  | .DLEN => 0x08
  | .A => 0x0C
  | .FIFO => 0x10
  | .DIV => 0x14
  | .DEL => 0x18
  | .CLKT => 0x1C

/-- `RESERVED_MASK` (R100). -/
def Reg.reservedMask : Reg → Word
  | .C => 0xFFFF784E#32
  | .S => 0xFFFFFC00#32
  | .DLEN => 0xFFFF0000#32
  | .A => 0xFFFFFF80#32
  | .FIFO => 0xFFFFFF00#32
  | .DIV => 0xFFFF0000#32
  | .DEL => 0x00000000#32
  | .CLKT => 0xFFFF0000#32

/-- A register read with an operation: its offset is a word offset (R66, R88). -/
def wellFormedRead (lo : BitVec 2) : Bool := lo == 0#2

/-- A register write with an operation: a word offset, and no reserved bit set (R37, R88). -/
def wellFormedWrite (r : Reg) (lo : BitVec 2) (data : Word) : Bool :=
  lo == 0#2 && (data &&& r.reservedMask) == 0#32

/-- The encodings with an operation (R88). An instruction outside it still decodes and still has a meaning:
the fault or the refusal that R88 names. -/
def Instr.WellFormed : Instr → Bool
  | .rdC lo => wellFormedRead lo
  | .wrC lo data => wellFormedWrite .C lo data
  | .rdS lo => wellFormedRead lo
  | .wrS lo data => wellFormedWrite .S lo data
  | .rdDlen lo => wellFormedRead lo
  | .wrDlen lo data => wellFormedWrite .DLEN lo data
  | .rdA lo => wellFormedRead lo
  | .wrA lo data => wellFormedWrite .A lo data
  | .rdFifo lo => wellFormedRead lo
  | .wrFifo lo data => wellFormedWrite .FIFO lo data
  | .rdDiv lo => wellFormedRead lo
  | .wrDiv lo data => wellFormedWrite .DIV lo data
  | .rdDel lo => wellFormedRead lo
  | .wrDel lo data => wellFormedWrite .DEL lo data
  | .rdClkt lo => wellFormedRead lo
  | .wrClkt lo data => wellFormedWrite .CLKT lo data
  | .setMaskedBits offset _ _ => offset ≤ 0x1C && offset % 4 == 0
  | .crc8 _ _ | .crcchk _ _ _ => true
  | .init _ _ | .deinit | .map _ _ | .unmap => true
  | .setClockFrequency _ | .getSclFrequency | .getCdiv => true
  | .setClockTimeout _ | .getClockTimeout | .setSlaveAddress _ | .getSlaveAddress => true
  | .write _ _ | .read _ => true
  | .cmdNoArg _ | .cmdReadWord _ | .cmdWriteWord _ _ => true
  | .readMeasurement | .dataReady | .setMeasurementInterval _ => true

end Sys2Proof
end

