-- ==== Sys2Proof/Decode.lean ====
section
/-! DEFINITION. The request decoder (R82, R84, R85, R88), total on every port word, and the encoder written from the same tables. -/

namespace Sys2Proof

/-- Why a port word has no operation (R88, R288). -/
inductive DecodeError where
  /-- An H read that carries data, or a V compute with a check byte. -/
  | reservedEncoding
  /-- A P request with an unassigned procedure id. -/
  | unknownProcedure
  deriving DecidableEq, Repr

/-- The register OFF[4:2] names (R82). -/
def Reg.ofIndex (i : BitVec 3) : Reg :=
  match i.toNat with
  | 0 => .C
  | 1 => .S
  | 2 => .DLEN
  | 3 => .A
  | 4 => .FIFO
  | 5 => .DIV
  | 6 => .DEL
  | _ => .CLKT

/-- OFF[4:2] of a register: its offset in words (R65). -/
def Reg.index (r : Reg) : BitVec 3 := BitVec.ofNat 3 (r.offset / 4)

/-- The read operation of a register (R86, column W=0). -/
def readInstr (r : Reg) (lo : BitVec 2) : Instr :=
  match r with
  | .C => .rdC lo
  | .S => .rdS lo
  | .DLEN => .rdDlen lo
  | .A => .rdA lo
  | .FIFO => .rdFifo lo
  | .DIV => .rdDiv lo
  | .DEL => .rdDel lo
  | .CLKT => .rdClkt lo

/-- The write operation of a register (R86, column W=1). -/
def writeInstr (r : Reg) (lo : BitVec 2) (data : Word) : Instr :=
  match r with
  | .C => .wrC lo data
  | .S => .wrS lo data
  | .DLEN => .wrDlen lo data
  | .A => .wrA lo data
  | .FIFO => .wrFifo lo data
  | .DIV => .wrDiv lo data
  | .DEL => .wrDel lo data
  | .CLKT => .wrClkt lo data

/-- Format H decoding (R81, R82): only a read that carries data has no operation. -/
def decodeH (w : BitVec 38) : Except DecodeError Instr :=
  let data : Word := w.extractLsb' 0 32
  let lo : BitVec 2 := w.extractLsb' 32 2
  let reg := Reg.ofIndex (w.extractLsb' 34 3)
  if w.getLsbD 37 then .ok (writeInstr reg lo data)
  else if data = 0#32 then .ok (readInstr reg lo)
  else .error .reservedEncoding

/-- Format V decoding (R84, R88). -/
def decodeV (w : BitVec 25) : Except DecodeError Instr :=
  let b0 : Byte := w.extractLsb' 16 8
  let b1 : Byte := w.extractLsb' 8 8
  let ck : Byte := w.extractLsb' 0 8
  if w.getLsbD 24 then .ok (.crcchk b0 b1 ck)
  else if ck = 0#8 then .ok (.crc8 b0 b1)
  else .error .reservedEncoding

/-- Format P decoding (R85, R88). -/
def decodeP (pid : BitVec 5) (a : ProcArgs) : Except DecodeError Instr :=
  match pid.toNat with
  | 0x00 => .ok (.init a.nat0 a.nat1)
  | 0x01 => .ok .deinit
  | 0x02 => .ok (.setClockFrequency a.nat0)
  | 0x03 => .ok .getSclFrequency
  | 0x04 => .ok .getCdiv
  | 0x05 => .ok (.setClockTimeout a.half0)
  | 0x06 => .ok .getClockTimeout
  | 0x07 => .ok (.setSlaveAddress a.byte0)
  | 0x08 => .ok .getSlaveAddress
  | 0x09 => .ok (.write a.buffer a.nat0)
  | 0x0A => .ok (.read a.nat0)
  | 0x0B => .ok (.setMaskedBits a.nat0 a.word0 a.word1)
  | 0x0C => .ok (.map a.nat0 a.nat1)
  | 0x0D => .ok .unmap
  | 0x10 => .ok (.cmdNoArg a.half0)
  | 0x11 => .ok (.cmdReadWord a.half0)
  | 0x12 => .ok (.cmdWriteWord a.half0 a.half1)
  | 0x13 => .ok .readMeasurement
  | 0x14 => .ok .dataReady
  | 0x15 => .ok (.setMeasurementInterval a.nat0)
  | _ => .error .unknownProcedure

/-- The decoder of all three ports (R80). -/
def decode : PortWord → Except DecodeError Instr
  | .h w => decodeH w
  | .v w => decodeV w
  | .p pid args => decodeP pid args

/-- Call arguments that are all zero and empty. -/
def ProcArgs.zero : ProcArgs :=
  { nat0 := 0, nat1 := 0, half0 := 0#16, half1 := 0#16, byte0 := 0#8, word0 := 0#32, word1 := 0#32, buffer := [] }

/-- Format H: `W OOOOO DATA`, most significant bit first (R81). -/
def encodeH (w : Bool) (r : Reg) (lo : BitVec 2) (data : Word) : PortWord :=
  .h (BitVec.ofBool w ++ r.index ++ lo ++ data)

/-- Format V: `P B0 B1 CK`, most significant bit first (R84). -/
def encodeV (op : Bool) (b0 b1 ck : Byte) : PortWord :=
  .v (BitVec.ofBool op ++ b0 ++ b1 ++ ck)

/-- The port word of an instruction (R81, R84, R85, R86). -/
def encode : Instr → PortWord
  | .rdC lo => encodeH false .C lo 0#32
  | .wrC lo data => encodeH true .C lo data
  | .rdS lo => encodeH false .S lo 0#32
  | .wrS lo data => encodeH true .S lo data
  | .rdDlen lo => encodeH false .DLEN lo 0#32
  | .wrDlen lo data => encodeH true .DLEN lo data
  | .rdA lo => encodeH false .A lo 0#32
  | .wrA lo data => encodeH true .A lo data
  | .rdFifo lo => encodeH false .FIFO lo 0#32
  | .wrFifo lo data => encodeH true .FIFO lo data
  | .rdDiv lo => encodeH false .DIV lo 0#32
  | .wrDiv lo data => encodeH true .DIV lo data
  | .rdDel lo => encodeH false .DEL lo 0#32
  | .wrDel lo data => encodeH true .DEL lo data
  | .rdClkt lo => encodeH false .CLKT lo 0#32
  | .wrClkt lo data => encodeH true .CLKT lo data
  | .crc8 b0 b1 => encodeV false b0 b1 0#8
  | .crcchk b0 b1 ck => encodeV true b0 b1 ck
  | .init base length => .p 0x00#5 { ProcArgs.zero with nat0 := base, nat1 := length }
  | .deinit => .p 0x01#5 ProcArgs.zero
  | .setClockFrequency hz => .p 0x02#5 { ProcArgs.zero with nat0 := hz }
  | .getSclFrequency => .p 0x03#5 ProcArgs.zero
  | .getCdiv => .p 0x04#5 ProcArgs.zero
  | .setClockTimeout count => .p 0x05#5 { ProcArgs.zero with half0 := count }
  | .getClockTimeout => .p 0x06#5 ProcArgs.zero
  | .setSlaveAddress addr => .p 0x07#5 { ProcArgs.zero with byte0 := addr }
  | .getSlaveAddress => .p 0x08#5 ProcArgs.zero
  | .write buffer length => .p 0x09#5 { ProcArgs.zero with buffer := buffer, nat0 := length }
  | .read length => .p 0x0A#5 { ProcArgs.zero with nat0 := length }
  | .setMaskedBits offset value mask =>
      .p 0x0B#5 { ProcArgs.zero with nat0 := offset, word0 := value, word1 := mask }
  | .map base length => .p 0x0C#5 { ProcArgs.zero with nat0 := base, nat1 := length }
  | .unmap => .p 0x0D#5 ProcArgs.zero
  | .cmdNoArg opcode => .p 0x10#5 { ProcArgs.zero with half0 := opcode }
  | .cmdReadWord opcode => .p 0x11#5 { ProcArgs.zero with half0 := opcode }
  | .cmdWriteWord opcode value => .p 0x12#5 { ProcArgs.zero with half0 := opcode, half1 := value }
  | .readMeasurement => .p 0x13#5 ProcArgs.zero
  | .dataReady => .p 0x14#5 ProcArgs.zero
  | .setMeasurementInterval seconds => .p 0x15#5 { ProcArgs.zero with nat0 := seconds }

/-- The port word that a row of spec/opcode_table.json and its bits name: the row's width in whole bytes
tells its format (5 bits for P, 25 for V, 38 for H), and a procedure's arguments are zeros. None for a
number that is wider than the format. -/
def tableWord (nbits w : Nat) : Option PortWord :=
  if nbits ≤ 8 then if w < 2 ^ 5 then some (.p (BitVec.ofNat 5 w) ProcArgs.zero) else none
  else if nbits ≤ 32 then if w < 2 ^ 25 then some (.v (BitVec.ofNat 25 w)) else none
  else if w < 2 ^ 38 then some (.h (BitVec.ofNat 38 w)) else none

/-- The instruction the decoder reads from an opcode-table word. -/
def decodeTableWord (nbits w : Nat) : Option Instr :=
  match tableWord nbits w with
  | none => none
  | some p =>
    match decode p with
    | .ok i => some i
    | .error _ => none

end Sys2Proof
end

