-- ==== Sys2Proof/Machine/Program.lean ====
section
/-! DEFINITION. The host's program (R90) as plain data: expressions over host-local values, host steps, lines with labels; and the results that procedures return (R280). -/

namespace Sys2Proof.Machine

/-- The error kinds a procedure returns (R280). -/
inductive ErrKind where
  | mapFailed | ackError | timeoutError | crcError | invalidArgument | tooSlow | shortRead | notValid
  deriving DecidableEq, Repr

/-- The host's Peripheral Mapping: "{base physical address, length, mapped base pointer}" (R40). -/
structure Mapping where
  base : Nat
  length : Nat
  pointer : Nat
  deriving DecidableEq, Repr

/-- The value of an `Ok` (R280). -/
inductive Ret where
  | unit
  | nat (n : Nat)
  | bool (b : Bool)
  /-- READ's `Ok(count, buf)` (R220). -/
  | bytes (count : Nat) (buf : List Byte)
  /-- MAP's handle (R182). -/
  | handle (m : Mapping)
  /-- READ_MEASUREMENT's three binary32 patterns (R266). -/
  | measurement (co2 temperature humidity : Word)
  deriving DecidableEq, Repr

/-- What a procedure returns: `Ok(v)` or `Err(k)` (R280). -/
inductive Result where
  | ok (v : Ret)
  | err (k : ErrKind)
  deriving DecidableEq, Repr

/-- A host-local value: what a register read or the CRC unit returned, a natural number, or a procedure's result. -/
inductive Value where
  | nat (n : Nat)
  | result (r : Result)
  deriving DecidableEq, Repr

/-- The number a host-local expression reads from a result that is no number and no truth value: `Ok(())`, a
byte list, a handle, a measurement, an `Err` (R90 states none). Log entry 6. -/
opaque unstatedNumber : Value → Nat

/-- The two-place operators of R16 (and the right shift that program P2 of 95_test_vectors.md uses). -/
inductive BinOp where
  | and | or | xor | shl | shr | add | sub | div | mod | eq | ne | lt | le | gt | ge
  deriving DecidableEq, Repr

/-- A host-local expression (R90) over the operators of R16. Names are numbers. -/
inductive Expr where
  | lit (n : Nat)
  | var (name : Nat)
  /-- `~` -/
  | not (e : Expr)
  | bin (op : BinOp) (a b : Expr)
  /-- `v[hi:lo]`; one bit `v[i]` is `v[i:i]`. -/
  | slice (hi lo : Nat) (e : Expr)
  /-- `{a, b}` with `b` of `width` bits. -/
  | concat (width : Nat) (a b : Expr)
  /-- `zext_N` -/
  | zext (n : Nat) (e : Expr)
  /-- `sext_N` of a value of `m` bits. -/
  | sext (m n : Nat) (e : Expr)
  deriving DecidableEq, Repr

/-- One host step (R90). `dst` is the host-local name that the result is bound to, if the line names one. -/
inductive HostOp where
  /-- `rd REG -> name` -/
  | rd (reg : Reg) (dst : Option Nat)
  /-- `wr REG, e` -/
  | wr (reg : Reg) (e : Expr)
  /-- `crc8 b0, b1 -> name` -/
  | crc8 (b0 b1 : Expr) (dst : Option Nat)
  /-- `crcchk b0, b1, ck -> name` -/
  | crcchk (b0 b1 ck : Expr) (dst : Option Nat)
  /-- `call PROC(args) -> name`: the procedure id, its arguments in the order its rule lists them, and
  WRITE's buffer. -/
  | call (pid : BitVec 5) (args : List Expr) (buffer : List Expr) (dst : Option Nat)
  /-- A request given as the word on its port (R80). -/
  | port (w : PortWord) (dst : Option Nat)
  | jz (e : Expr) (target : Nat)
  | jnz (e : Expr) (target : Nat)
  | j (target : Nat)
  /-- `name = expr` -/
  | assign (name : Nat) (e : Expr)
  | halt
  deriving DecidableEq, Repr

/-- A line of the program: a host step, and the label that marks its position, if any (R90). -/
structure Line where
  label : Option Nat
  op : HostOp
  deriving DecidableEq, Repr

end Sys2Proof.Machine
end

