-- ==== Sys2Proof/Machine/State.lean ====
section
/-! DEFINITION. The state of the machine as plain data (R20), the faults (R286) and refusals (R288), and reset (R48, R321). -/

namespace Sys2Proof.Machine

/-- The fault kinds (R286), each with the values its row says are recorded.

A fault is first recorded in the state (`State.faults`, R285): the request that raises it answers a next
state. From then on the host has no step, and once the Engine has none either the step function answers
`fault` with it. All are safe: the spec itself stops the host there, where the chip may go on. -/
inductive Fault where
  /-- Code 16. Raised by READ's `take_one` on a data-ready byte when `count = length` (R221). Safe. -/
  | bufferOverflow (count length : Nat)
  /-- Code 17. Raised by every register request while the block is not mapped (R75, R100). Safe. -/
  | notInitialized (offset : Nat)
  /-- Code 18. Raised by a register request beyond offset 0x1C (R66, R100). Safe. -/
  | outOfBounds (offset : Nat)
  /-- Code 19. Raised by a register request at an offset that is no word offset (R66, R100). Safe. -/
  | misaligned (offset : Nat)
  /-- Code 20. Raised by a write to C, DLEN, A, DIV, DEL or CLKT while a transfer is active (R100, R331). Safe. -/
  | configWhileActive (offset : Nat) (data : Word)
  /-- Code 21. Raised by WR_C: a start with I2CEN = 0 (R142). Safe. -/
  | startWhileDisabled (data : Word)
  /-- Code 22. Raised by WR_C: a start with a zero length (R142). Safe. -/
  | zeroLengthStart
  /-- Code 23. Raised by WR_C: a start with the pins not routed (R142). Safe. -/
  | busNotRouted
  /-- Code 24. Raised by RD_FIFO and WR_FIFO against the direction of an active transfer (R111, R112); `w` is
  the request's W bit. Safe. -/
  | fifoDirection (offset : Nat) (w : Bool)
  /-- Code 25. Raised by UNMAP (and DEINIT) while not mapped (R183). Safe. -/
  | doubleUnmap
  /-- Code 26. Raised by WRITE and READ on a length outside their contract (R211, R215). Safe. -/
  | contractViolation (length : Nat)
  deriving DecidableEq, Repr

/-- The refusal kinds (R288).

A refusal is first recorded in the state (`State.refused`): the request that is refused answers a next
state, the host has no step from then on, and once the Engine has none either the step function answers
`refused` with it. All are safe: the spec gives the request no meaning. -/
inductive Refusal where
  /-- Raised by a register write that sets a reserved bit (R37, R100). Safe. -/
  | reservedBits
  /-- Raised by the host step that issues an H read with data or a V compute with a check byte (R88). Safe. -/
  | reservedEncoding
  /-- Raised by the host step that issues a P request with an unassigned id (R88). Safe. -/
  | unknownProcedure
  /-- Raised by the first host step of a program with a jump to an undefined label (R90). Safe. -/
  | undefinedLabel
  /-- An instruction of the table that has no meaning in the model. Nothing raises it: every row has one. Safe. -/
  | notModelled (mnemonic : String)
  deriving DecidableEq, Repr

/-- The phases of the Engine, `st.eng` (R38). -/
inductive Phase where
  | idle | addr | data | stalled
  deriving DecidableEq, Repr

/-- ACK or NACK on the wire (R43). -/
inductive Ack where
  | ack | nack
  deriving DecidableEq, Repr

/-- The events of the bus trace (R43). -/
inductive BusEvent where
  | start
  | addrByte (a7 : Addr7) (rw : Bool) (a : Ack)
  | txByte (b : Byte) (a : Ack)
  | rxByte (b : Byte) (a : Ack)
  | stretchTimeout
  | stop
  deriving DecidableEq, Repr

/-- The direction of a transaction (R44). -/
inductive Dir where
  | write | read
  deriving DecidableEq, Repr

/-- The host's position in WRITE (R211) or READ (R215): the next atomic host step of the call (R22). -/
inductive TxnPos where
  /-- WRITE, ARM: "clear controller state". -/
  | wClear
  /-- WRITE, ARM: push `buffer[i]`. -/
  | wPush (i : Nat)
  /-- WRITE, ARM: "set transfer length". -/
  | wLen
  /-- WRITE, ARM: "clear stale status flags". -/
  | wStat
  /-- WRITE, ARM: "start, write mode". -/
  | wStart
  /-- WRITE, POLL: read S. -/
  | wPoll
  /-- READ, ARM: "set the expected transfer length". -/
  | rLen
  /-- READ, ARM: "clear stale status flags". -/
  | rStat
  /-- READ, ARM: "start, read mode, clear". -/
  | rStart
  /-- READ, LOOP: read S. -/
  | rLoop
  /-- READ, LOOP: `take_one` after a snapshot that showed data-ready. -/
  | rTake
  /-- READ, DRAIN: read S. -/
  | rDrain
  /-- READ, DRAIN: `take_one` after a snapshot that showed data-ready. -/
  | rDrainTake
  deriving DecidableEq, Repr

/-- The Transfer Descriptor of a transaction: "{direction (write|read), byte buffer, requested length}", with
READ's counter and the last status snapshot (R44), and the host's position. For READ the buffer holds the
bytes taken so far. -/
structure Txn where
  dir : Dir
  buffer : List Byte
  length : Nat
  count : Nat
  snap : Word
  pos : TxnPos
  deriving DecidableEq, Repr

/-- The transient state of the procedure that runs (R44); none between calls. -/
inductive Call where
  /-- A WRITE or READ, by itself or inside a framing procedure. -/
  | txn (t : Txn)
  /-- SET_MASKED_BITS between its read, which returned `t`, and its write (R119). -/
  | masked (t : Word)
  deriving DecidableEq, Repr

/-- The state of the system (R20). -/
structure State where
  /-- The model parameters (R11 to R15, R260). -/
  cfg : Params
  /-- C (R23): I2CEN, INTR, INTT, INTD, READ. -/
  cI2cen : Bool
  cIntr : Bool
  cIntt : Bool
  cIntd : Bool
  cRead : Bool
  /-- S (R25, R27): the three stored flags. -/
  done : Bool
  err : Bool
  clkt : Bool
  /-- DLEN (R28): the last value written. -/
  dlenW : Half
  /-- A (R29). -/
  aAddr : Addr7
  /-- The byte queue behind FIFO, oldest first (R30). -/
  fifo : List Byte
  /-- DIV (R31). -/
  cdiv : Half
  /-- DEL (R35). -/
  fedl : Half
  redl : Half
  /-- CLKT (R34). -/
  tout : Half
  /-- The Engine (R38): phase, bytes still to move, latched direction (true = read) and address. -/
  eng : Phase
  rem : Half
  xRead : Bool
  xAddr : Addr7
  /-- A received byte not yet in the FIFO (R39). -/
  rxStage : Option Byte
  /-- The Peripheral Mapping while it is valid (R40): `st.mapped` is whether there is one. -/
  mapping : Option Mapping
  /-- Whether the two bus lines are routed (R41). -/
  pinsRouted : Bool
  /-- The sticky fault set, in the order raised, no fault twice (R42). -/
  faults : List Fault
  /-- The refusal mark (R42), with its kind. -/
  refused : Option Refusal
  /-- The bus events emitted, oldest first (R43). -/
  trace : List BusEvent
  /-- The transient state of the running procedure (R44). -/
  call : Option Call
  /-- The host's program and its position (R22, R73, R90). -/
  prog : List Line
  pos : Nat
  /-- The host-local values (R90), by name, in rising order of names. -/
  locals : List (Nat × Value)
  /-- What the last completed request or procedure returned (R83, R84, R280); none for a write. -/
  result : Option Value
  /-- The agent the next step is offered to (R10). The model's own. -/
  turn : Turn
  /-- How many steps have drawn (R17). The model's own. -/
  draws : Nat
  deriving DecidableEq, Repr

/-- The machine after reset with the given parameters (R48, R321), and no program loaded. -/
def State.resetWith (cfg : Params) : State :=
  { cfg := cfg,
    cI2cen := false, cIntr := false, cIntt := false, cIntd := false, cRead := false,
    done := false, err := false, clkt := false,
    dlenW := 0x0000#16, aAddr := 0x00#7, fifo := [], cdiv := 0x05DC#16,
    fedl := 0x0030#16, redl := 0x0030#16, tout := 0x0040#16,
    eng := .idle, rem := 0#16, xRead := false, xAddr := 0#7, rxStage := none,
    mapping := none, pinsRouted := cfg.pinsRoutedAtReset,
    faults := [], refused := none, trace := [],
    call := none, prog := [], pos := 0, locals := [], result := none,
    turn := .host, draws := 0 }

/-- The machine right after reset (R48, R321): the default parameters of the spec, the OPEN ones unknown. -/
def State.reset : State :=
  State.resetWith (Params.default (Config.coreClockPred + 1) Config.opcodes)

end Sys2Proof.Machine
end

