-- ==== Sys2Proof/Machine/Flags.lean ====
section
/-! DEFINITION. The status register S and the other values a host read composes from the state (R24 to R35), the tests the driver makes on a snapshot (R222, R223), and the values the spec gives for information (R32, R60, R159, R297). -/

namespace Sys2Proof.Machine

/-- `st.mapped` (R40). -/
def State.mapped (s : State) : Bool := s.mapping.isSome

/-- TA, transfer-active (R25). -/
def flagTA (s : State) : Bool := s.eng != .idle

/-- RXF, fifo-full (R25). -/
def flagRXF (s : State) : Bool := s.fifo.length == s.cfg.fifoDepth

/-- TXE, fifo-empty (R25). -/
def flagTXE (s : State) : Bool := s.fifo.length == 0

/-- RXD, data-ready (R25). -/
def flagRXD (s : State) : Bool := decide (s.fifo.length > 0)

/-- TXD (R25). -/
def flagTXD (s : State) : Bool := decide (s.fifo.length < s.cfg.fifoDepth)

/-- RXR: a draw while a read transfer is active (R25, R26). -/
def flagRXR (d : Draws) (s : State) : Bool := flagTA s && s.xRead && d.rxr

/-- TXW: a draw while a write transfer is active (R25, R26). -/
def flagTXW (d : Draws) (s : State) : Bool := flagTA s && !s.xRead && d.txw

/-- `x[C]` (R24). -/
def readC (d : Draws) (s : State) : Word :=
  d.bits.extractLsb' 16 16 ++ BitVec.ofBool s.cI2cen ++ d.bits.extractLsb' 11 4 ++ BitVec.ofBool s.cIntr ++
    BitVec.ofBool s.cIntt ++ BitVec.ofBool s.cIntd ++ 0#1 ++ d.bits.extractLsb' 6 1 ++ 0#2 ++
    d.bits.extractLsb' 1 3 ++ BitVec.ofBool s.cRead

/-- `x[S]` (R25, R26). -/
def readS (d : Draws) (s : State) : Word :=
  d.bits.extractLsb' 10 22 ++ BitVec.ofBool s.clkt ++ BitVec.ofBool s.err ++ BitVec.ofBool (flagRXF s) ++
    BitVec.ofBool (flagTXE s) ++ BitVec.ofBool (flagRXD s) ++ BitVec.ofBool (flagTXD s) ++
    BitVec.ofBool (flagRXR d s) ++ BitVec.ofBool (flagTXW d s) ++ BitVec.ofBool s.done ++ BitVec.ofBool (flagTA s)

/-- `x[DLEN]` (R28): the remaining count while a transfer is active or DONE is set, else the last value written. -/
def readDLEN (d : Draws) (s : State) : Word :=
  d.bits.extractLsb' 16 16 ++ (if s.eng ≠ .idle ∨ s.done = true then s.rem else s.dlenW)

/-- `x[A]` (R29). -/
def readA (d : Draws) (s : State) : Word := d.bits.extractLsb' 7 25 ++ s.aAddr

/-- `x[DIV]` (R33). -/
def readDIV (d : Draws) (s : State) : Word :=
  d.bits.extractLsb' 16 16 ++
    (match s.cfg.cdivReadback with
     | .asWritten => s.cdiv
     | .bit0Cleared => s.cdiv &&& 0xFFFE#16)

/-- `x[DEL]` (R35). -/
def readDEL (s : State) : Word := s.fedl ++ s.redl

/-- `x[CLKT]` (R34). -/
def readCLKT (d : Draws) (s : State) : Word := d.bits.extractLsb' 16 16 ++ s.tout

/-- `terminal(s)`: DONE, ERR or CLKT in a snapshot (R222). -/
def terminal (snap : Word) : Bool := (snap &&& 0x00000302#32) != 0#32

/-- `s[5]`: data-ready in a snapshot (R215). -/
def dataReadyBit (snap : Word) : Bool := snap.getLsbD 5

/-- `classify(s)` (R223); none is Success. -/
def classify (snap : Word) : Option ErrKind :=
  if snap.getLsbD 8 then some .ackError
  else if snap.getLsbD 9 then some .timeoutError
  else none

/-- The interrupt output (R297). "It is not connected to any agent of the model". -/
def interruptOutput (d : Draws) (s : State) : Bool :=
  (s.cIntr && flagRXR d s) || (s.cIntt && flagTXW d s) || (s.cIntd && s.done)

/-- `eff_div` (R32); no rule depends on it. -/
def effDiv (cdiv : Half) : Nat :=
  if cdiv = 0#16 then 32768
  else if 2 ≤ cdiv.toNat ∧ cdiv.toNat ≤ 32768 then (cdiv &&& 0xFFFE#16).toNat
  else Config.unspecifiedDivisor cdiv

/-- The SCL frequency (R32), "informative only, because the model has no time". -/
def sclFrequency (s : State) : Nat := s.cfg.coreClockHz / effDiv s.cdiv

/-- The address byte on the wire: `{addr[6:0], rw}` (R64, R159). -/
def addressByte (a : Addr7) (rw : Bool) : Byte := a ++ BitVec.ofBool rw

/-- The physical address of a register of the mapped block (R60, R65). -/
def registerAddress (m : Mapping) (r : Reg) : Nat := m.base + r.offset

end Sys2Proof.Machine
end

