-- ==== Sys2Proof/Machine/Ops.lean ====
section
/-! DEFINITION. The shared operations: raising a fault and refusing (R285, R288), the checks of a register request (R100), the FIFO, the start of a transfer, reading and writing a register, and returning from a procedure. -/

namespace Sys2Proof.Machine

/-! ### Faults and refusals -/

/-- The code of a fault (R286). -/
def Fault.code : Fault → Nat
  | .bufferOverflow _ _ => 16
  | .notInitialized _ => 17
  | .outOfBounds _ => 18
  | .misaligned _ => 19
  | .configWhileActive _ _ => 20
  | .startWhileDisabled _ => 21
  | .zeroLengthStart => 22
  | .busNotRouted => 23
  | .fifoDirection _ _ => 24
  | .doubleUnmap => 25
  | .contractViolation _ => 26

/-- The code of an error (R280). -/
def ErrKind.code : ErrKind → Nat
  | .mapFailed => 1
  | .ackError => 2
  | .timeoutError => 3
  | .crcError => 4
  | .invalidArgument => 5
  | .tooSlow => 6
  | .shortRead => 7
  | .notValid => 8

/-- `raise Fault(k)`: `st.faults <- st.faults ∪ {k}` (R285). -/
def State.raise (f : Fault) (s : State) : State :=
  { s with faults := if f ∈ s.faults then s.faults else s.faults ++ [f] }

/-- `refuse(k)`: `st.refused <- true` (R288); the mark is never cleared (R42). -/
def State.refuse (r : Refusal) (s : State) : State :=
  { s with refused := some (s.refused.getD r) }

/-- Whether the host may take a step: neither a fault nor a refusal is recorded (R100, R285, R288). -/
def State.running (s : State) : Bool := s.faults.isEmpty && s.refused.isNone

/-- How a host that may not step has stopped (R340): Fault if a fault is recorded, else Refused. -/
def State.stopped (s : State) : Host.Outcome State Fault Refusal :=
  match s.faults, s.refused with
  | f :: _, _ => .fault f
  | [], some r => .refused r
  | [], none => .next s

/-- One host step of a request: `k` where the host may step, else "no step" (R100). -/
def whenRunning (s : State) (k : State → State) : Host.Outcome State Fault Refusal :=
  if s.running then .next (k s) else s.stopped

/-- The draws of the step that starts in this state (R17). -/
def State.free (s : State) : Draws := Config.freeDraws s.draws

/-- What one register access answers: a value, or a stop that the state records. -/
inductive Req (α : Type) where
  | ok (v : α) (s : State)
  | stop (s : State)

/-! ### The FIFO (R30) -/

/-- `clear_fifo()` (R103). -/
def clearFifo (s : State) : State := { s with fifo := [], rxStage := none }

/-- RD_FIFO's own steps (R111). -/
def popFifo (d : Draws) (s : State) : Req Word :=
  if s.eng ≠ .idle ∧ s.xRead = false then .stop (s.raise (.fifoDirection 0x10 false))
  else
    match s.fifo with
    | [] => .ok d.bits s
    | b :: rest => .ok (d.bits.extractLsb' 8 24 ++ b) { s with fifo := rest }

/-- WR_FIFO's own steps (R112): a write to a full FIFO is ignored. -/
def pushFifo (data : Word) (s : State) : Req Unit :=
  if s.eng ≠ .idle ∧ s.xRead = true then .stop (s.raise (.fifoDirection 0x10 true))
  else if s.fifo.length = s.cfg.fifoDepth then .ok () s
  else .ok () { s with fifo := s.fifo ++ [data.extractLsb' 0 8] }

/-! ### Control (R102, R105, R141, R142) -/

/-- The C bits that WR_C stores (R102). -/
def storeControl (data : Word) (s : State) : State :=
  { s with cI2cen := data.getLsbD 15, cIntr := data.getLsbD 10, cIntt := data.getLsbD 9,
           cIntd := data.getLsbD 8, cRead := data.getLsbD 0 }

/-- `start()` without its checks (R141): direction, target and length are latched. -/
def latchTransfer (s : State) : State :=
  { s with xRead := s.cRead, xAddr := s.aAddr, rem := s.dlenW, eng := .addr }

/-- `start()` (R141) after the checks of R142, in their order. -/
def startTransfer (data : Word) (s : State) : Req Unit :=
  if s.cI2cen = false then .stop (s.raise (.startWhileDisabled data))
  else if s.dlenW = 0#16 then .stop (s.raise .zeroLengthStart)
  else if s.pinsRouted = false then .stop (s.raise .busNotRouted)
  else .ok () (latchTransfer s)

/-- WR_C's own steps (R102): store, then clear, then start. -/
def writeControl (data : Word) (s : State) : Req Unit :=
  let s := storeControl data s
  let s := if data.extractLsb' 4 2 = 0#2 then s else clearFifo s
  if data.getLsbD 7 then startTransfer data s else .ok () s

/-- WR_S's own steps: write 1 to clear (R106). -/
def writeStatus (data : Word) (s : State) : State :=
  { s with clkt := s.clkt && !data.getLsbD 9, err := s.err && !data.getLsbD 8, done := s.done && !data.getLsbD 1 }

/-! ### Register access (R61, R100) -/

/-- The checks of R100 that every register request passes, in their order; none if it passes. -/
def accessFault (off : Nat) (s : State) : Option Fault :=
  if s.mapped = false then some (.notInitialized off)
  else if off > 0x1C then some (.outOfBounds off)
  else if off % 4 ≠ 0 then some (.misaligned off)
  else none

/-- The register at a word offset of the block (R65). -/
def regAt (off : Nat) : Reg := Reg.ofIndex (BitVec.ofNat 3 (off / 4))

/-- The registers whose write while a transfer is active is ConfigWhileActive (R100). -/
def isConfigReg : Reg → Bool
  | .C | .DLEN | .A | .DIV | .DEL | .CLKT => true
  | .S | .FIFO => false

/-- A host read of a register (R101 to R117, the even rules' own steps). -/
def readReg (r : Reg) (d : Draws) (s : State) : Req Word :=
  match r with
  | .C => .ok (readC d s) s
  | .S => .ok (readS d s) s
  | .DLEN => .ok (readDLEN d s) s
  | .A => .ok (readA d s) s
  | .FIFO => popFifo d s
  | .DIV => .ok (readDIV d s) s
  | .DEL => .ok (readDEL s) s
  | .CLKT => .ok (readCLKT d s) s

/-- A host write of a register that has passed the checks of R100 (R102 to R118). -/
def writeReg (r : Reg) (data : Word) (s : State) : Req Unit :=
  match r with
  | .C => writeControl data s
  | .S => .ok () (writeStatus data s)
  | .DLEN => .ok () { s with dlenW := data.extractLsb' 0 16 }
  | .A => .ok () { s with aAddr := data.extractLsb' 0 7 }
  | .FIFO => pushFifo data s
  | .DIV => .ok () { s with cdiv := data.extractLsb' 0 16 }
  | .DEL => .ok () { s with fedl := data.extractLsb' 16 16, redl := data.extractLsb' 0 16 }
  | .CLKT => .ok () { s with tout := data.extractLsb' 0 16 }

/-- `MemRead(off, 4)` (R61, R100, R184). -/
def memRead (off : Nat) (d : Draws) (s : State) : Req Word :=
  match accessFault off s with
  | some f => .stop (s.raise f)
  | none => readReg (regAt off) d s

/-- `MemWrite(off, 4, v)` (R61, R100, R184). -/
def memWrite (off : Nat) (data : Word) (s : State) : Req Unit :=
  match accessFault off s with
  | some f => .stop (s.raise f)
  | none =>
    if data &&& (regAt off).reservedMask ≠ 0#32 then .stop (s.refuse .reservedBits)
    else if isConfigReg (regAt off) = true ∧ s.eng ≠ .idle then .stop (s.raise (.configWhileActive off data))
    else writeReg (regAt off) data s

/-! ### Ending a request or a procedure -/

/-- A register read ends: its value is the request's result (R83). -/
def endRead : Req Word → State
  | .ok v s => { s with result := some (.nat v.toNat) }
  | .stop s => s

/-- A register write ends: it has no result (R83). -/
def endWrite : Req Unit → State
  | .ok _ s => { s with result := none }
  | .stop s => s

/-- A procedure returns: its transient state is dropped (R44) and its result stands (R280). -/
def State.ret (r : Result) (s : State) : State := { s with call := none, result := some (.result r) }

/-- A procedure's `return Ok(v)` (R17). -/
def State.retOk (v : Ret) (s : State) : State := s.ret (.ok v)

/-- A procedure's `return Err(k)` (R17). -/
def State.retErr (k : ErrKind) (s : State) : State := s.ret (.err k)

/-- One H read inside a procedure, and what the procedure does with the value in the same step. -/
def Req.andThen {α : Type} (q : Req α) (k : α → State → State) : State :=
  match q with
  | .ok v s => k v s
  | .stop s => s

end Sys2Proof.Machine
end

