-- ==== Sys2Proof/Machine/Configuration.lean ====
section
/-! DEFINITION. The meanings of the mapping and configuration procedures (R180 to R191) and of SET_MASKED_BITS (R119). Each makes at most one register access in a host step. -/

namespace Sys2Proof.Machine

/-- MAP's own steps (R182): the mapping it leaves, and its handle if it succeeds. -/
def mapBlock (physicalBase length : Nat) (s : State) : Option Mapping :=
  if s.mapped then none
  else if s.free.mapGranted then some { base := physicalBase, length := length, pointer := s.free.mapPointer }
  else none

/-- INIT (R180): map, then route the two lines. -/
def execInit (physicalBase length : Nat) (s : State) : Host.Outcome State Fault Refusal :=
  whenRunning s fun s =>
    match mapBlock physicalBase length s with
    | none => s.retErr .mapFailed
    | some m => { s with mapping := some m, pinsRouted := true }.retOk .unit

/-- MAP (R182). -/
def execMap (physicalBase length : Nat) (s : State) : Host.Outcome State Fault Refusal :=
  whenRunning s fun s =>
    match mapBlock physicalBase length s with
    | none => s.retErr .mapFailed
    | some m => { s with mapping := some m }.retOk (.handle m)

/-- UNMAP's own steps (R183). -/
def unmapBlock (s : State) : State :=
  if s.mapped then { s with mapping := none }.retOk .unit else s.raise .doubleUnmap

/-- UNMAP (R183). -/
def execUnmap (s : State) : Host.Outcome State Fault Refusal := whenRunning s unmapBlock

/-- DEINIT (R181): `UNMAP()`, then `return Ok(())`. -/
def execDeinit (s : State) : Host.Outcome State Fault Refusal := whenRunning s unmapBlock

/-- The CDIV value SET_CLOCK_FREQUENCY stores, or none for TooSlow (R185). -/
def divisorFor (coreClockHz hz : Nat) : Option Half :=
  if hz = 0 then none
  else
    let d := coreClockHz / hz
    if d > 32768 then none
    else
      let d := d - d % 2
      some (BitVec.ofNat 16 (if d = 32768 then 0 else d))

/-- SET_CLOCK_FREQUENCY (R185). -/
def execSetClockFrequency (hz : Nat) (s : State) : Host.Outcome State Fault Refusal :=
  whenRunning s fun s =>
    match divisorFor s.cfg.coreClockHz hz with
    | none => s.retErr .tooSlow
    | some d => (memWrite 0x14 (d.setWidth 32) s).andThen fun _ s => s.retOk .unit

/-- The frequency GET_SCL_FREQUENCY computes from the stored divisor (R186): ceiling division. -/
def frequencyOf (coreClockHz : Nat) (cdiv : Half) : Nat :=
  let d := if cdiv.toNat = 0 then 32768 else cdiv.toNat
  if coreClockHz % d = 0 then coreClockHz / d else coreClockHz / d + 1

/-- GET_SCL_FREQUENCY (R186). -/
def execGetSclFrequency (s : State) : Host.Outcome State Fault Refusal :=
  whenRunning s fun s =>
    (memRead 0x14 s.free s).andThen fun v s =>
      s.retOk (.nat (frequencyOf s.cfg.coreClockHz (v.extractLsb' 0 16)))

/-- GET_CDIV (R187). -/
def execGetCdiv (s : State) : Host.Outcome State Fault Refusal :=
  whenRunning s fun s =>
    (memRead 0x14 s.free s).andThen fun v s => s.retOk (.nat (v.extractLsb' 0 16).toNat)

/-- SET_CLOCK_TIMEOUT (R188). -/
def execSetClockTimeout (count : Half) (s : State) : Host.Outcome State Fault Refusal :=
  whenRunning s fun s => (memWrite 0x1C (count.setWidth 32) s).andThen fun _ s => s.retOk .unit

/-- GET_CLOCK_TIMEOUT (R189). -/
def execGetClockTimeout (s : State) : Host.Outcome State Fault Refusal :=
  whenRunning s fun s =>
    (memRead 0x1C s.free s).andThen fun v s => s.retOk (.nat (v.extractLsb' 0 16).toNat)

/-- SET_SLAVE_ADDRESS (R190). -/
def execSetSlaveAddress (addr : Byte) (s : State) : Host.Outcome State Fault Refusal :=
  whenRunning s fun s =>
    (memWrite 0x0C ((addr &&& 0x7F#8).setWidth 32) s).andThen fun _ s => s.retOk .unit

/-- GET_SLAVE_ADDRESS (R191). -/
def execGetSlaveAddress (s : State) : Host.Outcome State Fault Refusal :=
  whenRunning s fun s =>
    (memRead 0x0C s.free s).andThen fun v s => s.retOk (.nat (v &&& 0x7F#32).toNat)

/-- The value SET_MASKED_BITS writes back (R119). -/
def maskedBits (t value mask : Word) : Word := (t &&& ~~~mask) ||| (value &&& mask)

/-- SET_MASKED_BITS (R119): a read in one host step, the write in the next. -/
def execSetMaskedBits (offset : Nat) (value mask : Word) (s : State) : Host.Outcome State Fault Refusal :=
  whenRunning s fun s =>
    match s.call with
    | some (.masked t) => (memWrite offset (maskedBits t value mask) s).andThen fun _ s => s.retOk .unit
    | _ => (memRead offset s.free s).andThen fun t s => { s with call := some (.masked t) }

end Sys2Proof.Machine
end

