-- ==== Sys2Proof/Machine/Crc.lean ====
section
/-! DEFINITION. The CRC-8 unit (R240 to R247): the function, the two requests, and the validation of response frames. It has no state. -/

namespace Sys2Proof.Machine

/-- One bit of the CRC register (R241). -/
def crcShift (c : Byte) : Byte := if c.getLsbD 7 then (c <<< 1) ^^^ 0x31#8 else c <<< 1

/-- `n` bits of the CRC register (R241). -/
def crcShifts : Nat → Byte → Byte
  | 0, c => c
  | n + 1, c => crcShifts n (crcShift c)

/-- One byte into the CRC register (R241). -/
def crcByte (c b : Byte) : Byte := crcShifts 8 (c ^^^ b)

/-- `crc8(b0, b1)` (R240, R241). -/
def crc8 (b0 b1 : Byte) : Byte := crcByte (crcByte 0xFF#8 b0) b1

/-- CRC8: compute (R242). -/
def execCrc8 (b0 b1 : Byte) (s : State) : Host.Outcome State Fault Refusal :=
  whenRunning s fun s => { s with result := some (.nat (crc8 b0 b1).toNat) }

/-- CRCCHK: check one group (R243). -/
def execCrcchk (b0 b1 ck : Byte) (s : State) : Host.Outcome State Fault Refusal :=
  whenRunning s fun s => { s with result := some (.nat (if crc8 b0 b1 = ck then 1 else 0)) }

/-- The groups of a byte list: a 2-byte word and its check byte, in order (R244). -/
def groups : List Byte → List (Byte × Byte × Byte)
  | b0 :: b1 :: ck :: rest => (b0, b1, ck) :: groups rest
  | _ => []

/-- Whether a group is valid (R244). -/
def groupValid (g : Byte × Byte × Byte) : Bool := crc8 g.1 g.2.1 == g.2.2

/-- The word of a group, big-endian (R63, R244). -/
def groupWord (g : Byte × Byte × Byte) : Half := g.1 ++ g.2.1

/-- `validate(r, n)` (R245). -/
def validate (r : List Byte) (n : Nat) : Except ErrKind (List Half) :=
  if r.length ≠ 3 * n then .error .shortRead
  else if (groups r).all groupValid then .ok ((groups r).map groupWord)
  else .error .crcError

end Sys2Proof.Machine
end

