-- ==== Sys2Proof/Machine/Transactions.lean ====
section
/-! DEFINITION. WRITE and READ (R210 to R226) as sequences of host steps: each step makes one register access, and the Engine may step between any two. -/

namespace Sys2Proof.Machine

/-- What one host step of a transaction comes to. -/
inductive TxnOut where
  /-- The transaction goes on, or the host has stopped. -/
  | more (s : State)
  /-- WRITE returns (R214). -/
  | wrote (r : Except ErrKind Nat) (s : State)
  /-- READ returns its count and its bytes (R220). -/
  | got (r : Except ErrKind (Nat × List Byte)) (s : State)

/-- The descriptor of `WRITE(buffer, length)` (R44, R211). -/
def writeTxn (buffer : List Byte) (length : Nat) : Txn :=
  { dir := .write, buffer := buffer, length := length, count := 0, snap := 0#32, pos := .wClear }

/-- The descriptor of `READ(length)` (R44, R215). -/
def readTxn (length : Nat) : Txn :=
  { dir := .read, buffer := [], length := length, count := 0, snap := 0#32, pos := .rLen }

/-- Whether a length is outside the contract of WRITE (R211) or READ (R215). -/
def Txn.violates (t : Txn) (s : State) : Bool :=
  match t.dir with
  | .write => t.length == 0 || decide (t.length > s.cfg.fifoDepth) || decide (t.length > t.buffer.length)
  | .read => t.length == 0 || decide (t.length > 0xFFFF)

/-- The host goes on with the descriptor `t`. -/
def goOn (t : Txn) (s : State) : TxnOut := .more { s with call := some (.txn t) }

/-- One register write of a transaction; `t` is the descriptor after it. -/
def txnWrite (off : Nat) (data : Word) (t : Txn) (s : State) : TxnOut :=
  match memWrite off data s with
  | .ok _ s => goOn t s
  | .stop s => .more s

/-- One read of S of a transaction. -/
def txnStatus (s : State) (k : Word → State → TxnOut) : TxnOut :=
  match memRead 0x04 s.free s with
  | .ok v s => k v s
  | .stop s => .more s

/-- READ's terminal test and classification (R217, R218). -/
def testSnapshot (t : Txn) (s : State) : TxnOut :=
  if terminal t.snap then
    match classify t.snap with
    | some k => .got (.error k) s
    | none => goOn { t with pos := .rDrain } s
  else goOn { t with pos := .rLoop } s

/-- `take_one()` (R221), then the rest of the host step. -/
def takeOne (t : Txn) (s : State) (k : Txn → State → TxnOut) : TxnOut :=
  if t.count ≥ t.length then .more (s.raise (.bufferOverflow t.count t.length))
  else
    match memRead 0x10 s.free s with
    | .ok v s => k { t with buffer := t.buffer ++ [v.extractLsb' 0 8], count := t.count + 1 } s
    | .stop s => .more s

/-- The next host step of a transaction (R211, R215). -/
def txnStep (t : Txn) (s : State) : TxnOut :=
  match t.pos with
  | .wClear => txnWrite 0x00 0x00000010#32 { t with pos := .wPush 0 } s
  | .wPush i =>
    txnWrite 0x10 ((t.buffer.getD i 0#8).setWidth 32)
      { t with pos := if i + 1 < t.length then .wPush (i + 1) else .wLen } s
  | .wLen => txnWrite 0x08 (BitVec.ofNat 32 t.length) { t with pos := .wStat } s
  | .wStat => txnWrite 0x04 0x00000302#32 { t with pos := .wStart } s
  | .wStart => txnWrite 0x00 0x00008080#32 { t with pos := .wPoll } s
  | .wPoll =>
    txnStatus s fun v s =>
      if terminal v then
        match classify v with
        | some k => .wrote (.error k) s
        | none => .wrote (.ok t.length) s
      else goOn { t with snap := v } s
  | .rLen => txnWrite 0x08 (BitVec.ofNat 32 t.length) { t with pos := .rStat } s
  | .rStat => txnWrite 0x04 0x00000302#32 { t with pos := .rStart } s
  | .rStart => txnWrite 0x00 0x00008091#32 { t with pos := .rLoop } s
  | .rLoop =>
    txnStatus s fun v s =>
      if dataReadyBit v then goOn { t with snap := v, pos := .rTake } s
      else testSnapshot { t with snap := v } s
  | .rTake => takeOne t s testSnapshot
  | .rDrain =>
    txnStatus s fun v s =>
      if dataReadyBit v then goOn { t with snap := v, pos := .rDrainTake } s
      else .got (.ok (t.count, t.buffer)) s
  | .rDrainTake => takeOne t s fun t s => goOn { t with pos := .rDrain } s

/-- One host step of the transaction that runs; where none runs, `new` is opened: its contract comes before
its first request (R293). -/
def advance (new : Txn) (s : State) : TxnOut :=
  match s.call with
  | some (.txn t) => txnStep t s
  | _ => if new.violates s then .more (s.raise (.contractViolation new.length)) else txnStep new s

/-- The end of a transaction that the caller asked for by itself (R214, R220). -/
def endTxn : TxnOut → State
  | .more s => s
  | .wrote (.ok n) s => s.retOk (.nat n)
  | .wrote (.error k) s => s.retErr k
  | .got (.ok (count, buf)) s => s.retOk (.bytes count buf)
  | .got (.error k) s => s.retErr k

/-- WRITE (R211). -/
def execWrite (buffer : List Byte) (length : Nat) (s : State) : Host.Outcome State Fault Refusal :=
  whenRunning s fun s => endTxn (advance (writeTxn buffer length) s)

/-- READ (R215). -/
def execRead (length : Nat) (s : State) : Host.Outcome State Fault Refusal :=
  whenRunning s fun s => endTxn (advance (readTxn length) s)

end Sys2Proof.Machine
end

