-- ==== Sys2Proof/Machine/Frames.lean ====
section
/-! DEFINITION. The sensor command frames (R260 to R272), host software above the block: WRITE, READ and the CRC unit. -/

namespace Sys2Proof.Machine

/-- The two bytes of a 16-bit value, big-endian (R63, R261). -/
def halfBytes (h : Half) : List Byte := [h.extractLsb' 8 8, h.extractLsb' 0 8]

/-- An argument word and its CRC (R261, R263). -/
def argumentBytes (v : Half) : List Byte := halfBytes v ++ [crc8 (v.extractLsb' 8 8) (v.extractLsb' 0 8)]

/-- One host step of a procedure that is one WRITE of `bytes` (R262, R263). -/
def writeCommand (bytes : List Byte) (s : State) : State :=
  match advance (writeTxn bytes bytes.length) s with
  | .more s => s
  | .wrote (.ok _) s => s.retOk .unit
  | .got (.ok _) s => s.retOk .unit
  | .wrote (.error k) s => s.retErr k
  | .got (.error k) s => s.retErr k

/-- One host step of a procedure that is a WRITE of `bytes` and then a READ of `n` bytes; `fin` is what the
procedure returns of the bytes, `fail` what it returns of an error (R264, R265, R271). -/
def queryCommand (bytes : List Byte) (n : Nat) (fin : Nat → List Byte → Result) (fail : ErrKind → Result)
    (s : State) : State :=
  match advance (writeTxn bytes bytes.length) s with
  | .more s => s
  | .wrote (.ok _) s => { s with call := some (.txn (readTxn n)) }
  | .wrote (.error k) s => s.ret (fail k)
  | .got (.ok (count, buf)) s => s.ret (fin count buf)
  | .got (.error k) s => s.ret (fail k)

/-- CMD_NO_ARG (R262). -/
def execCmdNoArg (opcode : Half) (s : State) : Host.Outcome State Fault Refusal :=
  whenRunning s (writeCommand (halfBytes opcode))

/-- CMD_WRITE_WORD (R263). -/
def execCmdWriteWord (opcode value : Half) (s : State) : Host.Outcome State Fault Refusal :=
  whenRunning s (writeCommand (halfBytes opcode ++ argumentBytes value))

/-- What CMD_READ_WORD returns of the bytes of its read (R264, R270). -/
def wordResult (count : Nat) (buf : List Byte) : Result :=
  if count ≠ 3 then .err .shortRead
  else
    match validate buf 1 with
    | .error k => .err k
    | .ok (v :: _) => .ok (.nat v.toNat)
    | .ok [] => .err .shortRead

/-- CMD_READ_WORD (R264). -/
def execCmdReadWord (opcode : Half) (s : State) : Host.Outcome State Fault Refusal :=
  whenRunning s (queryCommand (halfBytes opcode) 3 wordResult .err)

/-- `co2 = 0.0` by IEEE equality on the binary32 pattern (R267). -/
def isZeroF32 (x : Word) : Bool := (x &&& 0x7FFFFFFF#32) == 0#32

/-- The measurement of six words (R266, R267). -/
def measurementOf : List Half → Result
  | [w0, w1, w2, w3, w4, w5] =>
    if isZeroF32 (w0 ++ w1) then .err .notValid else .ok (.measurement (w0 ++ w1) (w2 ++ w3) (w4 ++ w5))
  | _ => .err .shortRead

/-- What READ_MEASUREMENT returns of the bytes of its read (R265, R270). -/
def measurementResult (count : Nat) (buf : List Byte) : Result :=
  if count ≠ 18 then .err .shortRead
  else
    match validate buf 6 with
    | .error k => .err k
    | .ok words => measurementOf words

/-- READ_MEASUREMENT (R265). -/
def execReadMeasurement (s : State) : Host.Outcome State Fault Refusal :=
  whenRunning s (queryCommand (halfBytes s.cfg.opcodes.readMeasurement) 18 measurementResult .err)

/-- `Ok(r = Ok(1))` (R268). -/
def readyResult (r : Result) : Result := .ok (.bool (decide (r = .ok (.nat 1))))

/-- DATA_READY (R268). -/
def execDataReady (s : State) : Host.Outcome State Fault Refusal :=
  whenRunning s (queryCommand (halfBytes s.cfg.opcodes.getDataReady) 3
    (fun count buf => readyResult (wordResult count buf)) (fun k => readyResult (.err k)))

/-- SET_MEASUREMENT_INTERVAL (R269). -/
def execSetMeasurementInterval (seconds : Nat) (s : State) : Host.Outcome State Fault Refusal :=
  whenRunning s fun s =>
    if seconds < 2 ∨ seconds > 1800 then s.retErr .invalidArgument
    else writeCommand (halfBytes s.cfg.opcodes.setInterval ++ argumentBytes (BitVec.ofNat 16 seconds)) s

/-! ### The commands the source names (R272) -/

/-- Soft reset. -/
def softReset (cfg : Params) : Instr := .cmdNoArg cfg.opcodes.softReset

/-- Stop continuous measurement. -/
def stopContinuous (cfg : Params) : Instr := .cmdNoArg cfg.opcodes.stopContinuous

/-- Continuous measurement with a pressure argument. -/
def startContinuous (cfg : Params) (pressure : Half) : Instr := .cmdWriteWord cfg.opcodes.startContinuous pressure

/-- Altitude compensation. -/
def setAltitude (cfg : Params) (altitude : Half) : Instr := .cmdWriteWord cfg.opcodes.setAltitude altitude

/-- The temperature offset. -/
def setTemperatureOffset (cfg : Params) (offset : Half) : Instr := .cmdWriteWord cfg.opcodes.setTempOffset offset

end Sys2Proof.Machine
end

