-- ==== Sys2Proof/Machine/RegisterAccess.lean ====
section
/-! DEFINITION. The meanings of the sixteen register requests (R101 to R118). Each is one atomic host step. -/

namespace Sys2Proof.Machine

/-- A register read request at byte offset `r.offset + lo` (R82, R100). -/
def readRequest (r : Reg) (lo : BitVec 2) (s : State) : Host.Outcome State Fault Refusal :=
  whenRunning s fun s => endRead (memRead (r.offset + lo.toNat) s.free s)

/-- A register write request at byte offset `r.offset + lo` (R82, R100). -/
def writeRequest (r : Reg) (lo : BitVec 2) (data : Word) (s : State) : Host.Outcome State Fault Refusal :=
  whenRunning s fun s => endWrite (memWrite (r.offset + lo.toNat) data s)

/-- RD_C (R101). -/
def execRdC (lo : BitVec 2) (s : State) := readRequest .C lo s

/-- WR_C (R102). -/
def execWrC (lo : BitVec 2) (data : Word) (s : State) := writeRequest .C lo data s

/-- RD_S (R104). -/
def execRdS (lo : BitVec 2) (s : State) := readRequest .S lo s

/-- WR_S (R106). -/
def execWrS (lo : BitVec 2) (data : Word) (s : State) := writeRequest .S lo data s

/-- RD_DLEN (R107). -/
def execRdDlen (lo : BitVec 2) (s : State) := readRequest .DLEN lo s

/-- WR_DLEN (R108). -/
def execWrDlen (lo : BitVec 2) (data : Word) (s : State) := writeRequest .DLEN lo data s

/-- RD_A (R109). -/
def execRdA (lo : BitVec 2) (s : State) := readRequest .A lo s

/-- WR_A (R110). -/
def execWrA (lo : BitVec 2) (data : Word) (s : State) := writeRequest .A lo data s

/-- RD_FIFO (R111). -/
def execRdFifo (lo : BitVec 2) (s : State) := readRequest .FIFO lo s

/-- WR_FIFO (R112). -/
def execWrFifo (lo : BitVec 2) (data : Word) (s : State) := writeRequest .FIFO lo data s

/-- RD_DIV (R113). -/
def execRdDiv (lo : BitVec 2) (s : State) := readRequest .DIV lo s

/-- WR_DIV (R114). -/
def execWrDiv (lo : BitVec 2) (data : Word) (s : State) := writeRequest .DIV lo data s

/-- RD_DEL (R115). -/
def execRdDel (lo : BitVec 2) (s : State) := readRequest .DEL lo s

/-- WR_DEL (R116). -/
def execWrDel (lo : BitVec 2) (data : Word) (s : State) := writeRequest .DEL lo data s

/-- RD_CLKT (R117). -/
def execRdClkt (lo : BitVec 2) (s : State) := readRequest .CLKT lo s

/-- WR_CLKT (R118). -/
def execWrClkt (lo : BitVec 2) (data : Word) (s : State) := writeRequest .CLKT lo data s

end Sys2Proof.Machine
end

