-- ==== Sys2Proof/Machine/Dispatch.lean ====
section
/-! DEFINITION. exec: one arm per instruction, each one call of its meaning. A procedure of several host steps is executed one host step at a time; the state holds where it stands (R22, R44). -/

namespace Sys2Proof.Machine

def exec (i : Instr) (s : State) : Host.Outcome State Fault Refusal :=
  match i with
  | .rdC lo => Sys2Proof.Machine.execRdC lo s
  | .wrC lo data => Sys2Proof.Machine.execWrC lo data s
  | .rdS lo => Sys2Proof.Machine.execRdS lo s
  | .wrS lo data => Sys2Proof.Machine.execWrS lo data s
  | .rdDlen lo => Sys2Proof.Machine.execRdDlen lo s
  | .wrDlen lo data => Sys2Proof.Machine.execWrDlen lo data s
  | .rdA lo => Sys2Proof.Machine.execRdA lo s
  | .wrA lo data => Sys2Proof.Machine.execWrA lo data s
  | .rdFifo lo => Sys2Proof.Machine.execRdFifo lo s
  | .wrFifo lo data => Sys2Proof.Machine.execWrFifo lo data s
  | .rdDiv lo => Sys2Proof.Machine.execRdDiv lo s
  | .wrDiv lo data => Sys2Proof.Machine.execWrDiv lo data s
  | .rdDel lo => Sys2Proof.Machine.execRdDel lo s
  | .wrDel lo data => Sys2Proof.Machine.execWrDel lo data s
  | .rdClkt lo => Sys2Proof.Machine.execRdClkt lo s
  | .wrClkt lo data => Sys2Proof.Machine.execWrClkt lo data s
  | .crc8 b0 b1 => Sys2Proof.Machine.execCrc8 b0 b1 s
  | .crcchk b0 b1 ck => Sys2Proof.Machine.execCrcchk b0 b1 ck s
  | .init physicalBase length => Sys2Proof.Machine.execInit physicalBase length s
  | .deinit => Sys2Proof.Machine.execDeinit s
  | .setClockFrequency hz => Sys2Proof.Machine.execSetClockFrequency hz s
  | .getSclFrequency => Sys2Proof.Machine.execGetSclFrequency s
  | .getCdiv => Sys2Proof.Machine.execGetCdiv s
  | .setClockTimeout count => Sys2Proof.Machine.execSetClockTimeout count s
  | .getClockTimeout => Sys2Proof.Machine.execGetClockTimeout s
  | .setSlaveAddress addr => Sys2Proof.Machine.execSetSlaveAddress addr s
  | .getSlaveAddress => Sys2Proof.Machine.execGetSlaveAddress s
  | .write buffer length => Sys2Proof.Machine.execWrite buffer length s
  | .read length => Sys2Proof.Machine.execRead length s
  | .setMaskedBits offset value mask => Sys2Proof.Machine.execSetMaskedBits offset value mask s
  | .map physicalBase length => Sys2Proof.Machine.execMap physicalBase length s
  | .unmap => Sys2Proof.Machine.execUnmap s
  | .cmdNoArg opcode => Sys2Proof.Machine.execCmdNoArg opcode s
  | .cmdReadWord opcode => Sys2Proof.Machine.execCmdReadWord opcode s
  | .cmdWriteWord opcode value => Sys2Proof.Machine.execCmdWriteWord opcode value s
  | .readMeasurement => Sys2Proof.Machine.execReadMeasurement s
  | .dataReady => Sys2Proof.Machine.execDataReady s
  | .setMeasurementInterval seconds => Sys2Proof.Machine.execSetMeasurementInterval seconds s

end Sys2Proof.Machine
end

