-- ==== Sys2Proof/Machine/Engine.lean ====
section
/-! DEFINITION. The transfer engine (R140 to R162): when each of its steps is enabled and what it does. The Target's answers are draws (R45). -/

namespace Sys2Proof.Machine

/-- `emit e` (R17, R155). -/
def State.emit (e : BusEvent) (s : State) : State := { s with trace := s.trace ++ [e] }

/-- The Target's clock-stretch behaviour at one bus step (R152). -/
inductive Stretch where
  | none | pastTimeout | forever
  deriving DecidableEq, Repr

/-- `tmo_enabled` (R152). -/
def timeoutEnabled (s : State) : Bool := s.tout != 0#16 || !s.cfg.clktZeroDisables

/-- `stretch_draw()` (R152). -/
def stretchDraw (d : Draws) (s : State) : Stretch :=
  if d.stretch then (if timeoutEnabled s then .pastTimeout else .forever) else .none

/-- The Target's acknowledgement. -/
def acknowledge (d : Draws) : Ack := if d.ack then .ack else .nack

/-- `timeout()` (R153): CLKT, then the transfer is abandoned or frozen. -/
def timeout (d : Draws) (s : State) : State :=
  let s := { s with clkt := true }.emit .stretchTimeout
  if d.abandon then { s with eng := .idle, done := s.done || d.alsoDone }.emit .stop
  else { s with eng := .stalled }

/-- `nack_end()` (R145). -/
def nackEnd (d : Draws) (s : State) : State :=
  { s with err := true, eng := .idle, done := s.done || d.alsoDone }.emit .stop

/-- `complete()` (R151). -/
def complete (s : State) : State := { s with eng := .idle, done := true }.emit .stop

/-- What follows a bus step's stretch: a timeout, a freeze (R154), or the step's own continuation. -/
def afterStretch (d : Draws) (s : State) (k : State → State) : State :=
  match stretchDraw d s with
  | .pastTimeout => timeout d s
  | .forever => { s with eng := .stalled }
  | .none => k s

/-- The ADDR step (R143, R144). -/
def addrStep (d : Draws) (s : State) : State :=
  afterStretch d (s.emit .start) fun s =>
    let s := s.emit (.addrByte s.xAddr s.xRead (acknowledge d))
    if d.ack then { s with eng := .data } else nackEnd d s

/-- `complete()` if no byte is left (R147, R149). -/
def completeIfDone (s : State) : State := if s.rem = 0#16 then complete s else s

/-- `tx_acked()` (R147). -/
def txAcked (s : State) : State := completeIfDone { s with rem := s.rem - 1#16 }

/-- The TXB step (R146, R148). -/
def txStep (d : Draws) (s : State) : State :=
  match s.fifo with
  | [] => s
  | b :: rest =>
    afterStretch d { s with fifo := rest } fun s =>
      let s := s.emit (.txByte b (acknowledge d))
      if d.ack then txAcked s else nackEnd d s

/-- The received byte goes to the FIFO, or to the stage until RXC commits it (R149). -/
def receive (v : Byte) (s : State) : State :=
  match s.cfg.rxCommitLag with
  | .none => { s with fifo := s.fifo ++ [v] }
  | .allowed => { s with rxStage := some v }

/-- The RXB step (R149, R160). -/
def rxStep (d : Draws) (s : State) : State :=
  afterStretch d s fun s =>
    let s := s.emit (.rxByte d.byte (if s.rem = 1#16 then .nack else .ack))
    completeIfDone (receive d.byte { s with rem := s.rem - 1#16 })

/-- Whether ADDR, TXB or RXB is enabled (R140); at most one of the three is. -/
def phaseEnabled (s : State) : Bool :=
  match s.eng with
  | .idle | .stalled => false
  | .addr => true
  | .data =>
    if s.xRead then s.rxStage.isNone && decide (s.fifo.length < s.cfg.fifoDepth) else decide (s.fifo.length > 0)

/-- The enabled one of ADDR, TXB and RXB (R140). -/
def phaseStep (d : Draws) (s : State) : State :=
  match s.eng with
  | .idle | .stalled => s
  | .addr => addrStep d s
  | .data => if s.xRead then rxStep d s else txStep d s

/-- Whether RXC is enabled (R140, R150): a byte is staged, in any phase but Stalled, in which "no further Engine step
exists" (R38) and which "has no step at all" (R140). That R150's "any phase" does not take in Stalled is the model's
reading: log entry 22. -/
def commitEnabled (s : State) : Bool := s.rxStage.isSome && s.eng != .stalled

/-- The queue after `v` is appended to it. R150 takes the FIFO to have room; where it has none, R30 still bounds the
queue, and a draw says which byte is not in it. Log entry 7. -/
def appended (d : Draws) (v : Byte) (s : State) : List Byte :=
  if s.fifo.length < s.cfg.fifoDepth then s.fifo ++ [v]
  else (s.fifo ++ [v]).eraseIdx (d.lost % (s.fifo.length + 1))

/-- The RXC step (R150). -/
def commitStep (d : Draws) (s : State) : State :=
  match s.rxStage with
  | none => s
  | some v => { s with fifo := appended d v s, rxStage := none }

end Sys2Proof.Machine
end

