-- ==== Sys2Proof/Machine/Operands.lean ====
section
/-! DEFINITION. The host's operands (R16, R90): host-local values, expressions over them, and the port word a host step forms from them. -/

namespace Sys2Proof.Machine

/-! ### Host-local values -/

/-- The value a name is bound to. -/
def getLocal (name : Nat) : List (Nat × Value) → Option Value
  | [] => none
  | (n, v) :: rest => if n = name then some v else getLocal name rest

/-- Bind a name; names stay in rising order, each once. -/
def setLocal (name : Nat) (value : Value) : List (Nat × Value) → List (Nat × Value)
  | [] => [(name, value)]
  | (n, v) :: rest =>
    if name < n then (name, value) :: (n, v) :: rest
    else if name = n then (name, value) :: rest
    else (n, v) :: setLocal name value rest

/-- The canonical form of the host-local values: names strictly rising. -/
abbrev LocalsCanonical (l : List (Nat × Value)) : Prop := l.Pairwise fun a b => a.1 < b.1

/-! ### Expressions -/

/-- The number an expression reads from a host-local value: a number, or `Ok` of one; `Ok(false)` is 0 and
`Ok(true)` is 1 (program P5). R90 states no number for the other results. -/
def Value.number : Value → Nat
  | .nat n => n
  | .result (.ok (.nat n)) => n
  | .result (.ok (.bool b)) => b.toNat
  | v => unstatedNumber v

/-- A comparison's value, 1 or 0 (R16). -/
def truth (p : Prop) [Decidable p] : Nat := if p then 1 else 0

/-- The two-place operators on naturals (R16). -/
def BinOp.eval (op : BinOp) (a b : Nat) : Nat :=
  match op with
  | .and => a &&& b
  | .or => a ||| b
  | .xor => a ^^^ b
  | .shl => a <<< b
  | .shr => a >>> b
  | .add => a + b
  | .sub => if b ≤ a then a - b else Config.unstatedDifference a b
  | .div => if b = 0 then Config.unstatedQuotient a b else a / b
  | .mod => if b = 0 then Config.unstatedRemainder a b else a % b
  | .eq => truth (a = b)
  | .ne => truth (a ≠ b)
  | .lt => truth (a < b)
  | .le => truth (a ≤ b)
  | .gt => truth (a > b)
  | .ge => truth (a ≥ b)

/-- `~` (R16): the complement of a 32-bit value. Log entry 8. -/
def complement (n : Nat) : Nat := if n < 2 ^ 32 then 2 ^ 32 - 1 - n else Config.unstatedComplement n

/-- `v[hi:lo]` (R16). -/
def sliceOf (hi lo n : Nat) : Nat :=
  if lo ≤ hi then n >>> lo % 2 ^ (hi + 1 - lo) else Config.unstatedSlice hi lo n

/-- `{a, b}` with `b` of `width` bits (R16). -/
def concatOf (width a b : Nat) : Nat :=
  if b < 2 ^ width then a <<< width ||| b else Config.unstatedConcat width a b

/-- `zext_N(v)` of a value of at most `n` bits (R16). -/
def zextOf (n v : Nat) : Nat := if v < 2 ^ n then v else Config.unstatedZext n v

/-- `sext_N(v)` of a value of `m` bits to `n` bits (R16). -/
def sextOf (m n v : Nat) : Nat :=
  if v < 2 ^ m ∧ m ≤ n then (BitVec.signExtend n (BitVec.ofNat m v)).toNat else Config.unstatedSext m n v

/-- The value of an expression (R16, R90). -/
def Expr.eval (l : List (Nat × Value)) : Expr → Nat
  | .lit n => n
  | .var name =>
    match getLocal name l with
    | some v => v.number
    | none => Config.unboundLocal name
  | .not e => complement (e.eval l)
  | .bin op a b => op.eval (a.eval l) (b.eval l)
  | .slice hi lo e => sliceOf hi lo (e.eval l)
  | .concat width a b => concatOf width (a.eval l) (b.eval l)
  | .zext n e => zextOf n (e.eval l)
  | .sext m n e => sextOf m n (e.eval l)

/-! ### Requests -/

/-- The `w`-bit operand formed from a host-local number (R90). -/
def operand (w n : Nat) : BitVec w :=
  if n < 2 ^ w then BitVec.ofNat w n else BitVec.ofNat w (Config.unstatedOperand w n)

/-- The `k`-th argument of a call. -/
def argument (args : List Nat) (k : Nat) : Nat := args.getD k (Config.missingArgument k)

/-- The typed arguments of a call (R85), from its argument numbers in the order its rule lists them. For
SET_MASKED_BITS they are offset, value and mask; for WRITE the buffer stands apart. An argument beyond those its
rule lists, and a buffer given to a procedure other than WRITE, are ignored: the model's choice, log entry 23. -/
def callArgs (args buffer : List Nat) : ProcArgs :=
  { nat0 := argument args 0, nat1 := argument args 1,
    half0 := operand 16 (argument args 0), half1 := operand 16 (argument args 1),
    byte0 := operand 8 (argument args 0),
    word0 := operand 32 (argument args 1), word1 := operand 32 (argument args 2),
    buffer := buffer.map (operand 8) }

/-- The port word and the result's name of a host step that is a block request (R80, R81, R84, R85, R90): "The
request's encoding is then formed from their values at the time of the step". -/
def HostOp.request (l : List (Nat × Value)) : HostOp → Option (PortWord × Option Nat)
  | .rd reg dst => some (encodeH false reg 0#2 0#32, dst)
  | .wr reg e => some (encodeH true reg 0#2 (operand 32 (e.eval l)), none)
  | .crc8 b0 b1 dst => some (encodeV false (operand 8 (b0.eval l)) (operand 8 (b1.eval l)) 0#8, dst)
  | .crcchk b0 b1 ck dst =>
    some (encodeV true (operand 8 (b0.eval l)) (operand 8 (b1.eval l)) (operand 8 (ck.eval l)), dst)
  | .call pid args buffer dst =>
    some (.p pid (callArgs (args.map (Expr.eval l)) (buffer.map (Expr.eval l))), dst)
  | .port w dst => some (w, dst)
  | .jz _ _ | .jnz _ _ | .j _ | .assign _ _ | .halt => none

/-! ### Pseudo-instructions (R91) -/

/-- A line without a label. -/
def Line.plain (op : HostOp) : Line := { label := none, op := op }

/-- `clrfifo` -/
def clrfifo : List Line := [.plain (.wr .C (.lit 0x00000010))]

/-- `clrstat` -/
def clrstat : List Line := [.plain (.wr .S (.lit 0x00000302))]

/-- `startw` -/
def startw : List Line := [.plain (.wr .C (.lit 0x00008080))]

/-- `startr` -/
def startr : List Line := [.plain (.wr .C (.lit 0x00008091))]

/-- `push b`. R91 gives it for a `b` of 8 bits; that a wider `b` expands to the same write is the model's choice (log
entry 21). -/
def push (b : Expr) : List Line := [.plain (.wr .FIFO (.zext 32 b))]

/-- `pop -> n`, through the host-local name `t` -/
def pop (t n : Nat) : List Line :=
  [.plain (.rd .FIFO (some t)), .plain (.assign n (.bin .and (.var t) (.lit 0xFF)))]

/-- `setlen n`. R91 gives it for `n` from 1 to 0xFFFF; that another `n` expands to the same write is the model's choice
(log entry 21). -/
def setlen (n : Expr) : List Line := [.plain (.wr .DLEN (.zext 32 n))]

/-- `seta a` -/
def seta (a : Expr) : List Line := [.plain (.wr .A (.zext 32 (.bin .and a (.lit 0x7F))))]

/-- `poll -> s`, with its loop at the label `here` -/
def poll (here s : Nat) : List Line :=
  [{ label := some here, op := .rd .S (some s) }, .plain (.jz (.bin .and (.var s) (.lit 0x302)) here)]

end Sys2Proof.Machine
end

