-- ==== Sys2Proof/Machine/Host.lean ====
section
/-! DEFINITION. The host's steps over its program (R22, R90), and the choice of the agent that steps (R9, R10, R70). -/

namespace Sys2Proof.Machine

/-! ### The host's program -/

/-- The label a host step may jump to (R90). -/
def HostOp.target : HostOp → Option Nat
  | .jz _ t | .jnz _ t | .j t => some t
  | _ => none

/-- The position a label marks: that of the first line that bears it. -/
def position (prog : List Line) (label : Nat) : Option Nat := prog.findIdx? fun l => l.label == some label

/-- Whether every jump of the program is to a label of the program (R90). -/
def labelsDefined (prog : List Line) : Bool :=
  prog.all fun l =>
    match l.op.target with
    | none => true
    | some t => prog.any fun m => m.label == some t

/-- The refusal of a port word with no operation (R88, R288). -/
def DecodeError.refusal : DecodeError → Refusal
  | .reservedEncoding => .reservedEncoding
  | .unknownProcedure => .unknownProcedure

/-- `-> name`: bind what the request returned (R90). -/
def State.bindResult (dst : Option Nat) (s : State) : State :=
  match dst, s.result with
  | some n, some v => { s with locals := setLocal n v s.locals }
  | _, _ => s

/-- After a host step of a request: if the request is over, its result is bound and the host goes to the next
line; a procedure that still runs, or a host that has stopped, stays where it is (R22). -/
def endStep (dst : Option Nat) (s : State) : State :=
  if s.running && s.call.isNone then { s.bindResult dst with pos := s.pos + 1 } else s

/-- The step is over: the next one draws anew (R17) and is offered to any agent (R10). -/
def tick (before after : State) : State := { after with draws := before.draws + 1, turn := before.free.turn }

/-- A jump (R90). -/
def State.jump (target : Nat) (s : State) : State :=
  match position s.prog target with
  | some p => { s with pos := p }
  | none => s.refuse .undefinedLabel

/-- A block request by its port word: the decoder's refusal comes first (R82, R293), then the instruction. -/
def requestStep (w : PortWord) (dst : Option Nat) (s : State) : Host.Outcome State Fault Refusal :=
  match decode w with
  | .error e => .next (tick s (s.refuse (DecodeError.refusal e)))
  | .ok i =>
    match exec i s with
    | .next t => .next (tick s (endStep dst t))
    | .fault f => .fault f
    | .refused r => .refused r

/-- A host step that is no request touches no block state (R90). An assignment binds the number its expression has, so
`n = m` binds a number also where `m` is bound to a procedure's result: the model's choice, log entry 24. -/
def localStep (op : HostOp) (s : State) : State :=
  match op with
  | .jz e t => if e.eval s.locals = 0 then s.jump t else { s with pos := s.pos + 1 }
  | .jnz e t => if e.eval s.locals = 0 then { s with pos := s.pos + 1 } else s.jump t
  | .j t => s.jump t
  | .assign n e => { s with locals := setLocal n (.nat (e.eval s.locals)) s.locals, pos := s.pos + 1 }
  | _ => s

/-- The line the host stands at. -/
def State.line (s : State) : Option Line := s.prog[s.pos]?

/-- One host step (R18, R22, R90): "a program with a jump to an undefined label is refused". -/
def hostStep (s : State) : Host.Outcome State Fault Refusal :=
  if labelsDefined s.prog = false then .next (tick s (s.refuse .undefinedLabel))
  else
    match s.line with
    | none => .next s
    | some l =>
      match l.op.request s.locals with
      | some (w, dst) => requestStep w dst s
      | none => .next (tick s (localStep l.op s))

/-! ### The choice of the agent (R10) -/

/-- Whether the program has a step at the host's position: it has not halted (R90) and not run out. -/
def State.hasLine (s : State) : Bool :=
  match s.line with
  | none => false
  | some l => l.op != .halt

/-- Whether an agent has an enabled step (R10, R140, R285); the host's may be the refusal of its program (R90). -/
def enabled (a : Turn) (s : State) : Bool :=
  match a with
  | .host => s.running && (s.hasLine || !labelsDefined s.prog)
  | .phase => phaseEnabled s
  | .commit => commitEnabled s

/-- The agents in the order a step is offered to them, from the one whose turn it is. -/
def offers : Turn → List Turn
  | .host => [.host, .phase, .commit]
  | .phase => [.phase, .commit, .host]
  | .commit => [.commit, .phase, .host]

/-- The agent that takes the step: "any one agent with an enabled step may take it" (R10). -/
def nextAgent (s : State) : Option Turn := (offers s.turn).find? fun a => enabled a s

/-- One step of the whole system (R10, R70). Where no agent has a step the run is over (R340): `fault` or
`refused` for a stopped host, and for a program that has halted the same state again. -/
def systemStep (s : State) : Host.Outcome State Fault Refusal :=
  match nextAgent s with
  | some .host => hostStep s
  | some .phase => .next (tick s (phaseStep s.free s))
  | some .commit => .next (tick s (commitStep s.free s))
  | none => s.stopped

/-- The host's program is the one request `w`, and the host is the next agent. -/
def State.load (w : PortWord) (s : State) : State :=
  { s with prog := [.plain (.port w none)], pos := 0, call := none, turn := .host }

end Sys2Proof.Machine
end

