-- ==== Sys2Proof/Machine/Step.lean ====
section
/-! DEFINITION. One step of the machine, and how one opcode-table word comes to be the machine's next request. -/

namespace Sys2Proof.Machine

/-- One step of the whole system: the host's or the Engine's (R10). -/
def step (s : State) : Host.Outcome State Fault Refusal := systemStep s

/-- The host's program is the one request that the opcode-table word names, and the host steps next: the block
fetches nothing (R3, R73), so this stands for the host's issuing that request. Log entry 9. -/
def State.withFetchWord (s : State) (nbits w : Nat) : State :=
  match tableWord nbits w with
  | some p => s.load p
  | none => s

end Sys2Proof.Machine
end

