-- ==== Sys2Proof/Safety.lean ====
section
/-! DEFINITION. What claims about runs are stated in: the end of a run (R340), admitted runs (R162), an instruction's host steps in a row, the Engine's steps in a row, and the invariants (R47, R155, R226). -/

namespace Sys2Proof.Machine

/-! ### Runs -/

/-- No fault and no refusal is recorded: the Success column of R340. -/
def Safe (s : State) : Prop := s.faults = [] ∧ s.refused = none

/-- How a finite run ends (R340). -/
inductive RunEnd where
  /-- Halted or returned with nothing recorded, with the value returned last (none after a register write). -/
  | success (r : Option Value)
  | fault
  | refused
  deriving DecidableEq, Repr

/-- The program has halted (R90), or the procedure that is its last line has returned: the host stands at no line. -/
def halted (s : State) : Bool := !s.hasLine && labelsDefined s.prog

/-- The outcome of the run that has come to this state, if it has ended (R340). The Engine may still take steps. -/
def outcome (s : State) : Option RunEnd :=
  if s.faults ≠ [] then some .fault
  else if s.refused ≠ none then some .refused
  else if halted s then some (.success s.result)
  else none

/-- The run has ended (R340). -/
def Ended (s : State) : Prop := outcome s ≠ none

/-- No agent has a step. -/
def Quiet (s : State) : Prop := nextAgent s = none

/-- The state with any draws and any agent's turn for its next step (R10, R17). -/
def Rescheduled (s t : State) : Prop := ∃ k a, t = { s with draws := k, turn := a }

/-- A run, continued for ever: each state is the one that the step leaves, or the same state where a stopped machine
has no step left, with any draws and any agent's turn next. -/
def IsRun (r : Nat → State) : Prop :=
  ∀ n, ∃ t, (step (r n) = .next t ∨ (Quiet (r n) ∧ t = r n)) ∧ Rescheduled t (r (n + 1))

/-- Weak fairness (R10, R162): no Engine step stays enabled forever without being taken. -/
def WeaklyFair (r : Nat → State) : Prop :=
  ∀ a, a = .phase ∨ a = .commit → ∀ n, (∀ m, n ≤ m → enabled a (r m) = true) → ∃ m, n ≤ m ∧ nextAgent (r m) = some a

/-- An admitted run of the program that the host has in `s` (R162). -/
def Admitted (s : State) (r : Nat → State) : Prop := Rescheduled s (r 0) ∧ IsRun r ∧ WeaklyFair r

/-- A hang (R339, R340): an admitted infinite run that never ends. -/
def Hang (s : State) (r : Nat → State) : Prop := Admitted s r ∧ ∀ n, ¬ Ended (r n)

/-- "The procedure returns `v`" (R340): every admitted run is Success with result `v`. -/
def Returns (s : State) (v : Result) : Prop :=
  ∀ r, Admitted s r → ∃ n, outcome (r n) = some (.success (some (.result v)))

/-- `n` host steps of one instruction in a row, with no Engine step between them: one of the schedules of R10. -/
def execN : Nat → Instr → State → Host.Outcome State Fault Refusal
  | 0, _, s => .next s
  | n + 1, i, s =>
    match exec i s with
    | .next t => execN n i t
    | .fault f => .fault f
    | .refused r => .refused r

/-- Engine steps in a row, one for each record of draws, each followed by RXC if a byte is staged: the Engine's
part of the eager schedule of 95_test_vectors.md. -/
def engineRun : List Draws → State → State
  | [], s => s
  | d :: ds, s =>
    let s := phaseStep d s
    engineRun ds (if commitEnabled s then commitStep d s else s)

/-- The host may issue register requests: it has not stopped, and the block is mapped (R100). -/
abbrev Ready (s : State) : Prop := s.running = true ∧ s.mapped = true

/-- The host may configure the block: no transfer is active either (R100, R331). -/
abbrev Configurable (s : State) : Prop := Ready s ∧ s.eng = .idle

/-- The last request or procedure returned `r`. -/
abbrev Returned (r : Result) (s : State) : Prop := s.call = none ∧ s.result = some (.result r)

/-! ### The FIFO and the transfer (R47) -/

/-- `len(st.fifo) ≤ FIFO_DEPTH`. -/
abbrev FifoBounded (s : State) : Prop := s.fifo.length ≤ s.cfg.fifoDepth

/-- From start to end of a transfer: the bytes left are at most the length written, and at least one while the
Engine moves; the direction, the target and the enables are those in the registers. -/
abbrev TransferSound (s : State) : Prop :=
  s.eng ≠ .idle →
    s.rem.toNat ≤ s.dlenW.toNat ∧ (s.eng = .addr ∨ s.eng = .data → 0 < s.rem.toNat) ∧
    s.xRead = s.cRead ∧ s.xAddr = s.aAddr ∧ s.cI2cen = true ∧ s.pinsRouted = true

/-! ### The bus trace (R155) -/

/-- Where a transfer's trace stands. -/
inductive BusPhase where
  /-- No transfer is open. -/
  | quiet
  /-- After `Start`. -/
  | opened
  /-- After an acknowledged address or byte, with the direction. -/
  | moving (rw : Bool)
  /-- After a NACK: only `Stop` may follow. -/
  | closing
  /-- After `StretchTimeout`: `Stop`, or nothing more. -/
  | timedOut
  deriving DecidableEq, Repr

/-- The transfer grammar of R155: `Start, AddrByte, (TxByte | RxByte)*, Stop`, possibly cut short by
`StretchTimeout` with or without `Stop`; a NACK is followed at once by `Stop`. -/
def busNext : BusPhase → BusEvent → Option BusPhase
  | .quiet, .start => some .opened
  | .opened, .addrByte _ rw .ack => some (.moving rw)
  | .opened, .addrByte _ _ .nack => some .closing
  | .opened, .stretchTimeout => some .timedOut
  | .moving false, .txByte _ .ack => some (.moving false)
  | .moving false, .txByte _ .nack => some .closing
  | .moving true, .rxByte _ .ack => some (.moving true)
  | .moving true, .rxByte _ .nack => some .closing
  | .moving _, .stretchTimeout => some .timedOut
  | .moving _, .stop => some .quiet
  | .closing, .stop => some .quiet
  | .timedOut, .stop => some .quiet
  | _, _ => none

/-- Where a trace stands, or none if it leaves the grammar. -/
def busPhase (trace : List BusEvent) : Option BusPhase :=
  trace.foldl (fun p e => p.bind fun p => busNext p e) (some .quiet)

/-- The trace keeps to the grammar, and stands where the Engine's phase says. -/
def TraceSound (s : State) : Prop :=
  match s.eng with
  | .idle | .addr => busPhase s.trace = some .quiet
  | .data => busPhase s.trace = some (.moving s.xRead)
  | .stalled => ∃ p, busPhase s.trace = some p ∧ p ≠ .quiet ∧ p ≠ .closing

/-! ### The procedure that runs (R22, R44) -/

/-- The procedures that run transactions: WRITE, READ and the command frames (R211, R215, R262 to R269). -/
def isTransaction : Instr → Bool
  | .write _ _ | .read _ | .cmdNoArg _ | .cmdReadWord _ | .cmdWriteWord _ _ | .readMeasurement | .dataReady
  | .setMeasurementInterval _ => true
  | _ => false

/-- The direction a position belongs to. -/
def TxnPos.dir : TxnPos → Dir
  | .wClear | .wPush _ | .wLen | .wStat | .wStart | .wPoll => .write
  | .rLen | .rStat | .rStart | .rLoop | .rTake | .rDrain | .rDrainTake => .read

/-- The instructions whose transient state a call may be (R44, R262 to R269). -/
def owns : Instr → Call → Bool
  | .write _ _, .txn t => t.dir == .write
  | .read _, .txn t => t.dir == .read
  | .cmdNoArg _, .txn t => t.dir == .write
  | .cmdWriteWord _ _, .txn t => t.dir == .write
  | .setMeasurementInterval _, .txn t => t.dir == .write
  | .cmdReadWord _, .txn _ => true
  | .readMeasurement, .txn _ => true
  | .dataReady, .txn _ => true
  | .setMaskedBits _ _ _, .masked _ => true
  | _, _ => false

/-- The instruction the host stands at, if its line is a request with an operation. -/
def currentInstr (s : State) : Option Instr :=
  match s.line with
  | none => none
  | some l =>
    match l.op.request s.locals with
    | none => none
    | some (w, _) =>
      match decode w with
      | .ok i => some i
      | .error _ => none

/-- While a procedure runs, the host stands at the request that called it, and a transaction stands at a position
of its own direction. -/
def CallOwned (s : State) : Prop :=
  ∀ c, s.call = some c →
    (∃ i, currentInstr s = some i ∧ owns i c = true) ∧ ∀ t, c = .txn t → t.pos.dir = t.dir

/-- The bytes a transfer may still bring. -/
def bytesToCome (s : State) : Nat :=
  match s.eng with
  | .addr | .data => s.rem.toNat
  | .idle | .stalled => 0

/-- The bytes received and not yet taken. -/
def bytesWaiting (s : State) : Nat := s.fifo.length + (if s.rxStage = none then 0 else 1)

/-- The FIFO has room for the staged byte, as R150 says of every state in which RXB has filled the stage. -/
abbrev StageFits (s : State) : Prop := s.rxStage ≠ none → s.fifo.length < s.cfg.fifoDepth

/-- The bookkeeping of a READ at its position (R215, R216, R217, R219, R226 (a)). -/
def ReadSound (t : Txn) (s : State) : Prop :=
  t.count = t.buffer.length ∧ 0 < t.length ∧ t.length ≤ 0xFFFF ∧
  match t.pos with
  | .rLen => t.count = 0
  | .rStat | .rStart => t.count = 0 ∧ s.dlenW.toNat = t.length
  | .rLoop | .rDrain =>
    t.count + bytesWaiting s + bytesToCome s ≤ t.length ∧ (s.eng = .idle ∨ s.xRead = true) ∧ StageFits s
  | .rTake | .rDrainTake =>
    t.count + bytesWaiting s + bytesToCome s ≤ t.length ∧ (s.eng = .idle ∨ s.xRead = true) ∧ StageFits s ∧ s.fifo ≠ []
  | _ => False

/-- No READ has overflowed its buffer, and the one that runs is on the way not to (R226 (a)). -/
def NoOverflow (s : State) : Prop :=
  CallOwned s ∧ (∀ c l, Fault.bufferOverflow c l ∉ s.faults) ∧
  ∀ t, s.call = some (.txn t) → t.dir = .read → ReadSound t s

/-- The bytes received since the last `Start`, in their order on the wire (R63). -/
def receivedBytes (trace : List BusEvent) : List Byte :=
  trace.foldl
    (fun acc e =>
      match e with
      | .start => []
      | .rxByte b _ => acc ++ [b]
      | _ => acc) []

/-- The bytes a READ has received at its position: those taken, then those in the FIFO, then the staged one. -/
def readBytes (t : Txn) (s : State) : List Byte := t.buffer ++ s.fifo ++ s.rxStage.toList

/-- The READ that runs holds the bytes of its transfer in their order on the wire, none lost, none twice
(R63, R220, R226 (c)). -/
def ReadTracked (s : State) : Prop :=
  ∀ t, s.call = some (.txn t) → t.dir = .read →
    match t.pos with
    | .rLoop | .rTake | .rDrain | .rDrainTake =>
      readBytes t s = if s.eng = .addr then [] else receivedBytes s.trace
    | _ => t.buffer = []

/-- The events of a WRITE's transfer after `k` acknowledged bytes (R143, R146). -/
def writeEvents (a : Addr7) (bytes : List Byte) : List BusEvent :=
  [.start, .addrByte a false .ack] ++ bytes.map fun b => .txByte b .ack

/-- The bookkeeping of a WRITE at its position (R211, R212, R226 (b)). -/
def WriteSound (t : Txn) (s : State) : Prop :=
  0 < t.length ∧ t.length ≤ s.cfg.fifoDepth ∧ t.length ≤ t.buffer.length ∧ t.length ≤ 0xFFFF ∧
  match t.pos with
  | .wClear => True
  | .wPush i => i < t.length ∧ s.eng = .idle ∧ s.rxStage = none ∧ s.fifo = t.buffer.take i
  | .wLen => s.eng = .idle ∧ s.rxStage = none ∧ s.fifo = t.buffer.take t.length
  | .wStat =>
    s.eng = .idle ∧ s.rxStage = none ∧ s.fifo = t.buffer.take t.length ∧ s.dlenW.toNat = t.length
  | .wStart =>
    s.eng = .idle ∧ s.rxStage = none ∧ s.fifo = t.buffer.take t.length ∧ s.dlenW.toNat = t.length ∧
    s.done = false ∧ s.err = false ∧ s.clkt = false
  | .wPoll =>
    s.rxStage = none ∧
    match s.eng with
    | .addr =>
      s.done = false ∧ s.err = false ∧ s.clkt = false ∧ s.xRead = false ∧
      s.fifo = t.buffer.take t.length ∧ s.rem.toNat = t.length
    | .data =>
      s.done = false ∧ s.err = false ∧ s.clkt = false ∧ s.xRead = false ∧
      ∃ k, k < t.length ∧ s.fifo = (t.buffer.take t.length).drop k ∧ s.rem.toNat + k = t.length ∧
        writeEvents s.xAddr (t.buffer.take k) <:+ s.trace
    | .idle =>
      s.err = true ∨ s.clkt = true ∨
        writeEvents s.xAddr (t.buffer.take t.length) ++ [.stop] <:+ s.trace
    | .stalled => s.done = false
  | _ => False

/-- The WRITE that runs is sound at its position (R226 (b)), and a full FIFO's length fits DLEN. -/
def WriteTracked (s : State) : Prop :=
  CallOwned s ∧ s.cfg.fifoDepth ≤ 0xFFFF ∧ ∀ t, s.call = some (.txn t) → t.dir = .write → WriteSound t s

end Sys2Proof.Machine
end

