-- ==== Sys2Proof/Certificates/Slice0/Obligations.lean ====
section
/-! DEFINITION. The statements for the provers. Each docstring names the rules it formalises. -/

open Sys2Proof Sys2Proof.Machine

/-! ### Encoding -/

/-- R81, R82, R84, R85: the decoder reads back every encoded instruction, with every operand. -/
def Obligations.DecodeOfEncodeIsIdentity : Prop :=
  ∀ i : Instr, decode (encode i) = .ok i

/-- R82, R84: a port word that decodes is the encoding of what it decodes to, so no two H or V words, and no two
procedure ids, share an instruction. -/
def Obligations.EncodeOfDecodeIsIdentity : Prop :=
  (∀ (w : BitVec 38) (i : Instr), decode (.h w) = .ok i → encode i = .h w) ∧
  (∀ (w : BitVec 25) (i : Instr), decode (.v w) = .ok i → encode i = .v w) ∧
  (∀ (pid : BitVec 5) (args : ProcArgs) (i : Instr), decode (.p pid args) = .ok i → ∃ a, encode i = .p pid a)

/-- R88: the words the decoder refuses are exactly the H reads with data, the V computes with a check byte, and
the calls of an unassigned procedure. -/
def Obligations.DecoderRefusesExactlyTheReserved : Prop :=
  (∀ w : BitVec 38, decode (.h w) = .error .reservedEncoding ↔
    w.getLsbD 37 = false ∧ w.extractLsb' 0 32 ≠ 0#32) ∧
  (∀ w : BitVec 25, decode (.v w) = .error .reservedEncoding ↔
    w.getLsbD 24 = false ∧ w.extractLsb' 0 8 ≠ 0#8) ∧
  (∀ (pid : BitVec 5) (args : ProcArgs), decode (.p pid args) = .error .unknownProcedure ↔
    pid.toNat = 0x0E ∨ pid.toNat = 0x0F ∨ 0x16 ≤ pid.toNat) ∧
  (∀ w : BitVec 38, decode (.h w) ≠ .error .unknownProcedure) ∧
  (∀ w : BitVec 25, decode (.v w) ≠ .error .unknownProcedure) ∧
  (∀ (pid : BitVec 5) (args : ProcArgs), decode (.p pid args) ≠ .error .reservedEncoding)

/-- Words of 95_test_vectors.md section 4, one or more of each format. -/
def Obligations.SpecWordsDecode : Prop :=
  decode (.h 0x0400000000#38) = .ok (.rdS 0#2) ∧
  decode (.h 0x2000008080#38) = .ok (.wrC 0#2 0x8080#32) ∧
  decode (.h 0x2C00000061#38) = .ok (.wrA 0#2 0x61#32) ∧
  decode (.h 0x0600000000#38) = .ok (.rdS 2#2) ∧
  decode (.h 0x0400000001#38) = .error .reservedEncoding ∧
  decode (.v 0x0BEEF00#25) = .ok (.crc8 0xBE#8 0xEF#8) ∧
  decode (.v 0x1BEEF92#25) = .ok (.crcchk 0xBE#8 0xEF#8 0x92#8) ∧
  decode (.p 0x0A#5 { ProcArgs.zero with nat0 := 18 }) = .ok (.read 18) ∧
  decode (.p 0x0E#5 ProcArgs.zero) = .error .unknownProcedure

/-! ### The step -/

/-- R81, R84, R85, R90: a host step at a request runs the decoded instruction; what the step adds is `endStep` (the
result is bound and the host moves on, once the call is over) and `tick` (the next draws and the next agent). Which
instruction the request of each line is: the operation that R90 names, of the values of its operands where these fit
their widths. -/
def Obligations.StepRunsTheDecodedRequest : Prop :=
  (∀ (s t : State) (l : Line) (w : PortWord) (dst : Option Nat) (i : Instr),
    nextAgent s = some .host → s.line = some l → labelsDefined s.prog = true →
    l.op.request s.locals = some (w, dst) → decode w = .ok i → exec i s = .next t →
    step s = .next (tick s (endStep dst t)) ∧
    (t.running = true → t.call = none →
      (tick s (endStep dst t)).pos = t.pos + 1 ∧
      ∀ n v, dst = some n → t.result = some v → (tick s (endStep dst t)).locals = setLocal n v t.locals) ∧
    (t.running = false ∨ t.call ≠ none → endStep dst t = t)) ∧
  ∀ (locals : List (Nat × Value)) (dst : Option Nat),
    let forms (op : HostOp) (name : Option Nat) (i : Instr) : Prop :=
      ∃ w, op.request locals = some (w, name) ∧ decode w = .ok i
    (∀ reg, forms (.rd reg dst) dst (readInstr reg 0#2)) ∧
    (∀ reg e, e.eval locals < 2 ^ 32 → forms (.wr reg e) none (writeInstr reg 0#2 (BitVec.ofNat 32 (e.eval locals)))) ∧
    (∀ e0 e1, e0.eval locals < 2 ^ 8 → e1.eval locals < 2 ^ 8 →
      let b0 : Byte := BitVec.ofNat 8 (e0.eval locals)
      let b1 : Byte := BitVec.ofNat 8 (e1.eval locals)
      forms (.crc8 e0 e1 dst) dst (.crc8 b0 b1) ∧
      ∀ e, e.eval locals < 2 ^ 8 → forms (.crcchk e0 e1 e dst) dst (.crcchk b0 b1 (BitVec.ofNat 8 (e.eval locals)))) ∧
    (forms (.call 0x01#5 [] [] dst) dst .deinit ∧ forms (.call 0x03#5 [] [] dst) dst .getSclFrequency ∧
      forms (.call 0x04#5 [] [] dst) dst .getCdiv ∧ forms (.call 0x06#5 [] [] dst) dst .getClockTimeout ∧
      forms (.call 0x08#5 [] [] dst) dst .getSlaveAddress ∧ forms (.call 0x0D#5 [] [] dst) dst .unmap ∧
      forms (.call 0x13#5 [] [] dst) dst .readMeasurement ∧ forms (.call 0x14#5 [] [] dst) dst .dataReady) ∧
    (∀ e, let n := e.eval locals
      forms (.call 0x02#5 [e] [] dst) dst (.setClockFrequency n) ∧ forms (.call 0x0A#5 [e] [] dst) dst (.read n) ∧
      forms (.call 0x15#5 [e] [] dst) dst (.setMeasurementInterval n) ∧
      (n < 2 ^ 8 → forms (.call 0x07#5 [e] [] dst) dst (.setSlaveAddress (BitVec.ofNat 8 n))) ∧
      (n < 2 ^ 16 → forms (.call 0x05#5 [e] [] dst) dst (.setClockTimeout (BitVec.ofNat 16 n)) ∧
        forms (.call 0x10#5 [e] [] dst) dst (.cmdNoArg (BitVec.ofNat 16 n)) ∧
        forms (.call 0x11#5 [e] [] dst) dst (.cmdReadWord (BitVec.ofNat 16 n))) ∧
      ∀ es, (∀ b, b ∈ es → b.eval locals < 2 ^ 8) →
        forms (.call 0x09#5 [e] es dst) dst (.write (es.map fun b => BitVec.ofNat 8 (b.eval locals)) n)) ∧
    (∀ e0 e1, let n0 := e0.eval locals
      let n1 := e1.eval locals
      forms (.call 0x00#5 [e0, e1] [] dst) dst (.init n0 n1) ∧ forms (.call 0x0C#5 [e0, e1] [] dst) dst (.map n0 n1) ∧
      (n0 < 2 ^ 16 → n1 < 2 ^ 16 →
        forms (.call 0x12#5 [e0, e1] [] dst) dst (.cmdWriteWord (BitVec.ofNat 16 n0) (BitVec.ofNat 16 n1))) ∧
      ∀ e2, n1 < 2 ^ 32 → e2.eval locals < 2 ^ 32 → forms (.call 0x0B#5 [e0, e1, e2] [] dst) dst
        (.setMaskedBits n0 (BitVec.ofNat 32 n1) (BitVec.ofNat 32 (e2.eval locals))))

/-- An opcode-table word placed by `withFetchWord` is what the next step runs. How a word is placed is the model's choice
(log entry 9), since the block fetches nothing (R3, R73): it is the program's one line, at position 0, with no call open
and the host next, and a P row's arguments, which the table does not give, are zeros. -/
def Obligations.TableWordRunsNext : Prop :=
  ∀ (s t : State) (nbits w : Nat) (i : Instr), s.running = true → decodeTableWord nbits w = some i →
    exec i { s with prog := (s.withFetchWord nbits w).prog, pos := 0, call := none, turn := .host } = .next t →
    step (s.withFetchWord nbits w) = .next (tick (s.withFetchWord nbits w) (endStep none t))

/-- R10, R38, R140, R150: which agent is enabled, and an enabled agent gets the step. The model's choices: the step goes
to the agent whose turn it is if that one is enabled (log entry 3); RXC, for R150 enabled in any phase, is not enabled in
Stalled, for R38 and R140 a phase without a step (log entry 22); where no agent is enabled and nothing is recorded,
the state stays (log entry 12). -/
def Obligations.EnabledAgentsStep : Prop :=
  ∀ s : State,
    (enabled .phase s = true ↔
      s.eng = .addr ∨ (s.eng = .data ∧ s.xRead = false ∧ s.fifo.length > 0) ∨
      (s.eng = .data ∧ s.xRead = true ∧ s.rxStage = none ∧ s.fifo.length < s.cfg.fifoDepth)) ∧
    (enabled .commit s = true ↔ (∃ v, s.rxStage = some v) ∧ s.eng ≠ .stalled) ∧
    (∀ a, nextAgent s = some a → enabled a s = true) ∧
    (enabled s.turn s = true → nextAgent s = some s.turn) ∧
    (nextAgent s = none ↔ ∀ a, enabled a s = false) ∧
    (nextAgent s = some .phase → step s = .next (tick s (phaseStep s.free s))) ∧
    (nextAgent s = some .commit → step s = .next (tick s (commitStep s.free s))) ∧
    (Quiet s → Safe s → step s = .next s)

/-- R88, R90, R288: the host steps that are no block request touch no block state; a port word with no operation
is refused before any check of the state; a program with a jump to an undefined label is refused. That the refusal
comes at the host's next step, whichever line it stands at, is the model's reading (log entry 17); so is the position
that a label marks, that of the first line that bears it (log entry 10). That an assignment binds a number, whatever
its expression reads, is the model's choice (log entry 24). -/
def Obligations.HostStepsAndRefusals : Prop :=
  (∀ s : State, nextAgent s = some .host → labelsDefined s.prog = false →
    step s = .next (tick s { s with refused := some .undefinedLabel })) ∧
  ∀ (s : State) (l : Line), nextAgent s = some .host → s.line = some l → labelsDefined s.prog = true →
    (∀ w dst, l.op.request s.locals = some (w, dst) →
      (decode w = .error .reservedEncoding →
        step s = .next (tick s { s with refused := some .reservedEncoding })) ∧
      (decode w = .error .unknownProcedure →
        step s = .next (tick s { s with refused := some .unknownProcedure }))) ∧
    (∀ e target p, l.op = .jz e target → position s.prog target = some p →
      step s = .next (tick s { s with pos := if e.eval s.locals = 0 then p else s.pos + 1 })) ∧
    (∀ e target p, l.op = .jnz e target → position s.prog target = some p →
      step s = .next (tick s { s with pos := if e.eval s.locals = 0 then s.pos + 1 else p })) ∧
    (∀ target p, l.op = .j target → position s.prog target = some p →
      step s = .next (tick s { s with pos := p })) ∧
    (∀ n e, l.op = .assign n e →
      step s = .next (tick s { s with
        locals := setLocal n (.nat (e.eval s.locals)) s.locals, pos := s.pos + 1 }))

/-- R42, R285, R288, R340: the fault set and the refusal mark are never cleared; a run has ended exactly where the host
has no step, and no later step changes its outcome. What `exec` answers on a stopped host is the model's choice (log
entry 11): the stop that is recorded, a fault before a refusal, the first fault of the list. -/
def Obligations.StopsAreSticky : Prop :=
  (∀ s t : State, step s = .next t →
    (∀ f, f ∈ s.faults → f ∈ t.faults) ∧ (∀ r, s.refused = some r → t.refused = some r) ∧
    ∀ e, outcome s = some e → outcome t = some e) ∧
  (∀ s : State, Ended s ↔ enabled .host s = false) ∧
  ∀ (i : Instr) (s : State),
    (∀ f fs, s.faults = f :: fs → exec i s = .fault f) ∧
    (∀ r, s.faults = [] → s.refused = some r → exec i s = .refused r) ∧
    (s.running = false → nextAgent s ≠ some .host)

/-! ### Reset -/

/-- R48, R321: the value of every piece of state after the reset event, for every value of the parameters; S
reads 0x050 in its defined bits. -/
def Obligations.ResetValues : Prop :=
  ∀ cfg : Params,
    let s := State.resetWith cfg
    s.cI2cen = false ∧ s.cIntr = false ∧ s.cIntt = false ∧ s.cIntd = false ∧ s.cRead = false ∧
    s.done = false ∧ s.err = false ∧ s.clkt = false ∧
    s.dlenW = 0#16 ∧ s.aAddr = 0#7 ∧ s.cdiv = 0x05DC#16 ∧ s.tout = 0x0040#16 ∧
    s.fedl = 0x0030#16 ∧ s.redl = 0x0030#16 ∧ s.fifo = [] ∧ s.rxStage = none ∧
    s.eng = .idle ∧ s.rem = 0#16 ∧ s.xRead = false ∧ s.xAddr = 0#7 ∧ s.mapped = false ∧
    s.faults = [] ∧ s.refused = none ∧ s.trace = [] ∧ s.pinsRouted = cfg.pinsRoutedAtReset ∧
    ∀ d : Draws, 0 < cfg.fifoDepth → (readS d s).extractLsb' 0 10 = 0x050#10

/-! ### Register requests -/

/-- R100: the checks that come before a register operation, in their order, and the masks of the reserved bits. For a
stopped host R100 says that it has no step; that `exec` then answers the recorded stop, the first fault or else the
refusal, is the model's choice (log entry 11). -/
def Obligations.RequestChecksInOrder : Prop :=
  (Reg.C.reservedMask = 0xFFFF784E#32 ∧ Reg.S.reservedMask = 0xFFFFFC00#32 ∧ Reg.DLEN.reservedMask = 0xFFFF0000#32 ∧
    Reg.A.reservedMask = 0xFFFFFF80#32 ∧ Reg.FIFO.reservedMask = 0xFFFFFF00#32 ∧ Reg.DIV.reservedMask = 0xFFFF0000#32 ∧
    Reg.DEL.reservedMask = 0x00000000#32 ∧ Reg.CLKT.reservedMask = 0xFFFF0000#32) ∧
  ∀ (r : Reg) (lo : BitVec 2) (data : Word) (s : State),
    let off := r.offset + lo.toNat
    (s.running = false → exec (readInstr r lo) s = s.stopped ∧ exec (writeInstr r lo data) s = s.stopped) ∧
    (s.running = true → s.mapped = false →
      exec (readInstr r lo) s = .next { s with faults := [.notInitialized off] } ∧
      exec (writeInstr r lo data) s = .next { s with faults := [.notInitialized off] }) ∧
    (Ready s → off > 0x1C →
      exec (readInstr r lo) s = .next { s with faults := [.outOfBounds off] } ∧
      exec (writeInstr r lo data) s = .next { s with faults := [.outOfBounds off] }) ∧
    (Ready s → off ≤ 0x1C → off % 4 ≠ 0 →
      exec (readInstr r lo) s = .next { s with faults := [.misaligned off] } ∧
      exec (writeInstr r lo data) s = .next { s with faults := [.misaligned off] }) ∧
    (Ready s → lo = 0#2 → data &&& r.reservedMask ≠ 0#32 →
      exec (writeInstr r lo data) s = .next { s with refused := some .reservedBits }) ∧
    (Ready s → lo = 0#2 → data &&& r.reservedMask = 0#32 → r ≠ .S → r ≠ .FIFO → s.eng ≠ .idle →
      exec (writeInstr r lo data) s = .next { s with faults := [.configWhileActive off data] })

/-- R24, R101: a read of C. Nothing but the result changes; ST and CLEAR read 0. -/
def Obligations.ReadControlReturnsStoredBits : Prop :=
  ∀ s : State, Ready s → ∃ v : Word,
    exec (.rdC 0#2) s = .next { s with result := some (.nat v.toNat) } ∧
    v.getLsbD 15 = s.cI2cen ∧ v.getLsbD 10 = s.cIntr ∧ v.getLsbD 9 = s.cIntt ∧ v.getLsbD 8 = s.cIntd ∧
    v.getLsbD 7 = false ∧ v.extractLsb' 4 2 = 0#2 ∧ v.getLsbD 0 = s.cRead

/-- R25, R26, R104: a read of S is one snapshot of every field, and clears nothing. -/
def Obligations.ReadStatusIsOneSnapshot : Prop :=
  ∀ s : State, Ready s → ∃ (v : Word) (rxr txw : Bool),
    exec (.rdS 0#2) s = .next { s with result := some (.nat v.toNat) } ∧
    v.getLsbD 9 = s.clkt ∧ v.getLsbD 8 = s.err ∧
    v.getLsbD 7 = decide (s.fifo.length = s.cfg.fifoDepth) ∧ v.getLsbD 6 = decide (s.fifo.length = 0) ∧
    v.getLsbD 5 = decide (s.fifo.length > 0) ∧ v.getLsbD 4 = decide (s.fifo.length < s.cfg.fifoDepth) ∧
    v.getLsbD 3 = (decide (s.eng ≠ .idle) && s.xRead && rxr) ∧
    v.getLsbD 2 = (decide (s.eng ≠ .idle) && !s.xRead && txw) ∧
    v.getLsbD 1 = s.done ∧ v.getLsbD 0 = decide (s.eng ≠ .idle)

/-- R28, R107: DLEN reads the remaining count while a transfer is active or DONE is set, else the last value
written. -/
def Obligations.ReadLengthIsRemainingOrWritten : Prop :=
  ∀ s : State, Ready s → ∃ v : Word,
    exec (.rdDlen 0#2) s = .next { s with result := some (.nat v.toNat) } ∧
    (s.eng ≠ .idle ∨ s.done = true → v.extractLsb' 0 16 = s.rem) ∧
    (s.eng = .idle → s.done = false → v.extractLsb' 0 16 = s.dlenW)

/-- R109, R113, R115, R117 with R33: reads of A, DIV, DEL and CLKT. -/
def Obligations.ReadConfigurationRegisters : Prop :=
  ∀ s : State, Ready s →
    (∃ v : Word, exec (.rdA 0#2) s = .next { s with result := some (.nat v.toNat) } ∧
      v.extractLsb' 0 7 = s.aAddr) ∧
    (∃ v : Word, exec (.rdDiv 0#2) s = .next { s with result := some (.nat v.toNat) } ∧
      (s.cfg.cdivReadback = .asWritten → v.extractLsb' 0 16 = s.cdiv) ∧
      (s.cfg.cdivReadback = .bit0Cleared → v.extractLsb' 0 16 = s.cdiv &&& 0xFFFE#16)) ∧
    (∃ v : Word, exec (.rdDel 0#2) s = .next { s with result := some (.nat v.toNat) } ∧
      v.extractLsb' 16 16 = s.fedl ∧ v.extractLsb' 0 16 = s.redl) ∧
    (∃ v : Word, exec (.rdClkt 0#2) s = .next { s with result := some (.nat v.toNat) } ∧
      v.extractLsb' 0 16 = s.tout)

/-- R111: a read of FIFO pops the oldest byte; an empty FIFO stays empty and the read gives some value; against the
direction of an active write transfer it is FifoDirection. -/
def Obligations.PopFifo : Prop :=
  ∀ s : State, Ready s →
    (s.eng ≠ .idle → s.xRead = false →
      exec (.rdFifo 0#2) s = .next { s with faults := [.fifoDirection 0x10 false] }) ∧
    (s.eng = .idle ∨ s.xRead = true →
      (s.fifo = [] → ∃ v : Word, exec (.rdFifo 0#2) s = .next { s with result := some (.nat v.toNat) }) ∧
      (∀ b rest, s.fifo = b :: rest → ∃ v : Word,
        exec (.rdFifo 0#2) s = .next { s with fifo := rest, result := some (.nat v.toNat) } ∧
        v.extractLsb' 0 8 = b))

/-- R112: a write of FIFO appends the byte; a write to a full FIFO is ignored; against the direction of an
active read transfer it is FifoDirection. -/
def Obligations.PushFifo : Prop :=
  ∀ (s : State) (data : Word), Ready s → data &&& 0xFFFFFF00#32 = 0#32 →
    (s.eng ≠ .idle → s.xRead = true →
      exec (.wrFifo 0#2 data) s = .next { s with faults := [.fifoDirection 0x10 true] }) ∧
    (s.eng = .idle ∨ s.xRead = false →
      (s.fifo.length = s.cfg.fifoDepth → exec (.wrFifo 0#2 data) s = .next { s with result := none }) ∧
      (s.fifo.length ≠ s.cfg.fifoDepth →
        exec (.wrFifo 0#2 data) s = .next { s with fifo := s.fifo ++ [data.setWidth 8], result := none }))

/-- R106: a write of S clears the flags written with 1, in any phase of a transfer, and nothing else. -/
def Obligations.WriteStatusClearsFlags : Prop :=
  ∀ (s : State) (data : Word), Ready s → data &&& 0xFFFFFC00#32 = 0#32 →
    exec (.wrS 0#2 data) s = .next { s with
      clkt := if data.getLsbD 9 then false else s.clkt
      err := if data.getLsbD 8 then false else s.err
      done := if data.getLsbD 1 then false else s.done
      result := none }

/-- R108, R110, R114, R116, R118: writes of DLEN, A, DIV, DEL and CLKT store their fields, and nothing else. -/
def Obligations.WriteConfigurationRegisters : Prop :=
  ∀ (s : State) (data : Word), Configurable s →
    (data &&& 0xFFFF0000#32 = 0#32 →
      exec (.wrDlen 0#2 data) s = .next { s with dlenW := data.setWidth 16, result := none } ∧
      exec (.wrDiv 0#2 data) s = .next { s with cdiv := data.setWidth 16, result := none } ∧
      exec (.wrClkt 0#2 data) s = .next { s with tout := data.setWidth 16, result := none }) ∧
    (data &&& 0xFFFFFF80#32 = 0#32 →
      exec (.wrA 0#2 data) s = .next { s with aAddr := data.setWidth 7, result := none }) ∧
    exec (.wrDel 0#2 data) s =
      .next { s with fedl := (data >>> 16).setWidth 16, redl := data.setWidth 16, result := none }

/-- R102, R103, R105, R141: a write of C stores its bits, then clears the FIFO if CLEAR is not 0, then starts a
transfer if ST is 1. -/
def Obligations.WriteControlStoresClearsStarts : Prop :=
  ∀ (s : State) (data : Word), Configurable s → data &&& 0xFFFF784E#32 = 0#32 →
    let stored : State := { s with
      cI2cen := data.getLsbD 15, cIntr := data.getLsbD 10, cIntt := data.getLsbD 9
      cIntd := data.getLsbD 8, cRead := data.getLsbD 0
      fifo := if data &&& 0x30#32 = 0#32 then s.fifo else []
      rxStage := if data &&& 0x30#32 = 0#32 then s.rxStage else none }
    (data.getLsbD 7 = false → exec (.wrC 0#2 data) s = .next { stored with result := none }) ∧
    (data.getLsbD 7 = true → data.getLsbD 15 = true → s.dlenW ≠ 0#16 → s.pinsRouted = true →
      exec (.wrC 0#2 data) s = .next { stored with
        xRead := data.getLsbD 0, xAddr := s.aAddr, rem := s.dlenW, eng := .addr, result := none })

/-- R142: the checks of a start, in their order; the C bits of the same write stay stored (R102, R105). -/
def Obligations.StartChecksInOrder : Prop :=
  ∀ (s : State) (data : Word), Configurable s → data &&& 0xFFFF784E#32 = 0#32 → data.getLsbD 7 = true →
    let stored : State := { s with
      cI2cen := data.getLsbD 15, cIntr := data.getLsbD 10, cIntt := data.getLsbD 9
      cIntd := data.getLsbD 8, cRead := data.getLsbD 0
      fifo := if data &&& 0x30#32 = 0#32 then s.fifo else []
      rxStage := if data &&& 0x30#32 = 0#32 then s.rxStage else none }
    (data.getLsbD 15 = false →
      exec (.wrC 0#2 data) s = .next { stored with faults := [.startWhileDisabled data] }) ∧
    (data.getLsbD 15 = true → s.dlenW = 0#16 →
      exec (.wrC 0#2 data) s = .next { stored with faults := [.zeroLengthStart] }) ∧
    (data.getLsbD 15 = true → s.dlenW ≠ 0#16 → s.pinsRouted = false →
      exec (.wrC 0#2 data) s = .next { stored with faults := [.busNotRouted] })

/-! ### The CRC unit -/

/-- R242, R243: both CRC requests complete with no register access, in any state of the block, and change
nothing but the result; the vendor's check value and two of the spec's examples. -/
def Obligations.CrcRequestsComplete : Prop :=
  (∀ (s : State) (b0 b1 ck : Byte), s.running = true →
    exec (.crc8 b0 b1) s = .next { s with result := some (.nat (crc8 b0 b1).toNat) } ∧
    (crc8 b0 b1 = ck → exec (.crcchk b0 b1 ck) s = .next { s with result := some (.nat 1) }) ∧
    (crc8 b0 b1 ≠ ck → exec (.crcchk b0 b1 ck) s = .next { s with result := some (.nat 0) })) ∧
  crc8 0xBE#8 0xEF#8 = 0x92#8 ∧ crc8 0x00#8 0x00#8 = 0x81#8 ∧ crc8 0x00#8 0x01#8 = 0xB0#8

/-- R246: flipping any one bit of a word changes its CRC, and a flip of one bit of the CRC byte is caught by
CRCCHK. -/
def Obligations.SingleBitFlipIsDetected : Prop :=
  (∀ (w : Half) (i : Nat), i < 16 →
    let w' := w ^^^ BitVec.twoPow 16 i
    crc8 (w'.extractLsb' 8 8) (w'.extractLsb' 0 8) ≠ crc8 (w.extractLsb' 8 8) (w.extractLsb' 0 8)) ∧
  ∀ (s : State) (b0 b1 ck : Byte) (i : Nat), s.running = true → crc8 b0 b1 = ck → i < 8 →
    exec (.crcchk b0 b1 (ck ^^^ BitVec.twoPow 8 i)) s = .next { s with result := some (.nat 0) }

/-- R244, R245: a frame of `n` groups is validated group by group, and any mismatch fails the whole frame. -/
def Obligations.FrameValidation : Prop :=
  ∀ (r : List Byte) (n : Nat),
    (r.length ≠ 3 * n → validate r n = .error .shortRead) ∧
    (r.length = 3 * n →
      ((∃ i, i < n ∧ crc8 (r.getD (3 * i) 0#8) (r.getD (3 * i + 1) 0#8) ≠ r.getD (3 * i + 2) 0#8) →
        validate r n = .error .crcError) ∧
      ((∀ i, i < n → crc8 (r.getD (3 * i) 0#8) (r.getD (3 * i + 1) 0#8) = r.getD (3 * i + 2) 0#8) →
        ∃ ws : List Half, validate r n = .ok ws ∧ ws.length = n ∧
          ∀ i, i < n → ws.getD i 0#16 = r.getD (3 * i) 0#8 ++ r.getD (3 * i + 1) 0#8))

/-! ### Mapping and configuration procedures -/

/-- R180, R181, R182, R183, R324: MAP and INIT fail when already mapped, and otherwise do as the platform's draw
says; INIT also routes the two lines; UNMAP and DEINIT invalidate the mapping once, and a second time is DoubleUnmap.
No block register changes. The model's choices (log entry 13): the mapping is kept as the record of R40, which is also
MAP's handle, with a drawn pointer; the length is not checked; all of INIT is one host step. -/
def Obligations.MappingProcedures : Prop :=
  ∀ (s : State) (base length : Nat), s.running = true →
    let m : Mapping := { base := base, length := length, pointer := s.free.mapPointer }
    let failed : State := { s with call := none, result := some (.result (.err .mapFailed)) }
    let unmapped : State := { s with mapping := none, call := none, result := some (.result (.ok .unit)) }
    (s.mapped = true →
      exec (.map base length) s = .next failed ∧ exec (.init base length) s = .next failed ∧
      exec .unmap s = .next unmapped ∧ exec .deinit s = .next unmapped) ∧
    (s.mapped = false →
      exec (.map base length) s = .next (if s.free.mapGranted then
          { s with mapping := some m, call := none, result := some (.result (.ok (.handle m))) } else failed) ∧
      exec (.init base length) s = .next (if s.free.mapGranted then
          { s with mapping := some m, pinsRouted := true, call := none, result := some (.result (.ok .unit)) }
        else failed) ∧
      exec .unmap s = .next { s with faults := [.doubleUnmap] } ∧
      exec .deinit s = .next { s with faults := [.doubleUnmap] })

/-- R185: SET_CLOCK_FREQUENCY rejects with TooSlow and no side effect, or writes the even divisor to DIV, with the
faults of that write. -/
def Obligations.SetClockFrequency : Prop :=
  ∀ (s : State) (hz : Nat), s.running = true →
    (hz = 0 ∨ s.cfg.coreClockHz / hz > 32768 → exec (.setClockFrequency hz) s =
      .next { s with call := none, result := some (.result (.err .tooSlow)) }) ∧
    (hz ≠ 0 → s.cfg.coreClockHz / hz ≤ 32768 →
      ∃ d : Half,
        (s.cfg.coreClockHz / hz = 32768 → d = 0#16) ∧
        (s.cfg.coreClockHz / hz < 32768 →
          d.toNat = s.cfg.coreClockHz / hz - s.cfg.coreClockHz / hz % 2) ∧
        (Configurable s → exec (.setClockFrequency hz) s =
          .next { s with cdiv := d, call := none, result := some (.result (.ok .unit)) }) ∧
        (s.mapped = false → exec (.setClockFrequency hz) s =
          .next { s with faults := [.notInitialized 0x14] }) ∧
        (Ready s → s.eng ≠ .idle → exec (.setClockFrequency hz) s =
          .next { s with faults := [.configWhileActive 0x14 (d.setWidth 32)] }))

/-- R186, R187 with R33: GET_SCL_FREQUENCY is the ceiling of the core clock over the divisor that DIV reads back,
with 0 read as 32768; GET_CDIV is the divisor that DIV reads back. -/
def Obligations.ReadBackFrequency : Prop :=
  ∀ s : State,
    (Ready s →
      let stored : Half := if s.cfg.cdivReadback = .asWritten then s.cdiv else s.cdiv &&& 0xFFFE#16
      let d : Nat := if stored = 0#16 then 32768 else stored.toNat
      (∃ f : Nat, exec .getSclFrequency s =
          .next { s with call := none, result := some (.result (.ok (.nat f))) } ∧
        s.cfg.coreClockHz ≤ f * d ∧ f * d < s.cfg.coreClockHz + d) ∧
      exec .getCdiv s = .next { s with call := none, result := some (.result (.ok (.nat stored.toNat))) }) ∧
    (s.running = true → s.mapped = false →
      exec .getSclFrequency s = .next { s with faults := [.notInitialized 0x14] } ∧
      exec .getCdiv s = .next { s with faults := [.notInitialized 0x14] })

/-- R193: the laws of the clock procedures. -/
def Obligations.ClockLaws : Prop :=
  -- (a) a rejected call changes no state (its result apart)
  (∀ (s t : State) (hz : Nat), s.running = true → exec (.setClockFrequency hz) s = .next t →
    t.running = true → t.result = some (.result (.err .tooSlow)) →
    t = { s with call := none, result := some (.result (.err .tooSlow)) }) ∧
  -- (b) twice is once in the stored divisor
  (∀ (s t u : State) (hz : Nat), s.running = true → exec (.setClockFrequency hz) s = .next t →
    exec (.setClockFrequency hz) t = .next u → u.cdiv = t.cdiv) ∧
  -- (c) set then get
  (∀ (s : State) (hz : Nat), Configurable s → 2 ≤ s.cfg.coreClockHz / hz → s.cfg.coreClockHz / hz ≤ 32768 →
    ∃ (t u : State) (g : Nat), exec (.setClockFrequency hz) s = .next t ∧ exec .getSclFrequency t = .next u ∧
      Returned (.ok .unit) t ∧ Returned (.ok (.nat g)) u ∧ hz ≤ g ∧
      let d := if t.cdiv = 0#16 then 32768 else t.cdiv.toNat
      s.cfg.coreClockHz ≤ g * d ∧ g * d < s.cfg.coreClockHz + d) ∧
  -- (d) set after get need not keep the divisor
  (∀ s : State, Configurable s → s.cfg.coreClockHz = 150000000 →
    ∃ t u v : State, exec (.setClockFrequency 400000) s = .next t ∧ t.cdiv = 374#16 ∧
      exec .getSclFrequency t = .next u ∧ Returned (.ok (.nat 401070)) u ∧
      exec (.setClockFrequency 401070) u = .next v ∧ v.cdiv = 372#16)

/-- R188 to R191: the timeout setter and getter, and the address setter and getter with their 7-bit mask; each
with the faults of its register request. -/
def Obligations.TimeoutAndAddress : Prop :=
  ∀ (s : State) (count : Half) (addr : Byte),
    (Configurable s →
      exec (.setClockTimeout count) s =
        .next { s with tout := count, call := none, result := some (.result (.ok .unit)) } ∧
      exec (.setSlaveAddress addr) s =
        .next { s with aAddr := addr.setWidth 7, call := none, result := some (.result (.ok .unit)) }) ∧
    (Ready s →
      exec .getClockTimeout s =
        .next { s with call := none, result := some (.result (.ok (.nat s.tout.toNat))) } ∧
      exec .getSlaveAddress s =
        .next { s with call := none, result := some (.result (.ok (.nat s.aAddr.toNat))) }) ∧
    (s.running = true → s.mapped = false →
      exec (.setClockTimeout count) s = .next { s with faults := [.notInitialized 0x1C] } ∧
      exec .getClockTimeout s = .next { s with faults := [.notInitialized 0x1C] } ∧
      exec (.setSlaveAddress addr) s = .next { s with faults := [.notInitialized 0x0C] } ∧
      exec .getSlaveAddress s = .next { s with faults := [.notInitialized 0x0C] }) ∧
    (Ready s → s.eng ≠ .idle →
      exec (.setClockTimeout count) s =
        .next { s with faults := [.configWhileActive 0x1C (count.setWidth 32)] } ∧
      exec (.setSlaveAddress addr) s =
        .next { s with faults := [.configWhileActive 0x0C ((addr &&& 0x7F#8).setWidth 32)] })

/-- R119: SET_MASKED_BITS is a register read, and in the next host step a register write of the combined value;
where either request stops the host, so does it. An offset that is no register's stops it by R100. -/
def Obligations.SetMaskedBitsIsReadThenWrite : Prop :=
  (∀ (r : Reg) (value mask : Word) (s u : State), s.running = true →
    (s.call = none → exec (readInstr r 0#2) s = .next u →
      (u.running = false → exec (.setMaskedBits r.offset value mask) s = .next u) ∧
      (∀ v, u.running = true → u.result = some (.nat v) → exec (.setMaskedBits r.offset value mask) s =
        .next { u with call := some (.masked (BitVec.ofNat 32 v)), result := s.result })) ∧
    (∀ t, s.call = some (.masked t) →
      exec (writeInstr r 0#2 ((t &&& ~~~mask) ||| (value &&& mask))) s = .next u →
      (u.running = false → exec (.setMaskedBits r.offset value mask) s = .next u) ∧
      (u.running = true → exec (.setMaskedBits r.offset value mask) s =
        .next { u with call := none, result := some (.result (.ok .unit)) }))) ∧
  ∀ (offset : Nat) (value mask : Word) (s : State), Ready s →
    (offset > 0x1C → exec (.setMaskedBits offset value mask) s =
      .next { s with faults := [.outOfBounds offset] }) ∧
    (offset ≤ 0x1C → offset % 4 ≠ 0 → exec (.setMaskedBits offset value mask) s =
      .next { s with faults := [.misaligned offset] })

/-- R119: SET_MASKED_BITS completes on A when the mask covers A's reserved bits and the value leaves them 0, and on
DEL with any mask; it replaces exactly the masked bits. -/
def Obligations.SetMaskedBitsCompletes : Prop :=
  ∀ (s : State) (value mask : Word), Configurable s → s.call = none →
    (mask &&& 0xFFFFFF80#32 = 0xFFFFFF80#32 → value &&& 0xFFFFFF80#32 = 0#32 →
      execN 2 (.setMaskedBits 0x0C value mask) s = .next { s with
        aAddr := (s.aAddr &&& ~~~mask.setWidth 7) ||| (value.setWidth 7 &&& mask.setWidth 7)
        call := none, result := some (.result (.ok .unit)) }) ∧
    execN 2 (.setMaskedBits 0x18 value mask) s = .next { s with
      fedl := (s.fedl &&& ~~~(mask >>> 16).setWidth 16) ||| ((value >>> 16).setWidth 16 &&& (mask >>> 16).setWidth 16)
      redl := (s.redl &&& ~~~mask.setWidth 16) ||| (value.setWidth 16 &&& mask.setWidth 16)
      call := none, result := some (.result (.ok .unit)) }

/-- R192: DIV, CLKT and A change only by their setters or by a register write; no transaction, and no Engine
step, writes them. -/
def Obligations.ConfigurationPersists : Prop :=
  (∀ (i : Instr) (s t : State), exec i s = .next t →
    (t.cdiv ≠ s.cdiv → (∃ lo data, i = .wrDiv lo data) ∨ (∃ hz, i = .setClockFrequency hz) ∨
      (∃ v m, i = .setMaskedBits 0x14 v m)) ∧
    (t.tout ≠ s.tout → (∃ lo data, i = .wrClkt lo data) ∨ (∃ c, i = .setClockTimeout c) ∨
      (∃ v m, i = .setMaskedBits 0x1C v m)) ∧
    (t.aAddr ≠ s.aAddr → (∃ lo data, i = .wrA lo data) ∨ (∃ a, i = .setSlaveAddress a) ∨
      (∃ v m, i = .setMaskedBits 0x0C v m))) ∧
  ∀ (d : Draws) (s : State),
    ((phaseStep d s).cdiv = s.cdiv ∧ (phaseStep d s).tout = s.tout ∧ (phaseStep d s).aAddr = s.aAddr) ∧
    ((commitStep d s).cdiv = s.cdiv ∧ (commitStep d s).tout = s.tout ∧ (commitStep d s).aAddr = s.aAddr)

/-! ### The transfer engine -/

/-- R143, R144, R145: the ADDR step without a stretch. -/
def Obligations.AddressStep : Prop :=
  ∀ (d : Draws) (s : State), s.eng = .addr → d.stretch = false →
    (d.ack = true → phaseStep d s = { s with
      eng := .data, trace := s.trace ++ [.start, .addrByte s.xAddr s.xRead .ack] }) ∧
    (d.ack = false → phaseStep d s = { s with
      eng := .idle, err := true, done := s.done || d.alsoDone
      trace := s.trace ++ [.start, .addrByte s.xAddr s.xRead .nack, .stop] })

/-- R146, R147, R148, R151: the TXB step without a stretch. -/
def Obligations.TransmitStep : Prop :=
  ∀ (d : Draws) (s : State) (b : Byte) (rest : List Byte),
    s.eng = .data → s.xRead = false → s.fifo = b :: rest → d.stretch = false →
    (d.ack = true → s.rem ≠ 1#16 → phaseStep d s = { s with
      fifo := rest, rem := s.rem - 1#16, trace := s.trace ++ [.txByte b .ack] }) ∧
    (d.ack = true → s.rem = 1#16 → phaseStep d s = { s with
      fifo := rest, rem := 0#16, eng := .idle, done := true, trace := s.trace ++ [.txByte b .ack, .stop] }) ∧
    (d.ack = false → phaseStep d s = { s with
      fifo := rest, eng := .idle, err := true, done := s.done || d.alsoDone
      trace := s.trace ++ [.txByte b .nack, .stop] })

/-- R149, R150, R151, R160: the RXB step without a stretch, with and without the commit lag, and the RXC step. Where the
FIFO is full, a case that R150 takes to be impossible, RXC leaves all but some one of the bytes, in their order (the
model's choice, log entry 7). -/
def Obligations.ReceiveAndCommitSteps : Prop :=
  (∀ (d : Draws) (s : State), s.eng = .data → s.xRead = true → d.stretch = false →
    let fifo' := if s.cfg.rxCommitLag = .none then s.fifo ++ [d.byte] else s.fifo
    let stage' := if s.cfg.rxCommitLag = .none then s.rxStage else some d.byte
    (s.rem ≠ 1#16 → phaseStep d s = { s with
      fifo := fifo', rxStage := stage', rem := s.rem - 1#16, trace := s.trace ++ [.rxByte d.byte .ack] }) ∧
    (s.rem = 1#16 → phaseStep d s = { s with
      fifo := fifo', rxStage := stage', rem := 0#16, eng := .idle, done := true
      trace := s.trace ++ [.rxByte d.byte .nack, .stop] })) ∧
  ∀ (d : Draws) (s : State) (v : Byte), s.rxStage = some v →
    (s.fifo.length < s.cfg.fifoDepth → commitStep d s = { s with fifo := s.fifo ++ [v], rxStage := none }) ∧
    (s.fifo.length ≥ s.cfg.fifoDepth → ∃ k, k ≤ s.fifo.length ∧
      commitStep d s = { s with fifo := (s.fifo ++ [v]).eraseIdx k, rxStage := none })

/-- R152, R153, R154: a stretch past the limit sets CLKT and abandons or freezes the transfer; with the timeout
disabled an endless stretch freezes it and sets no flag. TXB has popped its byte. -/
def Obligations.StretchStep : Prop :=
  ∀ (d : Draws) (s : State), phaseEnabled s = true → d.stretch = true →
    let at0 : State := match s.eng with
      | .addr => { s with trace := s.trace ++ [.start] }
      | _ => if s.xRead then s else { s with fifo := s.fifo.tail }
    (s.tout ≠ 0#16 ∨ s.cfg.clktZeroDisables = false →
      (d.abandon = true → phaseStep d s = { at0 with
        clkt := true, eng := .idle, done := s.done || d.alsoDone
        trace := at0.trace ++ [.stretchTimeout, .stop] }) ∧
      (d.abandon = false → phaseStep d s = { at0 with
        clkt := true, eng := .stalled, trace := at0.trace ++ [.stretchTimeout] })) ∧
    (s.tout = 0#16 → s.cfg.clktZeroDisables = true → phaseStep d s = { at0 with eng := .stalled })

/-- R158: Stalled is left only by reset: no step of the machine leaves it, and a write of C faults in it. -/
def Obligations.StalledStaysStalled : Prop :=
  (∀ s t : State, s.eng = .stalled → step s = .next t → t.eng = .stalled) ∧
  ∀ (s : State) (data : Word), Ready s → s.eng = .stalled → data &&& 0xFFFF784E#32 = 0#32 →
    exec (.wrC 0#2 data) s = .next { s with faults := [.configWhileActive 0 data] }

/-- R157: the Engine never clears DONE, ERR or CLKT; of the instructions only a write of S does: WR_S itself, the
"clear stale status flags" of a transaction, and the write of a SET_MASKED_BITS on S. -/
def Obligations.OnlyStatusWritesClearFlags : Prop :=
  (∀ (d : Draws) (s : State),
    (s.done = true → (phaseStep d s).done = true ∧ (commitStep d s).done = true) ∧
    (s.err = true → (phaseStep d s).err = true ∧ (commitStep d s).err = true) ∧
    (s.clkt = true → (phaseStep d s).clkt = true ∧ (commitStep d s).clkt = true)) ∧
  ∀ (i : Instr) (s t : State), exec i s = .next t →
    (s.done = true ∧ t.done = false) ∨ (s.err = true ∧ t.err = false) ∨ (s.clkt = true ∧ t.clkt = false) →
    (∃ lo data, i = .wrS lo data) ∨
    (isTransaction i = true ∧ ∃ x, s.call = some (.txn x) ∧ (x.pos = .wStat ∨ x.pos = .rStat)) ∨
    (∃ v m x, i = .setMaskedBits 0x04 v m ∧ s.call = some (.masked x))

/-- R30, R47: every step keeps `len(st.fifo) ≤ FIFO_DEPTH`; RXC at a full FIFO by the model's choice (log entry 7). -/
def Obligations.StepKeepsFifoBound : Prop :=
  ∀ s t : State, FifoBounded s → step s = .next t → FifoBounded t

/-- R47: every step keeps `st.rem ≤ st.dlen_w` while a transfer runs, at least one byte left while the Engine
moves, and the latched direction and target equal to the registers. -/
def Obligations.StepKeepsTransferSound : Prop :=
  ∀ s t : State, TransferSound s → step s = .next t → TransferSound t

/-- R155: every step keeps the bus trace within the transfer grammar, in agreement with the Engine's phase. -/
def Obligations.StepKeepsTraceGrammar : Prop :=
  ∀ s t : State, TraceSound s → step s = .next t → TraceSound t

/-- R226 (a), R156: every step keeps a READ from overflowing its buffer, whatever the Target sends. -/
def Obligations.StepKeepsReadWithinBuffer : Prop :=
  ∀ s t : State, NoOverflow s → TransferSound s → step s = .next t → NoOverflow t

/-- R63, R220, R226 (c): every step keeps a READ's bytes (those taken, those in the FIFO, the staged one) equal to
those received on the wire, in order; a READ that returns `Ok(count, buf)` returns the first `count` of them. -/
def Obligations.ReadReturnsBytesInWireOrder : Prop :=
  (∀ s t : State, ReadTracked s → NoOverflow s → TransferSound s → step s = .next t → ReadTracked t) ∧
  ∀ (s t : State) (x : Txn) (length count : Nat) (buf : List Byte),
    ReadTracked s → NoOverflow s → s.call = some (.txn x) → x.pos = .rDrain →
    exec (.read length) s = .next t → Returned (.ok (.bytes count buf)) t →
    count = buf.length ∧ count ≤ x.length ∧ buf <+: receivedBytes t.trace

/-- R226 (b): every step keeps a WRITE's bookkeeping, and a WRITE that is about to return success has put its
whole buffer on the wire, acknowledged, and then STOP. -/
def Obligations.WriteSuccessMeansAllBytesAcknowledged : Prop :=
  (∀ s t : State, WriteTracked s → TransferSound s → step s = .next t → WriteTracked t) ∧
  ∀ (s t : State) (x : Txn) (buffer : List Byte) (length : Nat),
    WriteTracked s → s.call = some (.txn x) → x.pos = .wPoll →
    exec (.write buffer length) s = .next t → Returned (.ok (.nat x.length)) t →
    writeEvents s.xAddr (x.buffer.take x.length) ++ [.stop] <:+ t.trace

/-- Every step keeps the host-local values in their canonical form. -/
def Obligations.StepKeepsLocalsCanonical : Prop :=
  ∀ s t : State, LocalsCanonical s.locals → step s = .next t → LocalsCanonical t.locals

/-- The reset state meets every invariant, for every value of the parameters. -/
def Obligations.ResetMeetsInvariants : Prop :=
  ∀ cfg : Params, cfg.fifoDepth ≤ 0xFFFF →
    FifoBounded (State.resetWith cfg) ∧ TransferSound (State.resetWith cfg) ∧ TraceSound (State.resetWith cfg) ∧
    NoOverflow (State.resetWith cfg) ∧ ReadTracked (State.resetWith cfg) ∧ WriteTracked (State.resetWith cfg) ∧
    LocalsCanonical (State.resetWith cfg).locals

/-! ### Transactions -/

/-- R210, R211, R215, R225: a length outside the contract is ContractViolation before any request; within it, a
transaction on a block that is not mapped, or whose Engine is not Idle, stops at its first request. -/
def Obligations.TransactionPreconditions : Prop :=
  ∀ (s : State) (buffer : List Byte) (length : Nat), s.running = true → s.call = none →
    (length = 0 ∨ length > s.cfg.fifoDepth ∨ length > buffer.length →
      exec (.write buffer length) s = .next { s with faults := [.contractViolation length] }) ∧
    (length = 0 ∨ length > 0xFFFF →
      exec (.read length) s = .next { s with faults := [.contractViolation length] }) ∧
    (0 < length → length ≤ s.cfg.fifoDepth → length ≤ buffer.length →
      (s.mapped = false → exec (.write buffer length) s = .next { s with faults := [.notInitialized 0x00] }) ∧
      (s.mapped = true → s.eng ≠ .idle →
        exec (.write buffer length) s = .next { s with faults := [.configWhileActive 0x00 0x00000010#32] })) ∧
    (0 < length → length ≤ 0xFFFF →
      (s.mapped = false → exec (.read length) s = .next { s with faults := [.notInitialized 0x08] }) ∧
      (s.mapped = true → s.eng ≠ .idle → exec (.read length) s =
        .next { s with faults := [.configWhileActive 0x08 (BitVec.ofNat 32 length)] }))

/-- R212: the host steps of WRITE's ARM, and the state they leave; with the lines not routed the start is the fault
BusNotRouted (R142). -/
def Obligations.WriteArms : Prop :=
  ∀ (s : State) (buffer : List Byte) (length : Nat), Configurable s → s.call = none →
    0 < length → length ≤ s.cfg.fifoDepth → length ≤ buffer.length → length ≤ 0xFFFF →
    let descriptor : Txn := { dir := .write, buffer := buffer, length := length, count := 0, snap := 0#32, pos := .wPoll }
    let armed : State := { s with
      cI2cen := true, cIntr := false, cIntt := false, cIntd := false, cRead := false
      done := false, err := false, clkt := false, dlenW := BitVec.ofNat 16 length
      fifo := buffer.take length, rxStage := none }
    (s.pinsRouted = true → execN (length + 4) (.write buffer length) s = .next { armed with
      eng := .addr, rem := BitVec.ofNat 16 length, xRead := false, xAddr := s.aAddr
      call := some (.txn descriptor) }) ∧
    (s.pinsRouted = false → execN (length + 4) (.write buffer length) s = .next { armed with
      faults := [.busNotRouted], call := some (.txn { descriptor with pos := .wStart }) })

/-- R216: the host steps of READ's ARM, and the state they leave; with the lines not routed the start is the fault
BusNotRouted (R142). -/
def Obligations.ReadArms : Prop :=
  ∀ (s : State) (length : Nat), Configurable s → s.call = none →
    0 < length → length ≤ 0xFFFF →
    let descriptor : Txn := { dir := .read, buffer := [], length := length, count := 0, snap := 0#32, pos := .rLoop }
    let armed : State := { s with
      cI2cen := true, cIntr := false, cIntt := false, cIntd := false, cRead := true
      done := false, err := false, clkt := false, dlenW := BitVec.ofNat 16 length
      fifo := [], rxStage := none }
    (s.pinsRouted = true → execN 3 (.read length) s = .next { armed with
      eng := .addr, rem := BitVec.ofNat 16 length, xRead := true, xAddr := s.aAddr
      call := some (.txn descriptor) }) ∧
    (s.pinsRouted = false → execN 3 (.read length) s = .next { armed with
      faults := [.busNotRouted], call := some (.txn { descriptor with pos := .rStart }) })

/-- R213, R214, R223: one iteration of WRITE's polling loop. -/
def Obligations.WritePolls : Prop :=
  ∀ (s : State) (x : Txn) (buffer : List Byte) (length : Nat), Ready s → s.call = some (.txn x) → x.pos = .wPoll →
    (s.done = false → s.err = false → s.clkt = false →
      ∃ v, exec (.write buffer length) s = .next { s with call := some (.txn { x with snap := v }) }) ∧
    (s.err = true → exec (.write buffer length) s =
      .next { s with call := none, result := some (.result (.err .ackError)) }) ∧
    (s.err = false → s.clkt = true → exec (.write buffer length) s =
      .next { s with call := none, result := some (.result (.err .timeoutError)) }) ∧
    (s.err = false → s.clkt = false → s.done = true → exec (.write buffer length) s =
      .next { s with call := none, result := some (.result (.ok (.nat x.length))) })

/-- R217, R218: a status step of READ's polling loop. -/
def Obligations.ReadPolls : Prop :=
  ∀ (s : State) (x : Txn) (length : Nat), Ready s → s.call = some (.txn x) → x.pos = .rLoop →
    (s.fifo ≠ [] → ∃ v : Word,
      exec (.read length) s = .next { s with call := some (.txn { x with snap := v, pos := .rTake }) } ∧
      v.getLsbD 9 = s.clkt ∧ v.getLsbD 8 = s.err ∧ v.getLsbD 1 = s.done) ∧
    (s.fifo = [] →
      (s.done = false → s.err = false → s.clkt = false → ∃ v : Word,
        exec (.read length) s = .next { s with call := some (.txn { x with snap := v, pos := .rLoop }) }) ∧
      (s.err = true → exec (.read length) s =
        .next { s with call := none, result := some (.result (.err .ackError)) }) ∧
      (s.err = false → s.clkt = true → exec (.read length) s =
        .next { s with call := none, result := some (.result (.err .timeoutError)) }) ∧
      (s.err = false → s.clkt = false → s.done = true → ∃ v : Word,
        exec (.read length) s = .next { s with call := some (.txn { x with snap := v, pos := .rDrain }) }))

/-- R217, R218, R221: READ takes one byte, and then tests the snapshot that showed data-ready; a byte beyond the
buffer is BufferOverflow, and neither the FIFO nor the buffer changes. -/
def Obligations.ReadTakesOne : Prop :=
  ∀ (s : State) (x : Txn) (length : Nat) (b : Byte) (rest : List Byte),
    Ready s → s.call = some (.txn x) → x.pos = .rTake → s.fifo = b :: rest → (s.eng = .idle ∨ s.xRead = true) →
    let taken : Txn := { x with buffer := x.buffer ++ [b], count := x.count + 1 }
    (x.count ≥ x.length →
      exec (.read length) s = .next { s with faults := [.bufferOverflow x.count x.length] }) ∧
    (x.count < x.length →
      (x.snap &&& 0x302#32 = 0#32 → exec (.read length) s =
        .next { s with fifo := rest, call := some (.txn { taken with pos := .rLoop }) }) ∧
      (x.snap.getLsbD 8 = true → exec (.read length) s =
        .next { s with fifo := rest, call := none, result := some (.result (.err .ackError)) }) ∧
      (x.snap.getLsbD 8 = false → x.snap.getLsbD 9 = true → exec (.read length) s =
        .next { s with fifo := rest, call := none, result := some (.result (.err .timeoutError)) }) ∧
      (x.snap.getLsbD 8 = false → x.snap.getLsbD 9 = false → x.snap.getLsbD 1 = true → exec (.read length) s =
        .next { s with fifo := rest, call := some (.txn { taken with pos := .rDrain }) }))

/-- R219, R220: READ's drain takes bytes while data-ready is asserted, and returns the count and the bytes at the
first snapshot without it. -/
def Obligations.ReadDrains : Prop :=
  ∀ (s : State) (x : Txn) (length : Nat), Ready s → s.call = some (.txn x) →
    (x.pos = .rDrain → s.fifo ≠ [] → ∃ v : Word,
      exec (.read length) s = .next { s with call := some (.txn { x with snap := v, pos := .rDrainTake }) }) ∧
    (x.pos = .rDrain → s.fifo = [] → exec (.read length) s =
      .next { s with call := none, result := some (.result (.ok (.bytes x.count x.buffer))) }) ∧
    (x.pos = .rDrainTake → ∀ b rest, s.fifo = b :: rest → (s.eng = .idle ∨ s.xRead = true) →
      (x.count < x.length → exec (.read length) s = .next { s with
        fifo := rest
        call := some (.txn { x with buffer := x.buffer ++ [b], count := x.count + 1, pos := .rDrain }) }) ∧
      (x.count ≥ x.length →
        exec (.read length) s = .next { s with faults := [.bufferOverflow x.count x.length] }))

/-- R211 with R143, R147, R151, under the eager schedule: a WRITE to a Target that acknowledges every byte returns
`Ok(length)`, with exactly its bytes on the wire. -/
def Obligations.WriteToAcknowledgingTarget : Prop :=
  ∀ (s : State) (buffer : List Byte) (length : Nat) (ds : List Draws),
    Configurable s → s.pinsRouted = true → s.call = none →
    0 < length → length ≤ s.cfg.fifoDepth → length ≤ buffer.length → length ≤ 0xFFFF →
    ds.length = length + 1 → (∀ d, d ∈ ds → d.ack = true ∧ d.stretch = false) →
    ∃ armed t : State, execN (length + 4) (.write buffer length) s = .next armed ∧
      exec (.write buffer length) (engineRun ds armed) = .next t ∧ Returned (.ok (.nat length)) t ∧
      t.trace = s.trace ++ [.start, .addrByte s.aAddr false .ack] ++
        (buffer.take length).map (fun b => .txByte b .ack) ++ [.stop] ∧
      t.fifo = [] ∧ t.eng = .idle ∧ t.done = true ∧ t.err = false ∧ t.clkt = false ∧ t.faults = []

/-- R215 with R143, R149, R150, R151, under the eager schedule: a READ that fits the FIFO returns the bytes the
Target sent, in their order, all but the last acknowledged. -/
def Obligations.ReadFromAcknowledgingTarget : Prop :=
  ∀ (s : State) (d0 : Draws) (ds : List Draws),
    Configurable s → s.pinsRouted = true → s.call = none →
    0 < ds.length → ds.length ≤ s.cfg.fifoDepth → ds.length ≤ 0xFFFF →
    (∀ d, d ∈ d0 :: ds → d.ack = true ∧ d.stretch = false) →
    ∃ armed t : State, execN 3 (.read ds.length) s = .next armed ∧
      execN (2 * ds.length + 1) (.read ds.length) (engineRun (d0 :: ds) armed) = .next t ∧
      Returned (.ok (.bytes ds.length (ds.map Draws.byte))) t ∧
      t.trace = s.trace ++ [.start, .addrByte s.aAddr true .ack] ++
        ds.dropLast.map (fun d => .rxByte d.byte .ack) ++
        (ds.getLast?.toList).map (fun d => .rxByte d.byte .nack) ++ [.stop] ∧
      t.fifo = [] ∧ t.eng = .idle ∧ t.faults = []

/-! ### Sensor command frames -/

/-- R261, R262, R263: CMD_NO_ARG and CMD_WRITE_WORD push the opcode, big-endian, and the argument with its CRC, and
return `Ok(())` or the error of their WRITE. -/
def Obligations.WriteCommands : Prop :=
  ∀ (s : State) (opcode value : Half), Ready s →
    let noArg : List Byte := [opcode.extractLsb' 8 8, opcode.extractLsb' 0 8]
    let withArg : List Byte := noArg ++ [value.extractLsb' 8 8, value.extractLsb' 0 8,
      crc8 (value.extractLsb' 8 8) (value.extractLsb' 0 8)]
    (s.eng = .idle → s.pinsRouted = true → s.call = none → 5 ≤ s.cfg.fifoDepth →
      (∃ t, execN 6 (.cmdNoArg opcode) s = .next t ∧ t.fifo = noArg ∧ t.dlenW = 2#16 ∧ t.eng = .addr) ∧
      (∃ t, execN 9 (.cmdWriteWord opcode value) s = .next t ∧ t.fifo = withArg ∧ t.dlenW = 5#16 ∧ t.eng = .addr)) ∧
    (∀ x, s.call = some (.txn x) → x.pos = .wPoll →
      (s.err = true →
        exec (.cmdNoArg opcode) s = .next { s with call := none, result := some (.result (.err .ackError)) } ∧
        exec (.cmdWriteWord opcode value) s =
          .next { s with call := none, result := some (.result (.err .ackError)) }) ∧
      (s.err = false → s.clkt = true →
        exec (.cmdNoArg opcode) s = .next { s with call := none, result := some (.result (.err .timeoutError)) } ∧
        exec (.cmdWriteWord opcode value) s =
          .next { s with call := none, result := some (.result (.err .timeoutError)) }) ∧
      (s.err = false → s.clkt = false → s.done = true →
        exec (.cmdNoArg opcode) s = .next { s with call := none, result := some (.result (.ok .unit)) } ∧
        exec (.cmdWriteWord opcode value) s = .next { s with call := none, result := some (.result (.ok .unit)) }))

/-- R262, R263, R264, R265, R268: a command's host steps are those of its WRITE and its READ, one for one; an
error of the READ is the command's own, and DATA_READY's false. Its first host steps push its opcode. -/
def Obligations.CommandsRunTheirTransactions : Prop :=
  (∀ (s t : State) (x : Txn) (opcode value : Half) (buffer : List Byte) (length : Nat),
    s.running = true → s.call = some (.txn x) →
    (exec (.write buffer length) s = .next t → t.call ≠ none →
      exec (.cmdNoArg opcode) s = .next t ∧ exec (.cmdWriteWord opcode value) s = .next t) ∧
    (exec (.read length) s = .next t → t.call ≠ none →
      exec (.cmdReadWord opcode) s = .next t ∧ exec .readMeasurement s = .next t ∧ exec .dataReady s = .next t) ∧
    (∀ k, exec (.read length) s = .next t → Returned (.err k) t →
      exec (.cmdReadWord opcode) s = .next t ∧ exec .readMeasurement s = .next t ∧
      exec .dataReady s = .next { t with result := some (.result (.ok (.bool false))) })) ∧
  ∀ (s : State) (opcode : Half), Configurable s → s.pinsRouted = true → s.call = none → 2 ≤ s.cfg.fifoDepth →
    let bytes (o : Half) : List Byte := [o.extractLsb' 8 8, o.extractLsb' 0 8]
    (∃ t, execN 6 (.cmdReadWord opcode) s = .next t ∧
      t.fifo = bytes opcode ∧ t.dlenW = 2#16 ∧ t.eng = .addr ∧ t.xRead = false) ∧
    (∃ t, execN 6 .readMeasurement s = .next t ∧
      t.fifo = bytes s.cfg.opcodes.readMeasurement ∧ t.dlenW = 2#16 ∧ t.eng = .addr ∧ t.xRead = false) ∧
    (∃ t, execN 6 .dataReady s = .next t ∧
      t.fifo = bytes s.cfg.opcodes.getDataReady ∧ t.dlenW = 2#16 ∧ t.eng = .addr ∧ t.xRead = false)

/-- R264, R268, R270: CMD_READ_WORD reads 3 bytes after its opcode's WRITE, and returns the word, ShortRead or
CrcError; DATA_READY returns true only for the word 1, and false on any failure of its CMD_READ_WORD. -/
def Obligations.ReadWordCommands : Prop :=
  ∀ (s : State) (opcode : Half) (x : Txn), Ready s → s.call = some (.txn x) →
    let done (r : Result) : State := { s with call := none, result := some (.result r) }
    (x.pos = .wPoll →
      (s.err = true →
        exec (.cmdReadWord opcode) s = .next (done (.err .ackError)) ∧
        exec .dataReady s = .next (done (.ok (.bool false)))) ∧
      (s.err = false → s.clkt = true →
        exec (.cmdReadWord opcode) s = .next (done (.err .timeoutError)) ∧
        exec .dataReady s = .next (done (.ok (.bool false)))) ∧
      (s.err = false → s.clkt = false → s.done = true →
        let reading : State := { s with
          call := some (.txn { dir := .read, buffer := [], length := 3, count := 0, snap := 0#32, pos := .rLen }) }
        exec (.cmdReadWord opcode) s = .next reading ∧ exec .dataReady s = .next reading)) ∧
    (x.pos = .rDrain → s.fifo = [] →
      (x.count ≠ 3 →
        exec (.cmdReadWord opcode) s = .next (done (.err .shortRead)) ∧
        exec .dataReady s = .next (done (.ok (.bool false)))) ∧
      (∀ b0 b1 ck, x.count = 3 → x.buffer = [b0, b1, ck] →
        (crc8 b0 b1 = ck → exec (.cmdReadWord opcode) s = .next (done (.ok (.nat (b0 ++ b1).toNat)))) ∧
        (crc8 b0 b1 ≠ ck → exec (.cmdReadWord opcode) s = .next (done (.err .crcError))) ∧
        exec .dataReady s = .next (done (.ok (.bool (decide (crc8 b0 b1 = ck ∧ b0 ++ b1 = 0x0001#16)))))))

/-- R265, R266, R267, R270: READ_MEASUREMENT after its opcode's WRITE, and on the bytes of its 18-byte read. -/
def Obligations.MeasurementCommand : Prop :=
  ∀ (s : State) (x : Txn), Ready s → s.call = some (.txn x) →
    let done (r : Result) : State := { s with call := none, result := some (.result r) }
    (x.pos = .wPoll →
      (s.err = true → exec .readMeasurement s = .next (done (.err .ackError))) ∧
      (s.err = false → s.clkt = true → exec .readMeasurement s = .next (done (.err .timeoutError))) ∧
      (s.err = false → s.clkt = false → s.done = true → exec .readMeasurement s = .next { s with
        call := some (.txn { dir := .read, buffer := [], length := 18, count := 0, snap := 0#32, pos := .rLen }) })) ∧
    (x.pos = .rDrain → s.fifo = [] →
      (x.count ≠ 18 → exec .readMeasurement s = .next (done (.err .shortRead))) ∧
      (x.count = 18 → ∀ k, validate x.buffer 6 = .error k → exec .readMeasurement s = .next (done (.err k))) ∧
      (x.count = 18 → ∀ w0 w1 w2 w3 w4 w5, validate x.buffer 6 = .ok [w0, w1, w2, w3, w4, w5] →
        ((w0 ++ w1 = 0x00000000#32 ∨ w0 ++ w1 = 0x80000000#32) →
          exec .readMeasurement s = .next (done (.err .notValid))) ∧
        (w0 ++ w1 ≠ 0x00000000#32 → w0 ++ w1 ≠ 0x80000000#32 →
          exec .readMeasurement s = .next (done (.ok (.measurement (w0 ++ w1) (w2 ++ w3) (w4 ++ w5)))))))

/-- R269, R290: SET_MEASUREMENT_INTERVAL rejects what is outside [2, 1800] before any I/O, and otherwise is
CMD_WRITE_WORD of the interval's opcode. -/
def Obligations.MeasurementInterval : Prop :=
  ∀ (s : State) (seconds : Nat), s.running = true →
    (seconds < 2 ∨ seconds > 1800 → exec (.setMeasurementInterval seconds) s =
      .next { s with call := none, result := some (.result (.err .invalidArgument)) }) ∧
    (2 ≤ seconds → seconds ≤ 1800 →
      exec (.setMeasurementInterval seconds) s =
        exec (.cmdWriteWord s.cfg.opcodes.setInterval (BitVec.ofNat 16 seconds)) s ∧
      (∀ x, Ready s → s.call = some (.txn x) → x.pos = .wPoll →
        s.err = false → s.clkt = false → s.done = true → exec (.setMeasurementInterval seconds) s =
          .next { s with call := none, result := some (.result (.ok .unit)) }))
end

