-- ==== Sys2Proof/Laws/State.lean ====
section
/-! SUPPORT. One lemma per field and update of the state: what the field is after the update. -/

namespace Sys2Proof.Machine

/-! ### raise -/

@[simp] theorem raise_cfg (f : Fault) (s : State) : (s.raise f).cfg = s.cfg := rfl
@[simp] theorem raise_cI2cen (f : Fault) (s : State) : (s.raise f).cI2cen = s.cI2cen := rfl
@[simp] theorem raise_cIntr (f : Fault) (s : State) : (s.raise f).cIntr = s.cIntr := rfl
@[simp] theorem raise_cIntt (f : Fault) (s : State) : (s.raise f).cIntt = s.cIntt := rfl
@[simp] theorem raise_cIntd (f : Fault) (s : State) : (s.raise f).cIntd = s.cIntd := rfl
@[simp] theorem raise_cRead (f : Fault) (s : State) : (s.raise f).cRead = s.cRead := rfl
@[simp] theorem raise_done (f : Fault) (s : State) : (s.raise f).done = s.done := rfl
@[simp] theorem raise_err (f : Fault) (s : State) : (s.raise f).err = s.err := rfl
@[simp] theorem raise_clkt (f : Fault) (s : State) : (s.raise f).clkt = s.clkt := rfl
@[simp] theorem raise_dlenW (f : Fault) (s : State) : (s.raise f).dlenW = s.dlenW := rfl
@[simp] theorem raise_aAddr (f : Fault) (s : State) : (s.raise f).aAddr = s.aAddr := rfl
@[simp] theorem raise_fifo (f : Fault) (s : State) : (s.raise f).fifo = s.fifo := rfl
@[simp] theorem raise_cdiv (f : Fault) (s : State) : (s.raise f).cdiv = s.cdiv := rfl
@[simp] theorem raise_fedl (f : Fault) (s : State) : (s.raise f).fedl = s.fedl := rfl
@[simp] theorem raise_redl (f : Fault) (s : State) : (s.raise f).redl = s.redl := rfl
@[simp] theorem raise_tout (f : Fault) (s : State) : (s.raise f).tout = s.tout := rfl
@[simp] theorem raise_eng (f : Fault) (s : State) : (s.raise f).eng = s.eng := rfl
@[simp] theorem raise_rem (f : Fault) (s : State) : (s.raise f).rem = s.rem := rfl
@[simp] theorem raise_xRead (f : Fault) (s : State) : (s.raise f).xRead = s.xRead := rfl
@[simp] theorem raise_xAddr (f : Fault) (s : State) : (s.raise f).xAddr = s.xAddr := rfl
@[simp] theorem raise_rxStage (f : Fault) (s : State) : (s.raise f).rxStage = s.rxStage := rfl
@[simp] theorem raise_mapping (f : Fault) (s : State) : (s.raise f).mapping = s.mapping := rfl
@[simp] theorem raise_pinsRouted (f : Fault) (s : State) : (s.raise f).pinsRouted = s.pinsRouted := rfl
@[simp] theorem raise_faults (f : Fault) (s : State) : (s.raise f).faults = if f ∈ s.faults then s.faults else s.faults ++ [f] := rfl
@[simp] theorem raise_refused (f : Fault) (s : State) : (s.raise f).refused = s.refused := rfl
@[simp] theorem raise_trace (f : Fault) (s : State) : (s.raise f).trace = s.trace := rfl
@[simp] theorem raise_call (f : Fault) (s : State) : (s.raise f).call = s.call := rfl
@[simp] theorem raise_prog (f : Fault) (s : State) : (s.raise f).prog = s.prog := rfl
@[simp] theorem raise_pos (f : Fault) (s : State) : (s.raise f).pos = s.pos := rfl
@[simp] theorem raise_locals (f : Fault) (s : State) : (s.raise f).locals = s.locals := rfl
@[simp] theorem raise_result (f : Fault) (s : State) : (s.raise f).result = s.result := rfl
@[simp] theorem raise_turn (f : Fault) (s : State) : (s.raise f).turn = s.turn := rfl
@[simp] theorem raise_draws (f : Fault) (s : State) : (s.raise f).draws = s.draws := rfl

/-! ### refuse -/

@[simp] theorem refuse_cfg (r : Refusal) (s : State) : (s.refuse r).cfg = s.cfg := rfl
@[simp] theorem refuse_cI2cen (r : Refusal) (s : State) : (s.refuse r).cI2cen = s.cI2cen := rfl
@[simp] theorem refuse_cIntr (r : Refusal) (s : State) : (s.refuse r).cIntr = s.cIntr := rfl
@[simp] theorem refuse_cIntt (r : Refusal) (s : State) : (s.refuse r).cIntt = s.cIntt := rfl
@[simp] theorem refuse_cIntd (r : Refusal) (s : State) : (s.refuse r).cIntd = s.cIntd := rfl
@[simp] theorem refuse_cRead (r : Refusal) (s : State) : (s.refuse r).cRead = s.cRead := rfl
@[simp] theorem refuse_done (r : Refusal) (s : State) : (s.refuse r).done = s.done := rfl
@[simp] theorem refuse_err (r : Refusal) (s : State) : (s.refuse r).err = s.err := rfl
@[simp] theorem refuse_clkt (r : Refusal) (s : State) : (s.refuse r).clkt = s.clkt := rfl
@[simp] theorem refuse_dlenW (r : Refusal) (s : State) : (s.refuse r).dlenW = s.dlenW := rfl
@[simp] theorem refuse_aAddr (r : Refusal) (s : State) : (s.refuse r).aAddr = s.aAddr := rfl
@[simp] theorem refuse_fifo (r : Refusal) (s : State) : (s.refuse r).fifo = s.fifo := rfl
@[simp] theorem refuse_cdiv (r : Refusal) (s : State) : (s.refuse r).cdiv = s.cdiv := rfl
@[simp] theorem refuse_fedl (r : Refusal) (s : State) : (s.refuse r).fedl = s.fedl := rfl
@[simp] theorem refuse_redl (r : Refusal) (s : State) : (s.refuse r).redl = s.redl := rfl
@[simp] theorem refuse_tout (r : Refusal) (s : State) : (s.refuse r).tout = s.tout := rfl
@[simp] theorem refuse_eng (r : Refusal) (s : State) : (s.refuse r).eng = s.eng := rfl
@[simp] theorem refuse_rem (r : Refusal) (s : State) : (s.refuse r).rem = s.rem := rfl
@[simp] theorem refuse_xRead (r : Refusal) (s : State) : (s.refuse r).xRead = s.xRead := rfl
@[simp] theorem refuse_xAddr (r : Refusal) (s : State) : (s.refuse r).xAddr = s.xAddr := rfl
@[simp] theorem refuse_rxStage (r : Refusal) (s : State) : (s.refuse r).rxStage = s.rxStage := rfl
@[simp] theorem refuse_mapping (r : Refusal) (s : State) : (s.refuse r).mapping = s.mapping := rfl
@[simp] theorem refuse_pinsRouted (r : Refusal) (s : State) : (s.refuse r).pinsRouted = s.pinsRouted := rfl
@[simp] theorem refuse_faults (r : Refusal) (s : State) : (s.refuse r).faults = s.faults := rfl
@[simp] theorem refuse_refused (r : Refusal) (s : State) : (s.refuse r).refused = some (s.refused.getD r) := rfl
@[simp] theorem refuse_trace (r : Refusal) (s : State) : (s.refuse r).trace = s.trace := rfl
@[simp] theorem refuse_call (r : Refusal) (s : State) : (s.refuse r).call = s.call := rfl
@[simp] theorem refuse_prog (r : Refusal) (s : State) : (s.refuse r).prog = s.prog := rfl
@[simp] theorem refuse_pos (r : Refusal) (s : State) : (s.refuse r).pos = s.pos := rfl
@[simp] theorem refuse_locals (r : Refusal) (s : State) : (s.refuse r).locals = s.locals := rfl
@[simp] theorem refuse_result (r : Refusal) (s : State) : (s.refuse r).result = s.result := rfl
@[simp] theorem refuse_turn (r : Refusal) (s : State) : (s.refuse r).turn = s.turn := rfl
@[simp] theorem refuse_draws (r : Refusal) (s : State) : (s.refuse r).draws = s.draws := rfl

/-! ### ret -/

@[simp] theorem ret_cfg (r : Result) (s : State) : (s.ret r).cfg = s.cfg := rfl
@[simp] theorem ret_cI2cen (r : Result) (s : State) : (s.ret r).cI2cen = s.cI2cen := rfl
@[simp] theorem ret_cIntr (r : Result) (s : State) : (s.ret r).cIntr = s.cIntr := rfl
@[simp] theorem ret_cIntt (r : Result) (s : State) : (s.ret r).cIntt = s.cIntt := rfl
@[simp] theorem ret_cIntd (r : Result) (s : State) : (s.ret r).cIntd = s.cIntd := rfl
@[simp] theorem ret_cRead (r : Result) (s : State) : (s.ret r).cRead = s.cRead := rfl
@[simp] theorem ret_done (r : Result) (s : State) : (s.ret r).done = s.done := rfl
@[simp] theorem ret_err (r : Result) (s : State) : (s.ret r).err = s.err := rfl
@[simp] theorem ret_clkt (r : Result) (s : State) : (s.ret r).clkt = s.clkt := rfl
@[simp] theorem ret_dlenW (r : Result) (s : State) : (s.ret r).dlenW = s.dlenW := rfl
@[simp] theorem ret_aAddr (r : Result) (s : State) : (s.ret r).aAddr = s.aAddr := rfl
@[simp] theorem ret_fifo (r : Result) (s : State) : (s.ret r).fifo = s.fifo := rfl
@[simp] theorem ret_cdiv (r : Result) (s : State) : (s.ret r).cdiv = s.cdiv := rfl
@[simp] theorem ret_fedl (r : Result) (s : State) : (s.ret r).fedl = s.fedl := rfl
@[simp] theorem ret_redl (r : Result) (s : State) : (s.ret r).redl = s.redl := rfl
@[simp] theorem ret_tout (r : Result) (s : State) : (s.ret r).tout = s.tout := rfl
@[simp] theorem ret_eng (r : Result) (s : State) : (s.ret r).eng = s.eng := rfl
@[simp] theorem ret_rem (r : Result) (s : State) : (s.ret r).rem = s.rem := rfl
@[simp] theorem ret_xRead (r : Result) (s : State) : (s.ret r).xRead = s.xRead := rfl
@[simp] theorem ret_xAddr (r : Result) (s : State) : (s.ret r).xAddr = s.xAddr := rfl
@[simp] theorem ret_rxStage (r : Result) (s : State) : (s.ret r).rxStage = s.rxStage := rfl
@[simp] theorem ret_mapping (r : Result) (s : State) : (s.ret r).mapping = s.mapping := rfl
@[simp] theorem ret_pinsRouted (r : Result) (s : State) : (s.ret r).pinsRouted = s.pinsRouted := rfl
@[simp] theorem ret_faults (r : Result) (s : State) : (s.ret r).faults = s.faults := rfl
@[simp] theorem ret_refused (r : Result) (s : State) : (s.ret r).refused = s.refused := rfl
@[simp] theorem ret_trace (r : Result) (s : State) : (s.ret r).trace = s.trace := rfl
@[simp] theorem ret_call (r : Result) (s : State) : (s.ret r).call = none := rfl
@[simp] theorem ret_prog (r : Result) (s : State) : (s.ret r).prog = s.prog := rfl
@[simp] theorem ret_pos (r : Result) (s : State) : (s.ret r).pos = s.pos := rfl
@[simp] theorem ret_locals (r : Result) (s : State) : (s.ret r).locals = s.locals := rfl
@[simp] theorem ret_result (r : Result) (s : State) : (s.ret r).result = some (.result r) := rfl
@[simp] theorem ret_turn (r : Result) (s : State) : (s.ret r).turn = s.turn := rfl
@[simp] theorem ret_draws (r : Result) (s : State) : (s.ret r).draws = s.draws := rfl

/-! ### emit -/

@[simp] theorem emit_cfg (e : BusEvent) (s : State) : (s.emit e).cfg = s.cfg := rfl
@[simp] theorem emit_cI2cen (e : BusEvent) (s : State) : (s.emit e).cI2cen = s.cI2cen := rfl
@[simp] theorem emit_cIntr (e : BusEvent) (s : State) : (s.emit e).cIntr = s.cIntr := rfl
@[simp] theorem emit_cIntt (e : BusEvent) (s : State) : (s.emit e).cIntt = s.cIntt := rfl
@[simp] theorem emit_cIntd (e : BusEvent) (s : State) : (s.emit e).cIntd = s.cIntd := rfl
@[simp] theorem emit_cRead (e : BusEvent) (s : State) : (s.emit e).cRead = s.cRead := rfl
@[simp] theorem emit_done (e : BusEvent) (s : State) : (s.emit e).done = s.done := rfl
@[simp] theorem emit_err (e : BusEvent) (s : State) : (s.emit e).err = s.err := rfl
@[simp] theorem emit_clkt (e : BusEvent) (s : State) : (s.emit e).clkt = s.clkt := rfl
@[simp] theorem emit_dlenW (e : BusEvent) (s : State) : (s.emit e).dlenW = s.dlenW := rfl
@[simp] theorem emit_aAddr (e : BusEvent) (s : State) : (s.emit e).aAddr = s.aAddr := rfl
@[simp] theorem emit_fifo (e : BusEvent) (s : State) : (s.emit e).fifo = s.fifo := rfl
@[simp] theorem emit_cdiv (e : BusEvent) (s : State) : (s.emit e).cdiv = s.cdiv := rfl
@[simp] theorem emit_fedl (e : BusEvent) (s : State) : (s.emit e).fedl = s.fedl := rfl
@[simp] theorem emit_redl (e : BusEvent) (s : State) : (s.emit e).redl = s.redl := rfl
@[simp] theorem emit_tout (e : BusEvent) (s : State) : (s.emit e).tout = s.tout := rfl
@[simp] theorem emit_eng (e : BusEvent) (s : State) : (s.emit e).eng = s.eng := rfl
@[simp] theorem emit_rem (e : BusEvent) (s : State) : (s.emit e).rem = s.rem := rfl
@[simp] theorem emit_xRead (e : BusEvent) (s : State) : (s.emit e).xRead = s.xRead := rfl
@[simp] theorem emit_xAddr (e : BusEvent) (s : State) : (s.emit e).xAddr = s.xAddr := rfl
@[simp] theorem emit_rxStage (e : BusEvent) (s : State) : (s.emit e).rxStage = s.rxStage := rfl
@[simp] theorem emit_mapping (e : BusEvent) (s : State) : (s.emit e).mapping = s.mapping := rfl
@[simp] theorem emit_pinsRouted (e : BusEvent) (s : State) : (s.emit e).pinsRouted = s.pinsRouted := rfl
@[simp] theorem emit_faults (e : BusEvent) (s : State) : (s.emit e).faults = s.faults := rfl
@[simp] theorem emit_refused (e : BusEvent) (s : State) : (s.emit e).refused = s.refused := rfl
@[simp] theorem emit_trace (e : BusEvent) (s : State) : (s.emit e).trace = s.trace ++ [e] := rfl
@[simp] theorem emit_call (e : BusEvent) (s : State) : (s.emit e).call = s.call := rfl
@[simp] theorem emit_prog (e : BusEvent) (s : State) : (s.emit e).prog = s.prog := rfl
@[simp] theorem emit_pos (e : BusEvent) (s : State) : (s.emit e).pos = s.pos := rfl
@[simp] theorem emit_locals (e : BusEvent) (s : State) : (s.emit e).locals = s.locals := rfl
@[simp] theorem emit_result (e : BusEvent) (s : State) : (s.emit e).result = s.result := rfl
@[simp] theorem emit_turn (e : BusEvent) (s : State) : (s.emit e).turn = s.turn := rfl
@[simp] theorem emit_draws (e : BusEvent) (s : State) : (s.emit e).draws = s.draws := rfl

/-! ### clearFifo -/

@[simp] theorem clearFifo_cfg (s : State) : (clearFifo s).cfg = s.cfg := rfl
@[simp] theorem clearFifo_cI2cen (s : State) : (clearFifo s).cI2cen = s.cI2cen := rfl
@[simp] theorem clearFifo_cIntr (s : State) : (clearFifo s).cIntr = s.cIntr := rfl
@[simp] theorem clearFifo_cIntt (s : State) : (clearFifo s).cIntt = s.cIntt := rfl
@[simp] theorem clearFifo_cIntd (s : State) : (clearFifo s).cIntd = s.cIntd := rfl
@[simp] theorem clearFifo_cRead (s : State) : (clearFifo s).cRead = s.cRead := rfl
@[simp] theorem clearFifo_done (s : State) : (clearFifo s).done = s.done := rfl
@[simp] theorem clearFifo_err (s : State) : (clearFifo s).err = s.err := rfl
@[simp] theorem clearFifo_clkt (s : State) : (clearFifo s).clkt = s.clkt := rfl
@[simp] theorem clearFifo_dlenW (s : State) : (clearFifo s).dlenW = s.dlenW := rfl
@[simp] theorem clearFifo_aAddr (s : State) : (clearFifo s).aAddr = s.aAddr := rfl
@[simp] theorem clearFifo_fifo (s : State) : (clearFifo s).fifo = [] := rfl
@[simp] theorem clearFifo_cdiv (s : State) : (clearFifo s).cdiv = s.cdiv := rfl
@[simp] theorem clearFifo_fedl (s : State) : (clearFifo s).fedl = s.fedl := rfl
@[simp] theorem clearFifo_redl (s : State) : (clearFifo s).redl = s.redl := rfl
@[simp] theorem clearFifo_tout (s : State) : (clearFifo s).tout = s.tout := rfl
@[simp] theorem clearFifo_eng (s : State) : (clearFifo s).eng = s.eng := rfl
@[simp] theorem clearFifo_rem (s : State) : (clearFifo s).rem = s.rem := rfl
@[simp] theorem clearFifo_xRead (s : State) : (clearFifo s).xRead = s.xRead := rfl
@[simp] theorem clearFifo_xAddr (s : State) : (clearFifo s).xAddr = s.xAddr := rfl
@[simp] theorem clearFifo_rxStage (s : State) : (clearFifo s).rxStage = none := rfl
@[simp] theorem clearFifo_mapping (s : State) : (clearFifo s).mapping = s.mapping := rfl
@[simp] theorem clearFifo_pinsRouted (s : State) : (clearFifo s).pinsRouted = s.pinsRouted := rfl
@[simp] theorem clearFifo_faults (s : State) : (clearFifo s).faults = s.faults := rfl
@[simp] theorem clearFifo_refused (s : State) : (clearFifo s).refused = s.refused := rfl
@[simp] theorem clearFifo_trace (s : State) : (clearFifo s).trace = s.trace := rfl
@[simp] theorem clearFifo_call (s : State) : (clearFifo s).call = s.call := rfl
@[simp] theorem clearFifo_prog (s : State) : (clearFifo s).prog = s.prog := rfl
@[simp] theorem clearFifo_pos (s : State) : (clearFifo s).pos = s.pos := rfl
@[simp] theorem clearFifo_locals (s : State) : (clearFifo s).locals = s.locals := rfl
@[simp] theorem clearFifo_result (s : State) : (clearFifo s).result = s.result := rfl
@[simp] theorem clearFifo_turn (s : State) : (clearFifo s).turn = s.turn := rfl
@[simp] theorem clearFifo_draws (s : State) : (clearFifo s).draws = s.draws := rfl

/-! ### storeControl -/

@[simp] theorem storeControl_cfg (data : Word) (s : State) : (storeControl data s).cfg = s.cfg := rfl
@[simp] theorem storeControl_cI2cen (data : Word) (s : State) : (storeControl data s).cI2cen = data.getLsbD 15 := rfl
@[simp] theorem storeControl_cIntr (data : Word) (s : State) : (storeControl data s).cIntr = data.getLsbD 10 := rfl
@[simp] theorem storeControl_cIntt (data : Word) (s : State) : (storeControl data s).cIntt = data.getLsbD 9 := rfl
@[simp] theorem storeControl_cIntd (data : Word) (s : State) : (storeControl data s).cIntd = data.getLsbD 8 := rfl
@[simp] theorem storeControl_cRead (data : Word) (s : State) : (storeControl data s).cRead = data.getLsbD 0 := rfl
@[simp] theorem storeControl_done (data : Word) (s : State) : (storeControl data s).done = s.done := rfl
@[simp] theorem storeControl_err (data : Word) (s : State) : (storeControl data s).err = s.err := rfl
@[simp] theorem storeControl_clkt (data : Word) (s : State) : (storeControl data s).clkt = s.clkt := rfl
@[simp] theorem storeControl_dlenW (data : Word) (s : State) : (storeControl data s).dlenW = s.dlenW := rfl
@[simp] theorem storeControl_aAddr (data : Word) (s : State) : (storeControl data s).aAddr = s.aAddr := rfl
@[simp] theorem storeControl_fifo (data : Word) (s : State) : (storeControl data s).fifo = s.fifo := rfl
@[simp] theorem storeControl_cdiv (data : Word) (s : State) : (storeControl data s).cdiv = s.cdiv := rfl
@[simp] theorem storeControl_fedl (data : Word) (s : State) : (storeControl data s).fedl = s.fedl := rfl
@[simp] theorem storeControl_redl (data : Word) (s : State) : (storeControl data s).redl = s.redl := rfl
@[simp] theorem storeControl_tout (data : Word) (s : State) : (storeControl data s).tout = s.tout := rfl
@[simp] theorem storeControl_eng (data : Word) (s : State) : (storeControl data s).eng = s.eng := rfl
@[simp] theorem storeControl_rem (data : Word) (s : State) : (storeControl data s).rem = s.rem := rfl
@[simp] theorem storeControl_xRead (data : Word) (s : State) : (storeControl data s).xRead = s.xRead := rfl
@[simp] theorem storeControl_xAddr (data : Word) (s : State) : (storeControl data s).xAddr = s.xAddr := rfl
@[simp] theorem storeControl_rxStage (data : Word) (s : State) : (storeControl data s).rxStage = s.rxStage := rfl
@[simp] theorem storeControl_mapping (data : Word) (s : State) : (storeControl data s).mapping = s.mapping := rfl
@[simp] theorem storeControl_pinsRouted (data : Word) (s : State) : (storeControl data s).pinsRouted = s.pinsRouted := rfl
@[simp] theorem storeControl_faults (data : Word) (s : State) : (storeControl data s).faults = s.faults := rfl
@[simp] theorem storeControl_refused (data : Word) (s : State) : (storeControl data s).refused = s.refused := rfl
@[simp] theorem storeControl_trace (data : Word) (s : State) : (storeControl data s).trace = s.trace := rfl
@[simp] theorem storeControl_call (data : Word) (s : State) : (storeControl data s).call = s.call := rfl
@[simp] theorem storeControl_prog (data : Word) (s : State) : (storeControl data s).prog = s.prog := rfl
@[simp] theorem storeControl_pos (data : Word) (s : State) : (storeControl data s).pos = s.pos := rfl
@[simp] theorem storeControl_locals (data : Word) (s : State) : (storeControl data s).locals = s.locals := rfl
@[simp] theorem storeControl_result (data : Word) (s : State) : (storeControl data s).result = s.result := rfl
@[simp] theorem storeControl_turn (data : Word) (s : State) : (storeControl data s).turn = s.turn := rfl
@[simp] theorem storeControl_draws (data : Word) (s : State) : (storeControl data s).draws = s.draws := rfl

/-! ### latchTransfer -/

@[simp] theorem latchTransfer_cfg (s : State) : (latchTransfer s).cfg = s.cfg := rfl
@[simp] theorem latchTransfer_cI2cen (s : State) : (latchTransfer s).cI2cen = s.cI2cen := rfl
@[simp] theorem latchTransfer_cIntr (s : State) : (latchTransfer s).cIntr = s.cIntr := rfl
@[simp] theorem latchTransfer_cIntt (s : State) : (latchTransfer s).cIntt = s.cIntt := rfl
@[simp] theorem latchTransfer_cIntd (s : State) : (latchTransfer s).cIntd = s.cIntd := rfl
@[simp] theorem latchTransfer_cRead (s : State) : (latchTransfer s).cRead = s.cRead := rfl
@[simp] theorem latchTransfer_done (s : State) : (latchTransfer s).done = s.done := rfl
@[simp] theorem latchTransfer_err (s : State) : (latchTransfer s).err = s.err := rfl
@[simp] theorem latchTransfer_clkt (s : State) : (latchTransfer s).clkt = s.clkt := rfl
@[simp] theorem latchTransfer_dlenW (s : State) : (latchTransfer s).dlenW = s.dlenW := rfl
@[simp] theorem latchTransfer_aAddr (s : State) : (latchTransfer s).aAddr = s.aAddr := rfl
@[simp] theorem latchTransfer_fifo (s : State) : (latchTransfer s).fifo = s.fifo := rfl
@[simp] theorem latchTransfer_cdiv (s : State) : (latchTransfer s).cdiv = s.cdiv := rfl
@[simp] theorem latchTransfer_fedl (s : State) : (latchTransfer s).fedl = s.fedl := rfl
@[simp] theorem latchTransfer_redl (s : State) : (latchTransfer s).redl = s.redl := rfl
@[simp] theorem latchTransfer_tout (s : State) : (latchTransfer s).tout = s.tout := rfl
@[simp] theorem latchTransfer_eng (s : State) : (latchTransfer s).eng = .addr := rfl
@[simp] theorem latchTransfer_rem (s : State) : (latchTransfer s).rem = s.dlenW := rfl
@[simp] theorem latchTransfer_xRead (s : State) : (latchTransfer s).xRead = s.cRead := rfl
@[simp] theorem latchTransfer_xAddr (s : State) : (latchTransfer s).xAddr = s.aAddr := rfl
@[simp] theorem latchTransfer_rxStage (s : State) : (latchTransfer s).rxStage = s.rxStage := rfl
@[simp] theorem latchTransfer_mapping (s : State) : (latchTransfer s).mapping = s.mapping := rfl
@[simp] theorem latchTransfer_pinsRouted (s : State) : (latchTransfer s).pinsRouted = s.pinsRouted := rfl
@[simp] theorem latchTransfer_faults (s : State) : (latchTransfer s).faults = s.faults := rfl
@[simp] theorem latchTransfer_refused (s : State) : (latchTransfer s).refused = s.refused := rfl
@[simp] theorem latchTransfer_trace (s : State) : (latchTransfer s).trace = s.trace := rfl
@[simp] theorem latchTransfer_call (s : State) : (latchTransfer s).call = s.call := rfl
@[simp] theorem latchTransfer_prog (s : State) : (latchTransfer s).prog = s.prog := rfl
@[simp] theorem latchTransfer_pos (s : State) : (latchTransfer s).pos = s.pos := rfl
@[simp] theorem latchTransfer_locals (s : State) : (latchTransfer s).locals = s.locals := rfl
@[simp] theorem latchTransfer_result (s : State) : (latchTransfer s).result = s.result := rfl
@[simp] theorem latchTransfer_turn (s : State) : (latchTransfer s).turn = s.turn := rfl
@[simp] theorem latchTransfer_draws (s : State) : (latchTransfer s).draws = s.draws := rfl

/-! ### writeStatus -/

@[simp] theorem writeStatus_cfg (data : Word) (s : State) : (writeStatus data s).cfg = s.cfg := rfl
@[simp] theorem writeStatus_cI2cen (data : Word) (s : State) : (writeStatus data s).cI2cen = s.cI2cen := rfl
@[simp] theorem writeStatus_cIntr (data : Word) (s : State) : (writeStatus data s).cIntr = s.cIntr := rfl
@[simp] theorem writeStatus_cIntt (data : Word) (s : State) : (writeStatus data s).cIntt = s.cIntt := rfl
@[simp] theorem writeStatus_cIntd (data : Word) (s : State) : (writeStatus data s).cIntd = s.cIntd := rfl
@[simp] theorem writeStatus_cRead (data : Word) (s : State) : (writeStatus data s).cRead = s.cRead := rfl
@[simp] theorem writeStatus_done (data : Word) (s : State) : (writeStatus data s).done = (s.done && !data.getLsbD 1) := rfl
@[simp] theorem writeStatus_err (data : Word) (s : State) : (writeStatus data s).err = (s.err && !data.getLsbD 8) := rfl
@[simp] theorem writeStatus_clkt (data : Word) (s : State) : (writeStatus data s).clkt = (s.clkt && !data.getLsbD 9) := rfl
@[simp] theorem writeStatus_dlenW (data : Word) (s : State) : (writeStatus data s).dlenW = s.dlenW := rfl
@[simp] theorem writeStatus_aAddr (data : Word) (s : State) : (writeStatus data s).aAddr = s.aAddr := rfl
@[simp] theorem writeStatus_fifo (data : Word) (s : State) : (writeStatus data s).fifo = s.fifo := rfl
@[simp] theorem writeStatus_cdiv (data : Word) (s : State) : (writeStatus data s).cdiv = s.cdiv := rfl
@[simp] theorem writeStatus_fedl (data : Word) (s : State) : (writeStatus data s).fedl = s.fedl := rfl
@[simp] theorem writeStatus_redl (data : Word) (s : State) : (writeStatus data s).redl = s.redl := rfl
@[simp] theorem writeStatus_tout (data : Word) (s : State) : (writeStatus data s).tout = s.tout := rfl
@[simp] theorem writeStatus_eng (data : Word) (s : State) : (writeStatus data s).eng = s.eng := rfl
@[simp] theorem writeStatus_rem (data : Word) (s : State) : (writeStatus data s).rem = s.rem := rfl
@[simp] theorem writeStatus_xRead (data : Word) (s : State) : (writeStatus data s).xRead = s.xRead := rfl
@[simp] theorem writeStatus_xAddr (data : Word) (s : State) : (writeStatus data s).xAddr = s.xAddr := rfl
@[simp] theorem writeStatus_rxStage (data : Word) (s : State) : (writeStatus data s).rxStage = s.rxStage := rfl
@[simp] theorem writeStatus_mapping (data : Word) (s : State) : (writeStatus data s).mapping = s.mapping := rfl
@[simp] theorem writeStatus_pinsRouted (data : Word) (s : State) : (writeStatus data s).pinsRouted = s.pinsRouted := rfl
@[simp] theorem writeStatus_faults (data : Word) (s : State) : (writeStatus data s).faults = s.faults := rfl
@[simp] theorem writeStatus_refused (data : Word) (s : State) : (writeStatus data s).refused = s.refused := rfl
@[simp] theorem writeStatus_trace (data : Word) (s : State) : (writeStatus data s).trace = s.trace := rfl
@[simp] theorem writeStatus_call (data : Word) (s : State) : (writeStatus data s).call = s.call := rfl
@[simp] theorem writeStatus_prog (data : Word) (s : State) : (writeStatus data s).prog = s.prog := rfl
@[simp] theorem writeStatus_pos (data : Word) (s : State) : (writeStatus data s).pos = s.pos := rfl
@[simp] theorem writeStatus_locals (data : Word) (s : State) : (writeStatus data s).locals = s.locals := rfl
@[simp] theorem writeStatus_result (data : Word) (s : State) : (writeStatus data s).result = s.result := rfl
@[simp] theorem writeStatus_turn (data : Word) (s : State) : (writeStatus data s).turn = s.turn := rfl
@[simp] theorem writeStatus_draws (data : Word) (s : State) : (writeStatus data s).draws = s.draws := rfl

/-! ### tick -/

@[simp] theorem tick_cfg (s t : State) : (tick s t).cfg = t.cfg := rfl
@[simp] theorem tick_cI2cen (s t : State) : (tick s t).cI2cen = t.cI2cen := rfl
@[simp] theorem tick_cIntr (s t : State) : (tick s t).cIntr = t.cIntr := rfl
@[simp] theorem tick_cIntt (s t : State) : (tick s t).cIntt = t.cIntt := rfl
@[simp] theorem tick_cIntd (s t : State) : (tick s t).cIntd = t.cIntd := rfl
@[simp] theorem tick_cRead (s t : State) : (tick s t).cRead = t.cRead := rfl
@[simp] theorem tick_done (s t : State) : (tick s t).done = t.done := rfl
@[simp] theorem tick_err (s t : State) : (tick s t).err = t.err := rfl
@[simp] theorem tick_clkt (s t : State) : (tick s t).clkt = t.clkt := rfl
@[simp] theorem tick_dlenW (s t : State) : (tick s t).dlenW = t.dlenW := rfl
@[simp] theorem tick_aAddr (s t : State) : (tick s t).aAddr = t.aAddr := rfl
@[simp] theorem tick_fifo (s t : State) : (tick s t).fifo = t.fifo := rfl
@[simp] theorem tick_cdiv (s t : State) : (tick s t).cdiv = t.cdiv := rfl
@[simp] theorem tick_fedl (s t : State) : (tick s t).fedl = t.fedl := rfl
@[simp] theorem tick_redl (s t : State) : (tick s t).redl = t.redl := rfl
@[simp] theorem tick_tout (s t : State) : (tick s t).tout = t.tout := rfl
@[simp] theorem tick_eng (s t : State) : (tick s t).eng = t.eng := rfl
@[simp] theorem tick_rem (s t : State) : (tick s t).rem = t.rem := rfl
@[simp] theorem tick_xRead (s t : State) : (tick s t).xRead = t.xRead := rfl
@[simp] theorem tick_xAddr (s t : State) : (tick s t).xAddr = t.xAddr := rfl
@[simp] theorem tick_rxStage (s t : State) : (tick s t).rxStage = t.rxStage := rfl
@[simp] theorem tick_mapping (s t : State) : (tick s t).mapping = t.mapping := rfl
@[simp] theorem tick_pinsRouted (s t : State) : (tick s t).pinsRouted = t.pinsRouted := rfl
@[simp] theorem tick_faults (s t : State) : (tick s t).faults = t.faults := rfl
@[simp] theorem tick_refused (s t : State) : (tick s t).refused = t.refused := rfl
@[simp] theorem tick_trace (s t : State) : (tick s t).trace = t.trace := rfl
@[simp] theorem tick_call (s t : State) : (tick s t).call = t.call := rfl
@[simp] theorem tick_prog (s t : State) : (tick s t).prog = t.prog := rfl
@[simp] theorem tick_pos (s t : State) : (tick s t).pos = t.pos := rfl
@[simp] theorem tick_locals (s t : State) : (tick s t).locals = t.locals := rfl
@[simp] theorem tick_result (s t : State) : (tick s t).result = t.result := rfl
@[simp] theorem tick_turn (s t : State) : (tick s t).turn = s.free.turn := rfl
@[simp] theorem tick_draws (s t : State) : (tick s t).draws = s.draws + 1 := rfl

end Sys2Proof.Machine
end

