-- ==== Sys2Proof/Laws/Ops.lean ====
section
/-! SUPPORT. What the shared operations of Machine/Ops.lean can do: running and stopped hosts, the checks of R100, register accesses. -/

namespace Sys2Proof.Machine

/-! ### Running and stopped hosts -/

theorem running_iff (s : State) : s.running = true ↔ s.faults = [] ∧ s.refused = none := by
  simp [State.running]

theorem faults_of_running {s : State} (h : s.running = true) : s.faults = [] := ((running_iff s).1 h).1

theorem refused_of_running {s : State} (h : s.running = true) : s.refused = none := ((running_iff s).1 h).2

@[simp] theorem running_raise (f : Fault) (s : State) : (s.raise f).running = false := by
  simp only [State.running, raise_faults]
  split
  · next h => cases hs : s.faults <;> simp_all
  · simp

@[simp] theorem running_refuse (r : Refusal) (s : State) : (s.refuse r).running = false := by simp [State.running]

theorem raise_of_running {s : State} (h : s.running = true) (f : Fault) :
    s.raise f = { s with faults := [f] } := by
  simp [State.raise, faults_of_running h]

theorem refuse_of_running {s : State} (h : s.running = true) (r : Refusal) :
    s.refuse r = { s with refused := some r } := by
  simp [State.refuse, refused_of_running h]

theorem mem_faults_raise (f g : Fault) (s : State) : g ∈ (s.raise f).faults ↔ g ∈ s.faults ∨ g = f := by
  simp only [raise_faults]
  split
  · next h => exact ⟨.inl, fun h' => h'.elim id (· ▸ h)⟩
  · simp

theorem whenRunning_of_running {s : State} (h : s.running = true) (k : State → State) :
    whenRunning s k = .next (k s) := by
  simp [whenRunning, h]

theorem whenRunning_of_stopped {s : State} (h : s.running = false) (k : State → State) :
    whenRunning s k = s.stopped := by
  simp [whenRunning, h]

theorem stopped_not_next {s : State} (h : s.running = false) (t : State) : s.stopped ≠ .next t := by
  unfold State.stopped
  split <;> simp_all [State.running]

/-- A request answers a next state exactly where the host may step. -/
theorem whenRunning_next_iff (s t : State) (k : State → State) :
    whenRunning s k = .next t ↔ s.running = true ∧ k s = t := by
  cases h : s.running
  · simp [whenRunning_of_stopped h, stopped_not_next h]
  · simp [whenRunning_of_running h]

/-! ### The checks of a register request (R100) -/

@[simp] theorem regAt_offset (r : Reg) : regAt r.offset = r := by cases r <;> rfl

theorem accessFault_offset (r : Reg) {s : State} (h : s.mapped = true) : accessFault r.offset s = none := by
  cases r <;> simp [accessFault, h, Reg.offset]

theorem accessFault_unmapped (off : Nat) {s : State} (h : s.mapped = false) :
    accessFault off s = some (.notInitialized off) := by
  simp [accessFault, h]

theorem accessFault_beyond {off : Nat} {s : State} (h : s.mapped = true) (ho : off > 0x1C) :
    accessFault off s = some (.outOfBounds off) := by
  simp [accessFault, h, ho]

theorem accessFault_misaligned {off : Nat} {s : State} (h : s.mapped = true) (ho : off ≤ 0x1C)
    (ha : off % 4 ≠ 0) : accessFault off s = some (.misaligned off) := by
  simp [accessFault, h, ha]
  omega

theorem memRead_of_fault {off : Nat} {s : State} {f : Fault} (h : accessFault off s = some f) (d : Draws) :
    memRead off d s = .stop (s.raise f) := by
  simp [memRead, h]

theorem memWrite_of_fault {off : Nat} {s : State} {f : Fault} (h : accessFault off s = some f) (data : Word) :
    memWrite off data s = .stop (s.raise f) := by
  simp [memWrite, h]

theorem memRead_offset (r : Reg) (d : Draws) {s : State} (h : s.mapped = true) :
    memRead r.offset d s = readReg r d s := by
  simp [memRead, accessFault_offset r h]

/-- A register write that passes the checks of R100. -/
theorem memWrite_offset (r : Reg) {data : Word} {s : State} (h : s.mapped = true)
    (hr : data &&& r.reservedMask = 0#32) (hc : isConfigReg r = true → s.eng = .idle) :
    memWrite r.offset data s = writeReg r data s := by
  simp only [memWrite, accessFault_offset r h, regAt_offset, hr]
  simp
  exact fun h₁ h₂ => absurd (hc h₁) h₂


end Sys2Proof.Machine
end

