-- ==== Sys2Proof/Laws/Engine.lean ====
section
/-! SUPPORT. What the Engine's steps can do: the fields they never write, and one inductive with a case for each way a step can end. -/

namespace Sys2Proof.Machine

/-- How an Engine step can change the state (R143 to R154). -/
inductive EngineMove (s : State) : State → Prop where
  /-- A stretch past the limit after the step's own prefix `u`, abandoned. -/
  | abandoned (u : State) (done : Bool) (hd : s.done = true → done = true)
      (hu : (s.eng = .addr ∧ u = { s with trace := s.trace ++ [.start] }) ∨ (s.eng = .data ∧ s.xRead = true ∧ u = s) ∨
        (s.eng = .data ∧ s.xRead = false ∧ u = { s with fifo := s.fifo.tail })) :
      EngineMove s { u with clkt := true, eng := .idle, done := done, trace := u.trace ++ [.stretchTimeout, .stop] }
  /-- A stretch past the limit after the prefix `u`, frozen. -/
  | frozen (u : State)
      (hu : (s.eng = .addr ∧ u = { s with trace := s.trace ++ [.start] }) ∨ (s.eng = .data ∧ s.xRead = true ∧ u = s) ∨
        (s.eng = .data ∧ s.xRead = false ∧ u = { s with fifo := s.fifo.tail })) :
      EngineMove s { u with clkt := true, eng := .stalled, trace := u.trace ++ [.stretchTimeout] }
  /-- An endless stretch after the prefix `u`. -/
  | endless (u : State)
      (hu : (s.eng = .addr ∧ u = { s with trace := s.trace ++ [.start] }) ∨ (s.eng = .data ∧ s.xRead = true ∧ u = s) ∨
        (s.eng = .data ∧ s.xRead = false ∧ u = { s with fifo := s.fifo.tail })) :
      EngineMove s { u with eng := .stalled }
  | addrAck (h : s.eng = .addr) :
      EngineMove s { s with eng := .data, trace := s.trace ++ [.start, .addrByte s.xAddr s.xRead .ack] }
  | addrNack (h : s.eng = .addr) (done : Bool) (hd : s.done = true → done = true) :
      EngineMove s { s with
        err := true, eng := .idle, done := done
        trace := s.trace ++ [.start, .addrByte s.xAddr s.xRead .nack, .stop] }
  | txMore (h : s.eng = .data) (hx : s.xRead = false) (b : Byte) (rest : List Byte) (hf : s.fifo = b :: rest)
      (hr : s.rem ≠ 1#16) :
      EngineMove s { s with fifo := rest, rem := s.rem - 1#16, trace := s.trace ++ [.txByte b .ack] }
  | txLast (h : s.eng = .data) (hx : s.xRead = false) (b : Byte) (rest : List Byte) (hf : s.fifo = b :: rest)
      (hr : s.rem = 1#16) :
      EngineMove s { s with
        fifo := rest, rem := 0#16, eng := .idle, done := true, trace := s.trace ++ [.txByte b .ack, .stop] }
  | txNack (h : s.eng = .data) (hx : s.xRead = false) (b : Byte) (rest : List Byte) (hf : s.fifo = b :: rest)
      (done : Bool) (hd : s.done = true → done = true) :
      EngineMove s { s with
        fifo := rest, err := true, eng := .idle, done := done, trace := s.trace ++ [.txByte b .nack, .stop] }
  | rxMore (h : s.eng = .data) (hx : s.xRead = true) (hs : s.rxStage = none) (hl : s.fifo.length < s.cfg.fifoDepth)
      (v : Byte) (f : List Byte) (g : Option Byte) (hfg : (f = s.fifo ++ [v] ∧ g = none) ∨ (f = s.fifo ∧ g = some v))
      (hr : s.rem ≠ 1#16) :
      EngineMove s { s with fifo := f, rxStage := g, rem := s.rem - 1#16, trace := s.trace ++ [.rxByte v .ack] }
  | rxLast (h : s.eng = .data) (hx : s.xRead = true) (hs : s.rxStage = none) (hl : s.fifo.length < s.cfg.fifoDepth)
      (v : Byte) (f : List Byte) (g : Option Byte) (hfg : (f = s.fifo ++ [v] ∧ g = none) ∨ (f = s.fifo ∧ g = some v))
      (hr : s.rem = 1#16) :
      EngineMove s { s with
        fifo := f, rxStage := g, rem := 0#16, eng := .idle, done := true
        trace := s.trace ++ [.rxByte v .nack, .stop] }

/-- What no Engine step writes: everything of the host's side, and the registers it only reads. -/
theorem EngineMove.host_side {s t : State} (h : EngineMove s t) :
    t.cfg = s.cfg ∧ t.call = s.call ∧ t.prog = s.prog ∧ t.pos = s.pos ∧ t.locals = s.locals ∧ t.faults = s.faults ∧
      t.refused = s.refused ∧ t.mapping = s.mapping ∧ t.pinsRouted = s.pinsRouted ∧ t.dlenW = s.dlenW ∧
      t.xRead = s.xRead ∧ t.xAddr = s.xAddr := by
  cases h with
  | abandoned u done hd hu | frozen u hu | endless u hu =>
    rcases hu with ⟨-, rfl⟩ | ⟨-, -, rfl⟩ | ⟨-, -, rfl⟩ <;> simp
  | _ => simp

/-- No Engine step changes what the host's last request returned. -/
theorem EngineMove.result {s t : State} (h : EngineMove s t) : t.result = s.result := by
  cases h with
  | abandoned u done hd hu | frozen u hu | endless u hu =>
    rcases hu with ⟨-, rfl⟩ | ⟨-, -, rfl⟩ | ⟨-, -, rfl⟩ <;> rfl
  | _ => rfl

theorem sub_one_eq_zero_iff (r : Half) : r - 1#16 = 0#16 ↔ r = 1#16 := by
  constructor <;> intro h <;> bv_omega

/-- An enabled ADDR, TXB or RXB step is one of the moves. -/
theorem phaseStep_move (d : Draws) (s : State) (h : phaseEnabled s = true) : EngineMove s (phaseStep d s) := by
  unfold phaseEnabled at h
  split at h
  · cases h
  · cases h
  · next he =>
    have hp : phaseStep d s = addrStep d s := by simp [phaseStep, he]
    rw [hp]
    simp only [addrStep, afterStretch]
    split
    · simp only [timeout]
      split
      · have := EngineMove.abandoned (s := s) _ (s.done || d.alsoDone) (by simp +contextual) (.inl ⟨he, rfl⟩)
        simpa [State.emit] using this
      · have := EngineMove.frozen (s := s) _ (.inl ⟨he, rfl⟩)
        simpa [State.emit] using this
    · have := EngineMove.endless (s := s) _ (.inl ⟨he, rfl⟩)
      simpa [State.emit] using this
    · cases ha : d.ack
      · have := EngineMove.addrNack he (s.done || d.alsoDone) (by simp +contextual)
        simpa [State.emit, acknowledge, ha, nackEnd] using this
      · have := EngineMove.addrAck he
        simpa [State.emit, acknowledge, ha] using this
  · next he =>
    cases hx : s.xRead
    · rw [hx] at h
      obtain ⟨b, rest, hf⟩ : ∃ b rest, s.fifo = b :: rest := by
        cases hf : s.fifo
        · simp [hf] at h
        · exact ⟨_, _, rfl⟩
      have hp : phaseStep d s = txStep d s := by simp [phaseStep, he, hx]
      rw [hp]
      simp only [txStep, hf, afterStretch]
      split
      · simp only [timeout]
        split
        · have := EngineMove.abandoned (s := s) _ (s.done || d.alsoDone) (by simp +contextual) (.inr (.inr ⟨he, hx, rfl⟩))
          simpa [State.emit, hf] using this
        · have := EngineMove.frozen (s := s) _ (.inr (.inr ⟨he, hx, rfl⟩))
          simpa [State.emit, hf] using this
      · have := EngineMove.endless (s := s) _ (.inr (.inr ⟨he, hx, rfl⟩))
        simpa [State.emit, hf] using this
      · cases ha : d.ack
        · have := EngineMove.txNack he hx b rest hf (s.done || d.alsoDone) (by simp +contextual)
          simpa [State.emit, acknowledge, ha, nackEnd] using this
        · by_cases hr : s.rem = 1#16
          · have := EngineMove.txLast he hx b rest hf hr
            simpa [State.emit, acknowledge, ha, txAcked, completeIfDone, complete, sub_one_eq_zero_iff, hr] using this
          · have := EngineMove.txMore he hx b rest hf hr
            simpa [State.emit, acknowledge, ha, txAcked, completeIfDone, complete, sub_one_eq_zero_iff, hr] using this
    · rw [hx] at h
      simp only [if_true, Bool.and_eq_true, Option.isNone_iff_eq_none, decide_eq_true_eq] at h
      have hp : phaseStep d s = rxStep d s := by simp [phaseStep, he, hx]
      rw [hp]
      simp only [rxStep, afterStretch]
      split
      · simp only [timeout]
        split
        · have := EngineMove.abandoned (s := s) _ (s.done || d.alsoDone) (by simp +contextual) (.inr (.inl ⟨he, hx, rfl⟩))
          simpa [State.emit] using this
        · have := EngineMove.frozen (s := s) _ (.inr (.inl ⟨he, hx, rfl⟩))
          simpa [State.emit] using this
      · exact EngineMove.endless (s := s) _ (.inr (.inl ⟨he, hx, rfl⟩))
      · by_cases hr : s.rem = 1#16
        · cases hl : s.cfg.rxCommitLag
          · have := EngineMove.rxLast he hx h.1 h.2 d.byte _ _ (.inr ⟨rfl, rfl⟩) hr
            simpa [State.emit, receive, hl, completeIfDone, complete, hr] using this
          · have := EngineMove.rxLast he hx h.1 h.2 d.byte _ _ (.inl ⟨rfl, rfl⟩) hr
            simpa [State.emit, receive, hl, completeIfDone, complete, hr, h.1] using this
        · cases hl : s.cfg.rxCommitLag
          · have := EngineMove.rxMore he hx h.1 h.2 d.byte _ _ (.inr ⟨rfl, rfl⟩) hr
            simpa [State.emit, receive, hl, completeIfDone, complete, sub_one_eq_zero_iff, hr] using this
          · have := EngineMove.rxMore he hx h.1 h.2 d.byte _ _ (.inl ⟨rfl, rfl⟩) hr
            simpa [State.emit, receive, hl, completeIfDone, complete, sub_one_eq_zero_iff, hr, h.1] using this

end Sys2Proof.Machine
end

