-- ==== Sys2Proof/Laws/Flags.lean ====
section
/-! SUPPORT. The bits of the composed register values, and the driver's tests of a status snapshot in terms of the state it was taken in. -/

namespace Sys2Proof.Machine

/-! ### The bits of a status read (R25) -/

@[simp] theorem readS_clkt (d : Draws) (s : State) : (readS d s)[9] = s.clkt := by
  rw [← BitVec.getLsbD_eq_getElem]
  simp only [readS, BitVec.getLsbD_append]
  simp

@[simp] theorem readS_err (d : Draws) (s : State) : (readS d s)[8] = s.err := by
  rw [← BitVec.getLsbD_eq_getElem]
  simp only [readS, BitVec.getLsbD_append]
  simp

@[simp] theorem readS_rxf (d : Draws) (s : State) : (readS d s)[7] = flagRXF s := by
  rw [← BitVec.getLsbD_eq_getElem]
  simp only [readS, BitVec.getLsbD_append]
  simp

@[simp] theorem readS_txe (d : Draws) (s : State) : (readS d s)[6] = flagTXE s := by
  rw [← BitVec.getLsbD_eq_getElem]
  simp only [readS, BitVec.getLsbD_append]
  simp

@[simp] theorem readS_rxd (d : Draws) (s : State) : (readS d s)[5] = flagRXD s := by
  rw [← BitVec.getLsbD_eq_getElem]
  simp only [readS, BitVec.getLsbD_append]
  simp

@[simp] theorem readS_txd (d : Draws) (s : State) : (readS d s)[4] = flagTXD s := by
  rw [← BitVec.getLsbD_eq_getElem]
  simp only [readS, BitVec.getLsbD_append]
  simp

@[simp] theorem readS_rxr (d : Draws) (s : State) : (readS d s)[3] = flagRXR d s := by
  rw [← BitVec.getLsbD_eq_getElem]
  simp only [readS, BitVec.getLsbD_append]
  simp

@[simp] theorem readS_txw (d : Draws) (s : State) : (readS d s)[2] = flagTXW d s := by
  rw [← BitVec.getLsbD_eq_getElem]
  simp only [readS, BitVec.getLsbD_append]
  simp

@[simp] theorem readS_done (d : Draws) (s : State) : (readS d s)[1] = s.done := by
  rw [← BitVec.getLsbD_eq_getElem]
  simp only [readS, BitVec.getLsbD_append]
  simp

@[simp] theorem readS_ta (d : Draws) (s : State) : (readS d s)[0] = flagTA s := by
  rw [← BitVec.getLsbD_eq_getElem]
  simp only [readS, BitVec.getLsbD_append]
  simp

/-! ### The driver's tests of a snapshot (R222, R223) -/

/-- The terminal mask 0x302 selects DONE, ERR and CLKT. -/
theorem terminal_eq (v : Word) : terminal v = (v.getLsbD 1 || v.getLsbD 8 || v.getLsbD 9) := by
  have : (v &&& 0x00000302#32 = 0#32) ↔ (v.getLsbD 1 = false ∧ v.getLsbD 8 = false ∧ v.getLsbD 9 = false) := by
    constructor
    · intro h
      exact ⟨by simpa using congrArg (BitVec.getLsbD · 1) h, by simpa using congrArg (BitVec.getLsbD · 8) h,
        by simpa using congrArg (BitVec.getLsbD · 9) h⟩
    · rintro ⟨h1, h8, h9⟩
      apply BitVec.eq_of_getLsbD_eq
      intro i hi
      rw [BitVec.getLsbD_and, BitVec.getLsbD_zero]
      rcases (by decide : ∀ i, i < 32 → (0x302#32).getLsbD i = false ∨ i = 1 ∨ i = 8 ∨ i = 9) i hi with h | rfl | rfl | rfl
      · rw [h, Bool.and_false]
      · rw [h1, Bool.false_and]
      · rw [h8, Bool.false_and]
      · rw [h9, Bool.false_and]
  unfold terminal
  cases h1 : v.getLsbD 1 <;> cases h8 : v.getLsbD 8 <;> cases h9 : v.getLsbD 9 <;> simp_all

@[simp] theorem terminal_readS (d : Draws) (s : State) : terminal (readS d s) = (s.done || s.err || s.clkt) := by
  simp [terminal_eq]

@[simp] theorem classify_readS (d : Draws) (s : State) :
    classify (readS d s) = if s.err then some .ackError else if s.clkt then some .timeoutError else none := by
  simp [classify]

@[simp] theorem dataReady_readS (d : Draws) (s : State) : dataReadyBit (readS d s) = flagRXD s := by
  simp [dataReadyBit]

/-! ### The fields of the other reads -/

theorem extractLsb'_append_low {m n : Nat} (a : BitVec m) (b : BitVec n) : (a ++ b).extractLsb' 0 n = b := by
  apply BitVec.eq_of_getLsbD_eq
  intro i hi
  rw [BitVec.getLsbD_extractLsb', BitVec.getLsbD_append]
  simp [hi]

theorem extractLsb'_append_high {m n : Nat} (a : BitVec m) (b : BitVec n) : (a ++ b).extractLsb' n m = a := by
  apply BitVec.eq_of_getLsbD_eq
  intro i hi
  rw [BitVec.getLsbD_extractLsb', BitVec.getLsbD_append]
  simp [hi]

end Sys2Proof.Machine
end

