-- ==== Sys2Proof/Laws/Effects.lean ====
section
/-! SUPPORT. What one host step can do to the block, whatever the instruction: at most one register access, and then host-side state only. And what a step of the machine can be. -/

namespace Sys2Proof.Machine

/-- The CLEAR action of a control write, if its CLEAR field is not 0 (R102, R103). -/
def cleared (data : Word) (s : State) : State := if data.extractLsb' 4 2 = 0#2 then s else clearFifo s

/-- What one register access can do to the block (R101 to R118), a fault or a refusal of it apart. -/
inductive RegEffect (s : State) : State → Prop where
  | none : RegEffect s s
  | pop (b : Byte) (rest : List Byte) (hf : s.fifo = b :: rest) (hd : s.eng = .idle ∨ s.xRead = true) :
      RegEffect s { s with fifo := rest }
  | push (b : Byte) (hd : s.eng = .idle ∨ s.xRead = false) (hl : s.fifo.length ≠ s.cfg.fifoDepth) :
      RegEffect s { s with fifo := s.fifo ++ [b] }
  | status (data : Word) : RegEffect s (writeStatus data s)
  | config (he : s.eng = .idle) (dlenW cdiv fedl redl tout : Half) (aAddr : Addr7) :
      RegEffect s { s with dlenW := dlenW, cdiv := cdiv, fedl := fedl, redl := redl, tout := tout, aAddr := aAddr }
  | control (he : s.eng = .idle) (data : Word) : RegEffect s (cleared data (storeControl data s))
  | start (he : s.eng = .idle) (data : Word) (hen : data.getLsbD 15 = true) (hl : s.dlenW ≠ 0#16)
      (hp : s.pinsRouted = true) : RegEffect s (latchTransfer (cleared data (storeControl data s)))

/-- What the rest of a host step can do: it leaves the block's registers, the Engine, the trace, the program and
the host's position alone, and never unroutes the pins. -/
def HostSide (s t : State) : Prop :=
  ∃ m p f r c v, t = { s with mapping := m, pinsRouted := p, faults := f, refused := r, call := c, result := v } ∧
    (s.pinsRouted = true → p = true) ∧ (∀ x, x ∈ s.faults → x ∈ f) ∧ (∀ x, s.refused = some x → r = some x)

/-- What one host step of an instruction can do. -/
def HostEffect (s t : State) : Prop := ∃ u, RegEffect s u ∧ HostSide u t

theorem HostSide.refl (s : State) : HostSide s s :=
  ⟨_, _, _, _, _, _, rfl, id, fun _ => id, fun _ => id⟩

theorem HostSide.trans {s t u : State} (h₁ : HostSide s t) (h₂ : HostSide t u) : HostSide s u := by
  obtain ⟨m, p, f, r, c, v, rfl, hp, hf, hr⟩ := h₁
  obtain ⟨m', p', f', r', c', v', rfl, hp', hf', hr'⟩ := h₂
  exact ⟨_, _, _, _, _, _, rfl, hp' ∘ hp, fun x h => hf' x (hf x h), fun x h => hr' x (hr x h)⟩

theorem HostSide.raise (f : Fault) (s : State) : HostSide s (s.raise f) :=
  ⟨_, _, _, _, _, _, rfl, id, fun x h => (mem_faults_raise f x s).2 (.inl h), fun _ => id⟩

theorem HostSide.refuse (r : Refusal) (s : State) : HostSide s (s.refuse r) :=
  ⟨_, _, _, _, _, _, rfl, id, fun _ => id, fun x h => by simp [h]⟩

theorem HostSide.ret (r : Result) (s : State) : HostSide s (s.ret r) :=
  ⟨_, _, _, _, _, _, rfl, id, fun _ => id, fun _ => id⟩

theorem HostSide.setCall (c : Option Call) (s : State) : HostSide s { s with call := c } :=
  ⟨_, _, _, _, _, _, rfl, id, fun _ => id, fun _ => id⟩

theorem HostSide.setResult (v : Option Value) (s : State) : HostSide s { s with result := v } :=
  ⟨_, _, _, _, _, _, rfl, id, fun _ => id, fun _ => id⟩

theorem HostEffect.of_side {s t : State} (h : HostSide s t) : HostEffect s t := ⟨s, .none, h⟩

theorem HostEffect.then_side {s t u : State} (h : HostEffect s t) (h' : HostSide t u) : HostEffect s u :=
  let ⟨v, hv, hs⟩ := h
  ⟨v, hv, hs.trans h'⟩

/-- What a stopped access leaves: `s`, or (a failed start) `s` with the C bits stored and the CLEAR done, and one
fault or refusal recorded. No access overflows a READ's buffer. -/
def StopOf (s t : State) : Prop :=
  ∃ u, (u = s ∨ (s.eng = .idle ∧ ∃ data, u = cleared data (storeControl data s))) ∧
    ((∃ f, (∀ c l, f ≠ .bufferOverflow c l) ∧ t = u.raise f) ∨ ∃ r, t = u.refuse r)

theorem StopOf.raise {s : State} (f : Fault) (hf : ∀ c l, f ≠ .bufferOverflow c l) : StopOf s (s.raise f) :=
  ⟨s, .inl rfl, .inl ⟨f, hf, rfl⟩⟩

theorem StopOf.start {s : State} (he : s.eng = .idle) (data : Word) (f : Fault)
    (hf : ∀ c l, f ≠ .bufferOverflow c l) : StopOf s ((cleared data (storeControl data s)).raise f) :=
  ⟨_, .inr ⟨he, data, rfl⟩, .inl ⟨f, hf, rfl⟩⟩

theorem StopOf.effect {s t : State} (h : StopOf s t) : HostEffect s t := by
  obtain ⟨u, hu, ht⟩ := h
  have hr : RegEffect s u := by
    rcases hu with rfl | ⟨he, data, rfl⟩
    · exact .none
    · exact .control he data
  refine ⟨u, hr, ?_⟩
  rcases ht with ⟨f, -, rfl⟩ | ⟨r, rfl⟩
  · exact .raise _ _
  · exact .refuse _ _

/-- What an access answers: a value and a register's effect, or a stop. -/
def Req.Sound {α : Type} (s : State) : Req α → Prop
  | .ok _ t => RegEffect s t
  | .stop t => StopOf s t

theorem accessFault_ne_overflow {off : Nat} {s : State} {f : Fault} (h : accessFault off s = some f) (c l : Nat) :
    f ≠ .bufferOverflow c l := by
  unfold accessFault at h
  rintro rfl
  split at h
  · simp at h
  · split at h
    · simp at h
    · split at h <;> simp at h

theorem memRead_sound (off : Nat) (d : Draws) (s : State) : (memRead off d s).Sound s := by
  unfold memRead
  split
  · next h => exact .raise _ (accessFault_ne_overflow h)
  · cases regAt off <;> simp only [readReg] <;> try exact RegEffect.none
    unfold popFifo
    split
    · exact StopOf.raise _ (by simp)
    · next h =>
      split
      · exact RegEffect.none
      · next b rest hf =>
        refine RegEffect.pop b rest hf ?_
        cases he : s.eng <;> simp_all

theorem memWrite_sound (off : Nat) (data : Word) (s : State) : (memWrite off data s).Sound s := by
  unfold memWrite
  split
  · next h => exact .raise _ (accessFault_ne_overflow h)
  · split
    · exact ⟨s, .inl rfl, .inr ⟨_, rfl⟩⟩
    · split
      · exact StopOf.raise _ (by simp)
      · next h =>
        cases hr : regAt off <;> simp only [writeReg] <;> rw [hr] at h <;> simp only [isConfigReg, true_and, ne_eq, not_not] at h
        · simp only [writeControl]
          have hc : RegEffect s (cleared data (storeControl data s)) := .control h data
          change Req.Sound s (if data.getLsbD 7 then startTransfer data (cleared data (storeControl data s))
            else .ok () (cleared data (storeControl data s)))
          split
          · unfold startTransfer
            split
            · exact StopOf.start h data _ (by simp)
            · split
              · exact StopOf.start h data _ (by simp)
              · split
                · exact StopOf.start h data _ (by simp)
                · next h₁ h₂ h₃ =>
                  refine RegEffect.start h data ?_ ?_ ?_
                  · revert h₁; unfold cleared; split <;> simp
                  · revert h₂; unfold cleared; split <;> simp
                  · revert h₃; unfold cleared; split <;> simp
          · exact hc
        · exact RegEffect.status data
        · exact RegEffect.config h _ _ _ _ _ _
        · exact RegEffect.config h _ _ _ _ _ _
        · unfold pushFifo
          split
          · exact StopOf.raise _ (by simp)
          · next hd =>
            split
            · exact RegEffect.none
            · next hl =>
              refine RegEffect.push _ ?_ hl
              cases he : s.eng <;> simp_all
        · exact RegEffect.config h _ _ _ _ _ _
        · exact RegEffect.config h _ _ _ _ _ _
        · exact RegEffect.config h _ _ _ _ _ _

theorem Req.Sound.andThen {α : Type} {s : State} {q : Req α} (h : q.Sound s) {k : α → State → State}
    (hk : ∀ v t, HostSide t (k v t)) : HostEffect s (q.andThen k) := by
  cases q with
  | ok v t => exact ⟨t, h, hk v t⟩
  | stop t => exact StopOf.effect h

theorem endRead_effect (off : Nat) (d : Draws) (s : State) : HostEffect s (endRead (memRead off d s)) := by
  have h := memRead_sound off d s
  cases hq : memRead off d s <;> rw [hq] at h
  · exact ⟨_, h, .setResult _ _⟩
  · exact StopOf.effect h

theorem endWrite_effect (off : Nat) (data : Word) (s : State) : HostEffect s (endWrite (memWrite off data s)) := by
  have h := memWrite_sound off data s
  cases hq : memWrite off data s <;> rw [hq] at h
  · exact ⟨_, h, .setResult _ _⟩
  · exact StopOf.effect h

/-- What a transaction's host step comes to has a host step's effect. -/
def TxnOut.Sound (s : State) : TxnOut → Prop
  | .more t => HostEffect s t
  | .wrote _ t => HostEffect s t
  | .got _ t => HostEffect s t

theorem goOn_sound {s u : State} (h : HostEffect s u) (t : Txn) : (goOn t u).Sound s := h.then_side (.setCall _ _)

theorem txnWrite_sound (off : Nat) (data : Word) (t : Txn) (s : State) : (txnWrite off data t s).Sound s := by
  unfold txnWrite
  have h := memWrite_sound off data s
  cases hq : memWrite off data s <;> rw [hq] at h
  · exact goOn_sound ⟨_, h, .refl _⟩ t
  · exact StopOf.effect h

theorem txnStatus_sound (s : State) (k : Word → State → TxnOut) (hk : ∀ v u, HostEffect s u → (k v u).Sound s) :
    (txnStatus s k).Sound s := by
  unfold txnStatus
  have h := memRead_sound 0x04 s.free s
  cases hq : memRead 0x04 s.free s <;> rw [hq] at h
  · exact hk _ _ ⟨_, h, .refl _⟩
  · exact StopOf.effect h

theorem testSnapshot_sound {s u : State} (t : Txn) (h : HostEffect s u) : (testSnapshot t u).Sound s := by
  unfold testSnapshot
  split
  · split
    · exact h
    · exact goOn_sound h _
  · exact goOn_sound h _

theorem takeOne_sound (t : Txn) (s : State) (k : Txn → State → TxnOut)
    (hk : ∀ t u, HostEffect s u → (k t u).Sound s) : (takeOne t s k).Sound s := by
  unfold takeOne
  split
  · exact HostEffect.of_side (.raise _ _)
  · have h := memRead_sound 0x10 s.free s
    cases hq : memRead 0x10 s.free s <;> rw [hq] at h
    · exact hk _ _ ⟨_, h, .refl _⟩
    · exact StopOf.effect h

theorem txnStep_sound (t : Txn) (s : State) : (txnStep t s).Sound s := by
  unfold txnStep
  split <;> try exact txnWrite_sound _ _ _ _
  · refine txnStatus_sound s _ fun v u h => ?_
    split
    · split <;> exact h
    · exact goOn_sound h _
  · refine txnStatus_sound s _ fun v u h => ?_
    split
    · exact goOn_sound h _
    · exact testSnapshot_sound _ h
  · exact takeOne_sound _ _ _ fun t u h => testSnapshot_sound t h
  · refine txnStatus_sound s _ fun v u h => ?_
    split
    · exact goOn_sound h _
    · exact h
  · exact takeOne_sound _ _ _ fun t u h => goOn_sound h _

theorem advance_sound (new : Txn) (s : State) : (advance new s).Sound s := by
  unfold advance
  split
  · exact txnStep_sound _ _
  · split
    · exact HostEffect.of_side (.raise _ _)
    · exact txnStep_sound _ _

theorem endTxn_effect {s : State} {o : TxnOut} (h : o.Sound s) : HostEffect s (endTxn o) := by
  unfold endTxn
  split <;> first | exact h | exact HostEffect.then_side h (.ret _ _)

theorem writeCommand_effect (bytes : List Byte) (s : State) : HostEffect s (writeCommand bytes s) := by
  have h := advance_sound (writeTxn bytes bytes.length) s
  unfold writeCommand
  split <;> next hq => rw [hq] at h; first | exact h | exact HostEffect.then_side h (.ret _ _)

theorem queryCommand_effect (bytes : List Byte) (n : Nat) (fin : Nat → List Byte → Result) (fail : ErrKind → Result)
    (s : State) : HostEffect s (queryCommand bytes n fin fail s) := by
  have h := advance_sound (writeTxn bytes bytes.length) s
  unfold queryCommand
  split <;> next hq =>
    rw [hq] at h
    first | exact h | exact HostEffect.then_side h (.setCall _ _) | exact HostEffect.then_side h (.ret _ _)

theorem mapBlock_side (base length : Nat) (s : State) (p : Bool) (hp : s.pinsRouted = true → p = true)
    (r : Mapping → Result) :
    HostSide s (match mapBlock base length s with
      | none => s.retErr .mapFailed
      | some m => { s with mapping := some m, pinsRouted := p }.ret (r m)) := by
  split
  · exact .ret _ _
  · exact ⟨_, _, _, _, _, _, rfl, hp, fun _ => id, fun _ => id⟩

theorem unmapBlock_side (s : State) : HostSide s (unmapBlock s) := by
  unfold unmapBlock
  split
  · exact ⟨_, _, _, _, _, _, rfl, id, fun _ => id, fun _ => id⟩
  · exact .raise _ _

/-- Every instruction is one host step of the form of R100: its own steps where the host may step. -/
theorem exec_eq_whenRunning (i : Instr) : ∃ k : State → State → State, ∀ s, exec i s = whenRunning s (k s) := by
  cases i <;> simp only [exec, execRdC, execWrC, execRdS, execWrS, execRdDlen, execWrDlen, execRdA, execWrA, execRdFifo,
    execWrFifo, execRdDiv, execWrDiv, execRdDel, execWrDel, execRdClkt, execWrClkt, execCrc8, execCrcchk, execInit,
    execDeinit, execSetClockFrequency, execGetSclFrequency, execGetCdiv, execSetClockTimeout, execGetClockTimeout,
    execSetSlaveAddress, execGetSlaveAddress, execWrite, execRead, execSetMaskedBits, execMap, execUnmap, execCmdNoArg,
    execCmdReadWord, execCmdWriteWord, execReadMeasurement, execDataReady, execSetMeasurementInterval, readRequest,
    writeRequest]
  all_goals exact ⟨fun _ s => _, fun _ => rfl⟩

/-- On a stopped host every instruction answers the stop that is recorded (R285, R288). -/
theorem exec_of_stopped (i : Instr) {s : State} (h : s.running = false) : exec i s = s.stopped := by
  obtain ⟨k, hk⟩ := exec_eq_whenRunning i
  rw [hk, whenRunning_of_stopped h]

/-- What one host step of any instruction can do: it answers a next state only where the host may step, with one
register access's effect on the block and host-side state for the rest. -/
theorem exec_effect {i : Instr} {s t : State} (h : exec i s = .next t) : s.running = true ∧ HostEffect s t := by
  cases i <;> simp only [exec, execRdC, execWrC, execRdS, execWrS, execRdDlen, execWrDlen, execRdA, execWrA, execRdFifo,
    execWrFifo, execRdDiv, execWrDiv, execRdDel, execWrDel, execRdClkt, execWrClkt, execCrc8, execCrcchk, execInit,
    execDeinit, execSetClockFrequency, execGetSclFrequency, execGetCdiv, execSetClockTimeout, execGetClockTimeout,
    execSetSlaveAddress, execGetSlaveAddress, execWrite, execRead, execSetMaskedBits, execMap, execUnmap, execCmdNoArg,
    execCmdReadWord, execCmdWriteWord, execReadMeasurement, execDataReady, execSetMeasurementInterval, readRequest,
    writeRequest] at h <;> obtain ⟨hr, rfl⟩ := (whenRunning_next_iff _ _ _).1 h <;> refine ⟨hr, ?_⟩
  all_goals first
    | exact endRead_effect _ _ _
    | exact endWrite_effect _ _ _
    | exact .of_side (.setResult _ _)
    | exact .of_side (unmapBlock_side _)
    | exact (memRead_sound _ _ _).andThen fun _ _ => .ret _ _
    | exact (memWrite_sound _ _ _).andThen fun _ _ => .ret _ _
    | exact endTxn_effect (advance_sound _ _)
    | exact writeCommand_effect _ _
    | exact queryCommand_effect _ _ _ _ _
    | skip
  · exact .of_side (mapBlock_side _ _ _ true (fun _ => rfl) fun _ => .ok .unit)
  · split
    · exact .of_side (.ret _ _)
    · exact (memWrite_sound _ _ _).andThen fun _ _ => .ret _ _
  · split
    · exact (memWrite_sound _ _ _).andThen fun _ _ => .ret _ _
    · exact (memRead_sound _ _ _).andThen fun _ _ => .setCall _ _
  · exact .of_side (mapBlock_side _ _ _ _ id fun m => .ok (.handle m))
  · split
    · exact .of_side (.ret _ _)
    · exact writeCommand_effect _ _

/-- What one register access leaves alone: everything of the host's side. -/
theorem RegEffect.host_side {s t : State} (h : RegEffect s t) :
    t.cfg = s.cfg ∧ t.call = s.call ∧ t.prog = s.prog ∧ t.pos = s.pos ∧ t.locals = s.locals ∧ t.faults = s.faults ∧
      t.refused = s.refused ∧ t.mapping = s.mapping ∧ t.pinsRouted = s.pinsRouted ∧ t.trace = s.trace := by
  cases h <;> (try unfold cleared) <;> (try split) <;> simp

theorem StopOf.call {s t : State} (h : StopOf s t) : t.call = s.call ∧ t.running = false := by
  obtain ⟨u, hu, ht⟩ := h
  have hr : u.call = s.call := by
    rcases hu with rfl | ⟨-, data, rfl⟩
    · rfl
    · unfold cleared; split <;> rfl
  rcases ht with ⟨f, -, rfl⟩ | ⟨r, rfl⟩ <;> simp [hr]

/-- A register read that answers a value has passed the checks of R100. -/
theorem memRead_ok {off : Nat} {d : Draws} {s t : State} {v : Word} (h : memRead off d s = .ok v t) :
    accessFault off s = none ∧ readReg (regAt off) d s = .ok v t := by
  unfold memRead at h
  split at h
  · cases h
  · next hf => exact ⟨hf, h⟩

/-- A register read stops with a fault, and nothing else changes. -/
theorem memRead_stop {off : Nat} {d : Draws} {s t : State} (h : memRead off d s = .stop t) :
    ∃ f, (∀ c l, f ≠ Fault.bufferOverflow c l) ∧ t = s.raise f := by
  unfold memRead at h
  split at h
  · next hf =>
    cases h
    exact ⟨_, accessFault_ne_overflow hf, rfl⟩
  · cases hr : regAt off <;> simp only [hr, readReg] at h <;> try cases h
    unfold popFifo at h
    split at h
    · cases h
      exact ⟨_, by simp, rfl⟩
    · split at h <;> cases h

/-- A register write of another register than C stops with a fault or a refusal, and nothing else changes. -/
theorem memWrite_stop {off : Nat} {data : Word} {s t : State} (h : memWrite off data s = .stop t)
    (hr : regAt off ≠ .C) :
    (∃ f, (∀ c l, f ≠ Fault.bufferOverflow c l) ∧ t = s.raise f) ∨ ∃ r, t = s.refuse r := by
  unfold memWrite at h
  split at h
  · next hf =>
    cases h
    exact .inl ⟨_, accessFault_ne_overflow hf, rfl⟩
  · split at h
    · cases h
      exact .inr ⟨_, rfl⟩
    · split at h
      · cases h
        exact .inl ⟨_, by simp, rfl⟩
      · cases hg : regAt off <;> simp only [hg, writeReg] at h <;> try cases h
        · exact absurd hg hr
        · unfold pushFifo at h
          split at h
          · cases h
            exact .inl ⟨_, by simp, rfl⟩
          · split at h <;> cases h

/-- The status read of a transaction answers the snapshot of the state it is taken in. -/
theorem memRead_status {d : Draws} {s t : State} {v : Word} (h : memRead 0x04 d s = .ok v t) :
    v = readS d s ∧ t = s := by
  have hr := (memRead_ok h).2
  cases hr
  exact ⟨rfl, rfl⟩

/-- A FIFO read with a byte queued pops that byte. -/
theorem memRead_fifo {d : Draws} {s t : State} {v : Word} (h : memRead 0x10 d s = .ok v t) {b : Byte}
    {rest : List Byte} (hf : s.fifo = b :: rest) :
    v.extractLsb' 0 8 = b ∧ t = { s with fifo := rest } ∧ (s.eng = .idle ∨ s.xRead = true) := by
  have hr : popFifo d s = .ok v t := (memRead_ok h).2
  simp only [popFifo, hf] at hr
  split at hr
  · cases hr
  · next hd =>
    cases hr
    refine ⟨extractLsb'_append_low _ _, rfl, ?_⟩
    cases he : s.eng <;> simp_all

/-- A register write that answers has passed the checks of R100. -/
theorem memWrite_ok {off : Nat} {data : Word} {s t : State} {v : Unit} (h : memWrite off data s = .ok v t) :
    accessFault off s = none ∧ data &&& (regAt off).reservedMask = 0#32 ∧
      (isConfigReg (regAt off) = true → s.eng = .idle) ∧ writeReg (regAt off) data s = .ok v t := by
  unfold memWrite at h
  split at h
  · cases h
  · next hf =>
    split at h
    · cases h
    · next hm =>
      split at h
      · cases h
      · next hc =>
        refine ⟨hf, by simpa using hm, fun hr => ?_, h⟩
        by_contra he
        exact hc ⟨hr, he⟩

end Sys2Proof.Machine
end

