-- ==== Sys2Proof/Laws/Host.lean ====
section
/-! SUPPORT. What one step of the machine can be: an Engine step, a host step of an instruction, a host step that touches no block state, or no step at all. -/

namespace Sys2Proof.Machine

theorem enabled_of_nextAgent {s : State} {a : Turn} (h : nextAgent s = some a) : enabled a s = true :=
  List.find?_some (p := fun a => enabled a s) h

theorem nextAgent_none_iff (s : State) : nextAgent s = none ↔ ∀ a, enabled a s = false := by
  unfold nextAgent
  rw [List.find?_eq_none]
  constructor
  · intro h a
    have : a ∈ offers s.turn := by cases a <;> cases s.turn <;> simp [offers]
    simpa using h a this
  · intro h a _
    simp [h a]

/-- The host is not offered a step once a fault or a refusal is recorded. -/
theorem running_of_nextAgent {s : State} (h : nextAgent s = some .host) : s.running = true := by
  have := enabled_of_nextAgent h
  simp [enabled] at this
  exact this.1

/-! ### The end of a run (R340) -/

/-- The run goes on exactly while the host has a step. -/
theorem outcome_none_iff (s : State) : outcome s = none ↔ enabled .host s = true := by
  unfold outcome enabled halted State.running
  cases s.faults <;> cases s.refused <;> cases s.hasLine <;> cases labelsDefined s.prog <;> simp

/-- The outcome depends on nothing of the block's registers, FIFO and Engine. -/
theorem outcome_congr {s t : State} (h1 : t.faults = s.faults) (h2 : t.refused = s.refused) (h3 : t.prog = s.prog)
    (h4 : t.pos = s.pos) (h5 : t.result = s.result) : outcome t = outcome s := by
  simp [outcome, halted, State.hasLine, State.line, h1, h2, h3, h4, h5]

/-- The host's own bookkeeping after an instruction's step: the result bound and the position advanced, or nothing. -/
theorem endStep_cases (dst : Option Nat) (s : State) :
    endStep dst s = s ∨ (s.running = true ∧ s.call = none ∧ ∃ l p, endStep dst s = { s with locals := l, pos := p }) := by
  unfold endStep
  split
  · next h =>
    simp only [Bool.and_eq_true, Option.isNone_iff_eq_none] at h
    refine .inr ⟨h.1, h.2, ?_⟩
    unfold State.bindResult
    split
    · exact ⟨_, _, rfl⟩
    · exact ⟨_, _, rfl⟩
  · exact .inl rfl

/-- What a host step can be (R90): the refusal of the program or of a port word, one step of the instruction the
host stands at, or a step on host-local state alone while no procedure's line is current. -/
theorem hostStep_cases {s t : State} (h : hostStep s = .next t) :
    (∃ r, t = tick s (s.refuse r)) ∨
    (∃ i dst u, currentInstr s = some i ∧ exec i s = .next u ∧ t = tick s (endStep dst u)) ∨
    (currentInstr s = none ∧ ∃ l p, t = tick s { s with locals := l, pos := p }) ∨
    (s.line = none ∧ t = s) := by
  unfold hostStep at h
  split at h
  · cases h
    exact .inl ⟨_, rfl⟩
  · split at h
    · next hl =>
      cases h
      exact .inr (.inr (.inr ⟨hl, rfl⟩))
    · next l hl =>
      split at h
      · next w dst hw =>
        unfold requestStep at h
        split at h
        · cases h
          exact .inl ⟨_, rfl⟩
        · next i hi =>
          split at h
          · next u hu =>
            cases h
            exact .inr (.inl ⟨i, dst, u, by simp [currentInstr, hl, hw, hi], hu, rfl⟩)
          · cases h
          · cases h
      · next hw =>
        cases h
        have hc : currentInstr s = none := by simp [currentInstr, hl, hw]
        have key : (∃ r, localStep l.op s = s.refuse r) ∨ ∃ ls p, localStep l.op s = { s with locals := ls, pos := p } := by
          have hj : ∀ target, (∃ r, s.jump target = s.refuse r) ∨ ∃ ls p, s.jump target = { s with locals := ls, pos := p } := by
            intro target
            unfold State.jump
            split
            · exact .inr ⟨_, _, rfl⟩
            · exact .inl ⟨_, rfl⟩
          unfold localStep
          split
          · split
            · exact hj _
            · exact .inr ⟨_, _, rfl⟩
          · split
            · exact .inr ⟨_, _, rfl⟩
            · exact hj _
          · exact hj _
          · exact .inr ⟨_, _, rfl⟩
          · exact .inr ⟨_, _, rfl⟩
        rcases key with ⟨r, hr⟩ | ⟨ls, p, hp⟩
        · exact .inl ⟨r, by rw [hr]⟩
        · exact .inr (.inr (.inl ⟨hc, ls, p, by rw [hp]⟩))

/-! ### RXC -/

theorem appended_of_room (d : Draws) (v : Byte) {s : State} (h : s.fifo.length < s.cfg.fifoDepth) :
    appended d v s = s.fifo ++ [v] := if_pos h

/-- Where the FIFO is full, one byte is lost, the new one or one that was there. -/
theorem appended_of_full (d : Draws) (v : Byte) {s : State} (h : ¬ s.fifo.length < s.cfg.fifoDepth) :
    ∃ k, k ≤ s.fifo.length ∧ appended d v s = (s.fifo ++ [v]).eraseIdx k :=
  ⟨d.lost % (s.fifo.length + 1), Nat.le_of_lt_succ (Nat.mod_lt _ (Nat.succ_pos _)), if_neg h⟩

/-- The FIFO grows only where it has room. -/
theorem appended_length (d : Draws) (v : Byte) (s : State) :
    (appended d v s).length = if s.fifo.length < s.cfg.fifoDepth then s.fifo.length + 1 else s.fifo.length := by
  split
  · next h => simp [appended_of_room d v h]
  · next h =>
    obtain ⟨k, hk, he⟩ := appended_of_full d v h
    rw [he, List.length_eraseIdx_of_lt (by simp; omega)]
    simp

/-- The Engine's commit step empties the stage and appends its byte to the FIFO. -/
theorem commitStep_move {s : State} (d : Draws) (h : commitEnabled s = true) :
    ∃ v, s.rxStage = some v ∧ commitStep d s = { s with fifo := appended d v s, rxStage := none } := by
  simp only [commitEnabled, Bool.and_eq_true] at h
  obtain ⟨v, hv⟩ := Option.isSome_iff_exists.1 h.1
  exact ⟨v, hv, by simp [commitStep, hv]⟩

/-- What one step of the machine can be. -/
theorem step_cases {s t : State} (h : step s = .next t) :
    (phaseEnabled s = true ∧ t = tick s (phaseStep s.free s)) ∨
    (commitEnabled s = true ∧ t = tick s (commitStep s.free s)) ∨
    (∃ r, enabled .host s = true ∧ t = tick s (s.refuse r)) ∨
    (∃ i dst u, enabled .host s = true ∧ currentInstr s = some i ∧ exec i s = .next u ∧ t = tick s (endStep dst u)) ∨
    (enabled .host s = true ∧ currentInstr s = none ∧ ∃ l p, t = tick s { s with locals := l, pos := p }) ∨
    t = s := by
  unfold step systemStep at h
  split at h
  · next ha =>
    have hr := enabled_of_nextAgent ha
    rcases hostStep_cases h with ⟨r, rfl⟩ | ⟨i, dst, u, hc, he, rfl⟩ | ⟨hc, l, p, rfl⟩ | ⟨-, rfl⟩
    · exact .inr (.inr (.inl ⟨r, hr, rfl⟩))
    · exact .inr (.inr (.inr (.inl ⟨i, dst, u, hr, hc, he, rfl⟩)))
    · exact .inr (.inr (.inr (.inr (.inl ⟨hr, hc, l, p, rfl⟩))))
    · exact .inr (.inr (.inr (.inr (.inr rfl))))
  · next ha =>
    cases h
    exact .inl ⟨enabled_of_nextAgent ha, rfl⟩
  · next ha =>
    cases h
    exact .inr (.inl ⟨enabled_of_nextAgent ha, rfl⟩)
  · unfold State.stopped at h
    split at h
    · cases h
    · cases h
    · cases h
      exact .inr (.inr (.inr (.inr (.inr rfl))))

/-- A property of the block's state is kept by every step if each kind of move keeps it. -/
theorem step_keeps (P : State → Prop)
    (htick : ∀ s t, P t → P (tick s t))
    (hlocals : ∀ s l p, P s → P { s with locals := l, pos := p })
    (hside : ∀ s t, P s → HostSide s t → P t)
    (hreg : ∀ s t, P s → RegEffect s t → P t)
    (hengine : ∀ s t, P s → EngineMove s t → P t)
    (hcommit : ∀ d s v, P s → s.rxStage = some v → P { s with fifo := appended d v s, rxStage := none })
    {s t : State} (h : P s) (hs : step s = .next t) : P t := by
  rcases step_cases hs with
    ⟨hp, rfl⟩ | ⟨hc, rfl⟩ | ⟨r, -, rfl⟩ | ⟨i, dst, u, -, -, he, rfl⟩ | ⟨-, -, l, p, rfl⟩ | rfl
  · exact htick _ _ (hengine _ _ h (phaseStep_move _ _ hp))
  · obtain ⟨v, hv, he⟩ := commitStep_move s.free hc
    rw [he]
    exact htick _ _ (hcommit _ _ _ h hv)
  · exact htick _ _ (hside _ _ h (.refuse _ _))
  · obtain ⟨-, v, hr, hsd⟩ := exec_effect he
    apply htick
    have := hside _ _ (hreg _ _ h hr) hsd
    rcases endStep_cases dst u with h' | ⟨-, -, l, p, h'⟩ <;> rw [h']
    · exact this
    · exact hlocals _ _ _ this
  · exact htick _ _ (hlocals _ _ _ h)
  · exact h

end Sys2Proof.Machine
end

