-- ==== Sys2Proof/Laws/Calls.lean ====
section
/-! SUPPORT. The procedure that runs: a host step of an instruction leaves a call that the instruction owns, and every step of the machine keeps `CallOwned`. -/

namespace Sys2Proof.Machine

/-- How a host step of a transaction leaves the call: the transaction goes on in its own direction, or it ends as
its direction says. -/
def TxnCall (t : Txn) (s : State) : TxnOut → Prop
  | .more u => u.call = s.call ∨ ∃ t', u.call = some (.txn t') ∧ t'.dir = t.dir ∧ t'.pos.dir = t'.dir
  | .wrote _ _ => t.dir = .write
  | .got _ _ => t.dir = .read

theorem txnWrite_call (off : Nat) (data : Word) (t t0 : Txn) (s : State) (h : t.dir = t0.dir) (h' : t.pos.dir = t.dir) :
    TxnCall t0 s (txnWrite off data t s) := by
  unfold txnWrite
  have hq := memWrite_sound off data s
  split
  · exact .inr ⟨t, rfl, h, h'⟩
  · next hs =>
    rw [hs] at hq
    exact .inl hq.call.1

theorem txnStatus_call (t : Txn) (s : State) (k : Word → State → TxnOut) (hk : ∀ v, TxnCall t s (k v s)) :
    TxnCall t s (txnStatus s k) := by
  unfold txnStatus
  have hq := memRead_sound 0x04 s.free s
  split
  · next v u hs =>
    have := (memRead_ok hs).2
    have hr : regAt 4 = .S := by decide
    rw [hr] at this
    simp only [readReg] at this
    cases this
    exact hk _
  · next hs =>
    rw [hs] at hq
    exact .inl hq.call.1

theorem takeOne_call (t : Txn) (s : State) (k : Txn → State → TxnOut)
    (hk : ∀ v u, TxnCall t s (k { t with buffer := t.buffer ++ [v], count := t.count + 1 } u)) :
    TxnCall t s (takeOne t s k) := by
  unfold takeOne
  split
  · exact .inl rfl
  · have hq := memRead_sound 0x10 s.free s
    split
    · next v u hs => exact hk _ _
    · next hs =>
      rw [hs] at hq
      exact .inl hq.call.1

/-- Every host step of a transaction leaves the call as `TxnCall` says. -/
theorem txnStep_call (t : Txn) (s : State) (h : t.pos.dir = t.dir) : TxnCall t s (txnStep t s) := by
  cases hp : t.pos with
  | wClear =>
    rw [hp] at h
    simp only [txnStep, hp]
    exact txnWrite_call _ _ _ _ _ rfl h
  | wPush i =>
    rw [hp] at h
    simp only [txnStep, hp]
    refine txnWrite_call _ _ _ _ _ rfl ?_
    split <;> exact h
  | wLen =>
    rw [hp] at h
    simp only [txnStep, hp]
    exact txnWrite_call _ _ _ _ _ rfl h
  | wStat =>
    rw [hp] at h
    simp only [txnStep, hp]
    exact txnWrite_call _ _ _ _ _ rfl h
  | wStart =>
    rw [hp] at h
    simp only [txnStep, hp]
    exact txnWrite_call _ _ _ _ _ rfl h
  | rLen =>
    rw [hp] at h
    simp only [txnStep, hp]
    exact txnWrite_call _ _ _ _ _ rfl h
  | rStat =>
    rw [hp] at h
    simp only [txnStep, hp]
    exact txnWrite_call _ _ _ _ _ rfl h
  | rStart =>
    rw [hp] at h
    simp only [txnStep, hp]
    exact txnWrite_call _ _ _ _ _ rfl h
  | wPoll =>
    rw [hp] at h
    simp only [txnStep, hp]
    refine txnStatus_call _ _ _ fun v => ?_
    split
    · split <;> exact h.symm
    · exact .inr ⟨_, rfl, rfl, by simpa [hp] using h⟩
  | rLoop =>
    rw [hp] at h
    simp only [txnStep, hp]
    refine txnStatus_call _ _ _ fun v => ?_
    split
    · exact .inr ⟨_, rfl, rfl, h⟩
    · unfold testSnapshot
      split
      · split
        · exact h.symm
        · exact .inr ⟨_, rfl, rfl, h⟩
      · exact .inr ⟨_, rfl, rfl, h⟩
  | rTake =>
    rw [hp] at h
    simp only [txnStep, hp]
    refine takeOne_call _ _ _ fun v u => ?_
    unfold testSnapshot
    split
    · split
      · exact h.symm
      · exact .inr ⟨_, rfl, rfl, h⟩
    · exact .inr ⟨_, rfl, rfl, h⟩
  | rDrain =>
    rw [hp] at h
    simp only [txnStep, hp]
    refine txnStatus_call _ _ _ fun v => ?_
    split
    · exact .inr ⟨_, rfl, rfl, h⟩
    · exact h.symm
  | rDrainTake =>
    rw [hp] at h
    simp only [txnStep, hp]
    exact takeOne_call _ _ _ fun v u => .inr ⟨_, rfl, rfl, h⟩

/-- The call that runs, if any, is one the instruction owns, at a position of its own direction. -/
def CallOf (i : Instr) (s : State) : Prop :=
  ∀ c, s.call = some c → owns i c = true ∧ ∀ t, c = .txn t → t.pos.dir = t.dir

theorem CallOf.txn {i : Instr} {s : State} {t : Txn} (h : CallOf i s) (hc : s.call = some (.txn t)) :
    t.pos.dir = t.dir :=
  (h _ hc).2 _ rfl

theorem callOf_same {i : Instr} {s t : State} (h : CallOf i s) (hc : t.call = s.call) : CallOf i t :=
  fun c hc' => h c (hc ▸ hc')

theorem callOf_txn {i : Instr} {s : State} {t : Txn} (hc : s.call = some (.txn t)) (ho : owns i (.txn t) = true)
    (hp : t.pos.dir = t.dir) : CallOf i s := by
  intro c hc'
  rw [hc] at hc'
  cases hc'
  exact ⟨ho, fun t ht => by cases ht; exact hp⟩

theorem callOf_none {i : Instr} {s : State} (hc : s.call = none) : CallOf i s := by
  intro c hc'
  rw [hc] at hc'
  cases hc'

theorem advance_call (new : Txn) (i) (s : State) (h : CallOf i s) (hnew : new.pos.dir = new.dir) :
    (∃ t, s.call = some (.txn t) ∧ advance new s = txnStep t s ∧ TxnCall t s (advance new s)) ∨
    ((∀ t, s.call ≠ some (.txn t)) ∧ new.violates s = true ∧
      advance new s = .more (s.raise (.contractViolation new.length))) ∨
    ((∀ t, s.call ≠ some (.txn t)) ∧ new.violates s = false ∧
      advance new s = txnStep new s ∧ TxnCall new s (advance new s)) := by
  unfold advance
  split
  · next t ht => exact .inl ⟨t, ht, rfl, txnStep_call _ _ (h.txn ht)⟩
  · next hn =>
    split
    · next hv => exact .inr (.inl ⟨fun t h => hn t h, hv, rfl⟩)
    · next hv => exact .inr (.inr ⟨fun t h => hn t h, by simpa using hv, rfl, txnStep_call _ _ hnew⟩)

/-- A procedure that is one WRITE keeps its call; `fin` is how it ends. -/
theorem callOf_write (bytes len i) (s : State) (fin : TxnOut → State) (h : CallOf i s)
   (ho : ∀ t, owns i (.txn t) = (t.dir == .write))
   (hm : ∀ u, fin (.more u) = u) (hw : ∀ r u, (fin (.wrote r u)).call = none) :
   CallOf i (fin (advance (writeTxn bytes len) s)) := by
  rcases advance_call (writeTxn bytes len) i s h rfl with ⟨t, ht, -, hc⟩ | ⟨-, -, hc⟩ | ⟨-, -, -, hc⟩
  · have hd : t.dir = .write := by simpa [ho] using (h _ ht).1
    cases ha : advance (writeTxn bytes len) s with
    | more u =>
      rw [ha] at hc
      rw [hm]
      rcases hc with hc | ⟨t', hc, hd', hp⟩
      · exact callOf_same h hc
      · exact callOf_txn hc (by simp [ho, hd', hd]) hp
    | wrote r u => exact callOf_none (hw _ _)
    | got r u => rw [ha] at hc; simp only [TxnCall] at hc; simp [hd] at hc
  · rw [hc, hm]
    exact h
  · cases ha : advance (writeTxn bytes len) s with
    | more u =>
      rw [ha] at hc
      rw [hm]
      rcases hc with hc | ⟨t', hc, hd', hp⟩
      · exact callOf_same h hc
      · exact callOf_txn hc (by simp [ho, hd', writeTxn]) hp
    | wrote r u => exact callOf_none (hw _ _)
    | got r u => rw [ha] at hc; simp [TxnCall, writeTxn] at hc

/-- A procedure that is one READ keeps its call; `fin` is how it ends. -/
theorem callOf_read (len i) (s : State) (fin : TxnOut → State) (h : CallOf i s)
   (ho : ∀ t, owns i (.txn t) = (t.dir == .read))
   (hm : ∀ u, fin (.more u) = u) (hw : ∀ r u, (fin (.got r u)).call = none) :
   CallOf i (fin (advance (readTxn len) s)) := by
  rcases advance_call (readTxn len) i s h rfl with ⟨t, ht, -, hc⟩ | ⟨-, -, hc⟩ | ⟨-, -, -, hc⟩
  · have hd : t.dir = .read := by simpa [ho] using (h _ ht).1
    cases ha : advance (readTxn len) s with
    | more u =>
      rw [ha] at hc
      rw [hm]
      rcases hc with hc | ⟨t', hc, hd', hp⟩
      · exact callOf_same h hc
      · exact callOf_txn hc (by simp [ho, hd', hd]) hp
    | got r u => exact callOf_none (hw _ _)
    | wrote r u => rw [ha] at hc; simp only [TxnCall] at hc; simp [hd] at hc
  · rw [hc, hm]
    exact h
  · cases ha : advance (readTxn len) s with
    | more u =>
      rw [ha] at hc
      rw [hm]
      rcases hc with hc | ⟨t', hc, hd', hp⟩
      · exact callOf_same h hc
      · exact callOf_txn hc (by simp [ho, hd', readTxn]) hp
    | got r u => exact callOf_none (hw _ _)
    | wrote r u => rw [ha] at hc; simp [TxnCall, readTxn] at hc

/-- A procedure that is a WRITE and then a READ keeps its call. -/
theorem callOf_query (bytes n i fin fail) (s : State) (h : CallOf i s)
   (ho : ∀ t, owns i (.txn t) = true) :
   CallOf i (queryCommand bytes n fin fail s) := by
  unfold queryCommand
  have key : ∀ t, TxnCall t s (advance (writeTxn bytes bytes.length) s) →
      CallOf i (queryCommand bytes n fin fail s) := by
    intro t hc
    unfold queryCommand
    split
    · next u ha =>
      rw [ha] at hc
      rcases hc with hc | ⟨t', hc, hd', hp⟩
      · exact callOf_same h hc
      · exact callOf_txn hc (ho _) hp
    · exact callOf_txn rfl (ho _) rfl
    all_goals exact callOf_none rfl
  rcases advance_call (writeTxn bytes bytes.length) i s h rfl with ⟨t, ht, -, hc⟩ | ⟨-, -, hc⟩ | ⟨-, -, -, hc⟩
  · exact key _ hc
  · simp only [hc]
    exact h
  · exact key _ hc

theorem callOf_side {i : Instr} {s t : State} (h : CallOf i s) (hc : t.call = s.call ∨ t.call = none) : CallOf i t := by
  intro c hc'
  rcases hc with hc | hc
  · exact h c (hc ▸ hc')
  · rw [hc] at hc'
    cases hc'

theorem endRead_call (off d s) : (endRead (memRead off d s)).call = s.call := by
  have hq := memRead_sound off d s
  cases h : memRead off d s <;> rw [h] at hq
  · exact hq.host_side.2.1
  · exact hq.call.1
theorem endWrite_call (off d s) : (endWrite (memWrite off d s)).call = s.call := by
  have hq := memWrite_sound off d s
  cases h : memWrite off d s <;> rw [h] at hq
  · exact hq.host_side.2.1
  · exact hq.call.1
theorem readRet_call (off d s) (k : Word → State → State) (hk : ∀ v t, (k v t).call = none) :
   ((memRead off d s).andThen k).call = s.call ∨ ((memRead off d s).andThen k).call = none := by
  have hq := memRead_sound off d s
  cases h : memRead off d s <;> rw [h] at hq
  · exact .inr (hk _ _)
  · exact .inl hq.call.1
theorem writeRet_call (off d s) (k : Unit → State → State) (hk : ∀ v t, (k v t).call = none) :
   ((memWrite off d s).andThen k).call = s.call ∨ ((memWrite off d s).andThen k).call = none := by
  have hq := memWrite_sound off d s
  cases h : memWrite off d s <;> rw [h] at hq
  · exact .inr (hk _ _)
  · exact .inl hq.call.1

theorem masked_call (off v m d) (s : State) (h : CallOf (.setMaskedBits off v m) s) :
    CallOf (.setMaskedBits off v m) ((memRead off d s).andThen fun t s => { s with call := some (.masked t) }) := by
  have hq := memRead_sound off d s
  cases hm : memRead off d s <;> rw [hm] at hq
  · intro c hc; cases hc; exact ⟨rfl, fun t ht => by cases ht⟩
  · exact callOf_side h (.inl hq.call.1)

/-- How a command that is one WRITE ends (R262, R263). -/
def endCommand : TxnOut → State
  | .more s => s
  | .wrote (.ok _) s => s.retOk .unit
  | .got (.ok _) s => s.retOk .unit
  | .wrote (.error k) s => s.retErr k
  | .got (.error k) s => s.retErr k

theorem writeCommand_eq (bytes : List Byte) (s : State) :
    writeCommand bytes s = endCommand (advance (writeTxn bytes bytes.length) s) := by
  unfold writeCommand endCommand
  rfl

/-- One host step of any instruction leaves only a call that the instruction owns. -/
theorem exec_call {i : Instr} {s u : State} (h : CallOf i s) (he : exec i s = .next u) : CallOf i u := by
  cases i <;> simp only [exec, execRdC, execWrC, execRdS, execWrS, execRdDlen, execWrDlen, execRdA, execWrA, execRdFifo,
    execWrFifo, execRdDiv, execWrDiv, execRdDel, execWrDel, execRdClkt, execWrClkt, execCrc8, execCrcchk, execInit,
    execDeinit, execSetClockFrequency, execGetSclFrequency, execGetCdiv, execSetClockTimeout, execGetClockTimeout,
    execSetSlaveAddress, execGetSlaveAddress, execWrite, execRead, execSetMaskedBits, execMap, execUnmap, execCmdNoArg,
    execCmdReadWord, execCmdWriteWord, execReadMeasurement, execDataReady, execSetMeasurementInterval, readRequest,
    writeRequest] at he <;> obtain ⟨hr, rfl⟩ := (whenRunning_next_iff _ _ _).1 he
  all_goals first
    | exact callOf_side h (.inl (endRead_call _ _ _))
    | exact callOf_side h (.inl (endWrite_call _ _ _))
    | exact callOf_side h (.inl rfl)
    | exact callOf_side h (readRet_call _ _ _ _ fun _ _ => rfl)
    | exact callOf_side h (writeRet_call _ _ _ _ fun _ _ => rfl)
    | exact callOf_query _ _ _ _ _ _ h fun _ => rfl
    | exact callOf_read _ _ _ endTxn h (fun _ => rfl) (fun _ => rfl) (fun r _ => by rcases r with _ | ⟨_, _⟩ <;> rfl)
    | exact callOf_write _ _ _ _ endTxn h (fun _ => rfl) (fun _ => rfl) (fun r _ => by cases r <;> rfl)
    | skip
  · split
    · exact callOf_side h (.inr rfl)
    · exact callOf_side h (.inr rfl)
  · unfold unmapBlock
    split
    · exact callOf_side h (.inr rfl)
    · exact callOf_side h (.inl rfl)
  · split
    · exact callOf_side h (.inr rfl)
    · exact callOf_side h (writeRet_call _ _ _ _ fun _ _ => rfl)
  · split
    · exact callOf_side h (writeRet_call _ _ _ _ fun _ _ => rfl)
    · exact masked_call _ _ _ _ _ h
  · split
    · exact callOf_side h (.inr rfl)
    · exact callOf_side h (.inr rfl)
  · unfold unmapBlock
    split
    · exact callOf_side h (.inr rfl)
    · exact callOf_side h (.inl rfl)
  · rw [writeCommand_eq]
    exact callOf_write _ _ _ _ endCommand h (fun _ => rfl) (fun _ => rfl) (fun r _ => by cases r <;> rfl)
  · rw [writeCommand_eq]
    exact callOf_write _ _ _ _ endCommand h (fun _ => rfl) (fun _ => rfl) (fun r _ => by cases r <;> rfl)
  · split
    · exact callOf_side h (.inr rfl)
    · rw [writeCommand_eq]
      exact callOf_write _ _ _ _ endCommand h (fun _ => rfl) (fun _ => rfl) (fun r _ => by cases r <;> rfl)

theorem currentInstr_congr {s t : State} (h1 : t.prog = s.prog) (h2 : t.pos = s.pos) (h3 : t.locals = s.locals) :
    currentInstr t = currentInstr s := by
  simp [currentInstr, State.line, h1, h2, h3]

/-- A host step of an instruction moves neither the program nor the host. -/
theorem exec_static {i : Instr} {s u : State} (he : exec i s = .next u) :
    u.prog = s.prog ∧ u.pos = s.pos ∧ u.locals = s.locals := by
  obtain ⟨-, v, hr, m, p, f, r, c, w, rfl, -⟩ := exec_effect he
  have := hr.host_side
  simp_all

theorem owned_congr {s t : State} (h : CallOwned s) (h1 : t.prog = s.prog) (h2 : t.pos = s.pos)
    (h3 : t.locals = s.locals) (h4 : t.call = s.call) : CallOwned t := by
  intro c hc
  rw [currentInstr_congr h1 h2 h3]
  exact h c (h4 ▸ hc)

theorem owned_none {t : State} (h4 : t.call = none) : CallOwned t := by
  intro c hc
  rw [h4] at hc
  cases hc

theorem owned_of {i : Instr} {s : State} (h : CallOwned s) (hc : currentInstr s = some i) : CallOf i s := by
  intro c hc'
  obtain ⟨⟨j, hj, ho⟩, hp⟩ := h c hc'
  rw [hc] at hj
  cases hj
  exact ⟨ho, hp⟩

theorem call_of_none {s : State} (h : CallOwned s) (hc : currentInstr s = none) : s.call = none := by
  cases hc' : s.call with
  | none => rfl
  | some c => obtain ⟨⟨j, hj, ho⟩, hp⟩ := h c hc'; rw [hc] at hj; cases hj

/-- Every step keeps `CallOwned`. -/
theorem step_owned {s t : State} (h : CallOwned s) (hs : step s = .next t) : CallOwned t := by
  rcases step_cases hs with
    ⟨hp, rfl⟩ | ⟨hc, rfl⟩ | ⟨r, -, rfl⟩ | ⟨i, dst, u, -, hi, he, rfl⟩ | ⟨-, hn, l, p, rfl⟩ | rfl
  · have := (phaseStep_move s.free _ hp).host_side
    exact owned_congr h (by simp [this]) (by simp [this]) (by simp [this]) (by simp [this])
  · obtain ⟨v, hv, he⟩ := commitStep_move s.free hc
    exact owned_congr h (by simp [he]) (by simp [he]) (by simp [he]) (by simp [he])
  · exact owned_congr h rfl rfl rfl rfl
  · have hu := exec_call (owned_of h hi) he
    have hst := exec_static he
    rcases endStep_cases dst u with h' | ⟨-, hcn, l, p, h'⟩ <;> rw [h']
    · intro c hc
      rw [tick_call] at hc
      have hi' : currentInstr (tick s u) = currentInstr s :=
        currentInstr_congr (by simp [hst]) (by simp [hst]) (by simp [hst])
      rw [hi']
      exact ⟨⟨i, hi, (hu c hc).1⟩, (hu c hc).2⟩
    · exact owned_none (by simpa using hcn)
  · exact owned_none (by simpa using call_of_none h hn)
  · exact h

end Sys2Proof.Machine
end

