-- ==== Sys2Proof/Laws/Crc.lean ====
section
/-! SUPPORT. The CRC unit is linear over exclusive or, and the groups of a frame by index. -/

namespace Sys2Proof.Machine

theorem crcShift_xor (a b : Byte) : crcShift (a ^^^ b) = crcShift a ^^^ crcShift b := by
  unfold crcShift
  rw [BitVec.getLsbD_xor, BitVec.shiftLeft_xor_distrib]
  cases a.getLsbD 7 <;> cases b.getLsbD 7 <;> simp
  · rw [BitVec.xor_assoc]
  · rw [BitVec.xor_assoc, BitVec.xor_comm (b <<< 1), ← BitVec.xor_assoc]
  · rw [BitVec.xor_assoc, ← BitVec.xor_assoc (0x31#8), BitVec.xor_comm (0x31#8) (b <<< 1), BitVec.xor_assoc (b <<< 1)]
    simp

theorem crcShifts_xor (n : Nat) : ∀ a b : Byte, crcShifts n (a ^^^ b) = crcShifts n a ^^^ crcShifts n b := by
  induction n with
  | zero =>
    intros
    rfl
  | succ n ih =>
    intro a b
    simp only [crcShifts]
    rw [crcShift_xor, ih]

/-- The CRC of a changed word is the CRC of the word, changed by what depends on the change alone. -/
theorem crc8_xor (a b x y : Byte) : crc8 (a ^^^ x) (b ^^^ y) = crc8 a b ^^^ crcByte (crcByte 0#8 x) y := by
  simp only [crc8, crcByte]
  have h : (0#8 : Byte) ^^^ x = x := BitVec.zero_xor
  rw [← BitVec.xor_assoc (0xFF#8), crcShifts_xor 8 _ x, h, ← crcShifts_xor 8 _ (_ ^^^ y)]
  congr 1
  ac_rfl

@[simp] theorem groups_cons (b0 b1 ck : Byte) (rest : List Byte) :
    groups (b0 :: b1 :: ck :: rest) = (b0, b1, ck) :: groups rest := rfl

@[simp] theorem groups_nil : groups [] = [] := rfl

theorem groupValid_iff (b0 b1 ck : Byte) : groupValid (b0, b1, ck) = true ↔ crc8 b0 b1 = ck := by simp [groupValid]

theorem validate_short {r : List Byte} {n : Nat} (h : r.length ≠ 3 * n) : validate r n = .error .shortRead := by
  simp [validate, h]

end Sys2Proof.Machine
end

