-- ==== Sys2Proof/Laws/Operands.lean ====
section
/-! SUPPORT. Binding a host-local name: what it reads as afterwards, and that the canonical form is kept; an operand that fits. -/

namespace Sys2Proof.Machine

theorem getLocal_setLocal_same (n : Nat) (v : Value) (l : List (Nat × Value)) : getLocal n (setLocal n v l) = some v := by
  induction l with
  | nil => simp [setLocal, getLocal]
  | cons a l ih =>
    obtain ⟨k, w⟩ := a
    unfold setLocal
    split
    · simp [getLocal]
    · split
      · simp [getLocal]
      · next h₁ h₂ =>
        rw [getLocal, if_neg (Ne.symm h₂)]
        exact ih

theorem getLocal_setLocal_other {n m : Nat} (h : m ≠ n) (v : Value) (l : List (Nat × Value)) :
    getLocal m (setLocal n v l) = getLocal m l := by
  induction l with
  | nil => simp [setLocal, getLocal, Ne.symm h]
  | cons a l ih =>
    obtain ⟨k, w⟩ := a
    unfold setLocal
    split
    · simp [getLocal, Ne.symm h]
    · split
      · next hk =>
        subst hk
        simp [getLocal, Ne.symm h]
      · simp only [getLocal, ih]

theorem lt_setLocal {m n : Nat} {v : Value} {l : List (Nat × Value)} (hl : ∀ a ∈ l, m < a.1) (hn : m < n) :
    ∀ a ∈ setLocal n v l, m < a.1 := by
  induction l with
  | nil => simpa [setLocal] using hn
  | cons a l ih =>
    obtain ⟨k, w⟩ := a
    simp only [List.forall_mem_cons] at hl
    unfold setLocal
    split
    · simp only [List.forall_mem_cons]
      exact ⟨hn, hl.1, hl.2⟩
    · split
      · simp only [List.forall_mem_cons]
        exact ⟨hn, hl.2⟩
      · simp only [List.forall_mem_cons]
        exact ⟨hl.1, ih hl.2⟩

/-- Binding a name keeps the canonical form. -/
theorem setLocal_canonical (n : Nat) (v : Value) {l : List (Nat × Value)} (h : LocalsCanonical l) :
    LocalsCanonical (setLocal n v l) := by
  induction l with
  | nil => simp [setLocal]
  | cons a l ih =>
    obtain ⟨k, w⟩ := a
    simp only [LocalsCanonical, List.pairwise_cons] at h
    unfold setLocal
    split
    · next hlt =>
      simp only [LocalsCanonical, List.pairwise_cons, List.forall_mem_cons]
      exact ⟨⟨hlt, fun a ha => Nat.lt_trans hlt (h.1 a ha)⟩, h.1, h.2⟩
    · split
      · next he =>
        subst he
        simp only [LocalsCanonical, List.pairwise_cons]
        exact h
      · simp only [LocalsCanonical, List.pairwise_cons]
        exact ⟨lt_setLocal h.1 (by omega), ih h.2⟩

/-- An operand that fits its width is the value itself (R90). -/
theorem operand_of_fits {w n : Nat} (h : n < 2 ^ w) : operand w n = BitVec.ofNat w n := if_pos h

end Sys2Proof.Machine
end

