-- ==== Sys2Proof/Laws/PerInstr.lean ====
section
/-! SUPPORT. One law per instruction: the port and the fixed bits of its encoding are those of its row in spec/opcode_table.json (R81, R84, R85, R86). -/

namespace Sys2Proof.Laws.Format

/-- The port and the fixed bits of an instruction: for a register request the W bit and OFF[4:2], for a CRC
request the P bit, for a procedure its id (R81, R84, R85, R86). -/
inductive Fixed where
  | h (w : Bool) (off : BitVec 3)
  | v (p : Bool)
  | p (pid : BitVec 5)
  deriving DecidableEq, Repr

/-- The fixed bits of a port word. -/
def fixedOf : PortWord → Fixed
  | .h w => .h (w.getLsbD 37) (w.extractLsb' 34 3)
  | .v w => .v (w.getLsbD 24)
  | .p pid _ => .p pid

/-- The fixed bits of each instruction, as the tables of R84, R85 and R86 have them. -/
def table : Instr → Fixed
  | .rdC _ => .h false 0#3
  | .wrC _ _ => .h true 0#3
  | .rdS _ => .h false 1#3
  | .wrS _ _ => .h true 1#3
  | .rdDlen _ => .h false 2#3
  | .wrDlen _ _ => .h true 2#3
  | .rdA _ => .h false 3#3
  | .wrA _ _ => .h true 3#3
  | .rdFifo _ => .h false 4#3
  | .wrFifo _ _ => .h true 4#3
  | .rdDiv _ => .h false 5#3
  | .wrDiv _ _ => .h true 5#3
  | .rdDel _ => .h false 6#3
  | .wrDel _ _ => .h true 6#3
  | .rdClkt _ => .h false 7#3
  | .wrClkt _ _ => .h true 7#3
  | .crc8 _ _ => .v false
  | .crcchk _ _ _ => .v true
  | .init _ _ => .p 0x00#5
  | .deinit => .p 0x01#5
  | .setClockFrequency _ => .p 0x02#5
  | .getSclFrequency => .p 0x03#5
  | .getCdiv => .p 0x04#5
  | .setClockTimeout _ => .p 0x05#5
  | .getClockTimeout => .p 0x06#5
  | .setSlaveAddress _ => .p 0x07#5
  | .getSlaveAddress => .p 0x08#5
  | .write _ _ => .p 0x09#5
  | .read _ => .p 0x0A#5
  | .setMaskedBits _ _ _ => .p 0x0B#5
  | .map _ _ => .p 0x0C#5
  | .unmap => .p 0x0D#5
  | .cmdNoArg _ => .p 0x10#5
  | .cmdReadWord _ => .p 0x11#5
  | .cmdWriteWord _ _ => .p 0x12#5
  | .readMeasurement => .p 0x13#5
  | .dataReady => .p 0x14#5
  | .setMeasurementInterval _ => .p 0x15#5

/-- The encoder puts an instruction on its own port, under its own fixed bits. -/
def Statement (i : Instr) : Prop := fixedOf (encode i) = table i

theorem fixedOf_encodeH (w : Bool) (r : Reg) (lo : BitVec 2) (data : Word) :
    fixedOf (encodeH w r lo data) = .h w r.index := by
  simp only [encodeH, fixedOf, Fixed.h.injEq]
  constructor
  · simp only [BitVec.getLsbD_append]
    simp
  · apply BitVec.eq_of_getLsbD_eq
    intro i hi
    rw [BitVec.getLsbD_extractLsb', BitVec.getLsbD_append, BitVec.getLsbD_append, BitVec.getLsbD_append]
    simp [hi, show ¬ 34 + i < 32 by omega, show ¬ 34 + i - 32 < 2 by omega, show 34 + i - 32 - 2 = i by omega]

theorem fixedOf_encodeV (op : Bool) (b0 b1 ck : Byte) : fixedOf (encodeV op b0 b1 ck) = .v op := by
  simp only [encodeV, fixedOf, Fixed.v.injEq, BitVec.getLsbD_append]
  simp

theorem rdC (lo) : Statement (.rdC lo) := fixedOf_encodeH _ _ _ _
theorem wrC (lo data) : Statement (.wrC lo data) := fixedOf_encodeH _ _ _ _
theorem rdS (lo) : Statement (.rdS lo) := fixedOf_encodeH _ _ _ _
theorem wrS (lo data) : Statement (.wrS lo data) := fixedOf_encodeH _ _ _ _
theorem rdDlen (lo) : Statement (.rdDlen lo) := fixedOf_encodeH _ _ _ _
theorem wrDlen (lo data) : Statement (.wrDlen lo data) := fixedOf_encodeH _ _ _ _
theorem rdA (lo) : Statement (.rdA lo) := fixedOf_encodeH _ _ _ _
theorem wrA (lo data) : Statement (.wrA lo data) := fixedOf_encodeH _ _ _ _
theorem rdFifo (lo) : Statement (.rdFifo lo) := fixedOf_encodeH _ _ _ _
theorem wrFifo (lo data) : Statement (.wrFifo lo data) := fixedOf_encodeH _ _ _ _
theorem rdDiv (lo) : Statement (.rdDiv lo) := fixedOf_encodeH _ _ _ _
theorem wrDiv (lo data) : Statement (.wrDiv lo data) := fixedOf_encodeH _ _ _ _
theorem rdDel (lo) : Statement (.rdDel lo) := fixedOf_encodeH _ _ _ _
theorem wrDel (lo data) : Statement (.wrDel lo data) := fixedOf_encodeH _ _ _ _
theorem rdClkt (lo) : Statement (.rdClkt lo) := fixedOf_encodeH _ _ _ _
theorem wrClkt (lo data) : Statement (.wrClkt lo data) := fixedOf_encodeH _ _ _ _
theorem crc8 (b0 b1) : Statement (.crc8 b0 b1) := fixedOf_encodeV _ _ _ _
theorem crcchk (b0 b1 ck) : Statement (.crcchk b0 b1 ck) := fixedOf_encodeV _ _ _ _
theorem init (base length) : Statement (.init base length) := rfl
theorem deinit : Statement .deinit := rfl
theorem setClockFrequency (hz) : Statement (.setClockFrequency hz) := rfl
theorem getSclFrequency : Statement .getSclFrequency := rfl
theorem getCdiv : Statement .getCdiv := rfl
theorem setClockTimeout (count) : Statement (.setClockTimeout count) := rfl
theorem getClockTimeout : Statement .getClockTimeout := rfl
theorem setSlaveAddress (addr) : Statement (.setSlaveAddress addr) := rfl
theorem getSlaveAddress : Statement .getSlaveAddress := rfl
theorem write (buffer length) : Statement (.write buffer length) := rfl
theorem read (length) : Statement (.read length) := rfl
theorem setMaskedBits (offset value mask) : Statement (.setMaskedBits offset value mask) := rfl
theorem map (base length) : Statement (.map base length) := rfl
theorem unmap : Statement .unmap := rfl
theorem cmdNoArg (opcode) : Statement (.cmdNoArg opcode) := rfl
theorem cmdReadWord (opcode) : Statement (.cmdReadWord opcode) := rfl
theorem cmdWriteWord (opcode value) : Statement (.cmdWriteWord opcode value) := rfl
theorem readMeasurement : Statement .readMeasurement := rfl
theorem dataReady : Statement .dataReady := rfl
theorem setMeasurementInterval (seconds) : Statement (.setMeasurementInterval seconds) := rfl

end Sys2Proof.Laws.Format
end

