-- ==== Sys2Proof/Laws/Requests.lean ====
section
/-! SUPPORT. Each register request as one read or write of its register, where the checks of R100 pass; the fields of the data word. -/

namespace Sys2Proof.Machine

/-! ### The instruction of a register -/

theorem exec_readInstr (r : Reg) (lo : BitVec 2) (s : State) : exec (readInstr r lo) s = readRequest r lo s := by
  cases r <;> rfl

theorem exec_writeInstr (r : Reg) (lo : BitVec 2) (data : Word) (s : State) :
    exec (writeInstr r lo data) s = writeRequest r lo data s := by
  cases r <;> rfl

/-- An aligned read request of a mapped block, on a host that may step. -/
theorem exec_read_register (r : Reg) {s : State} (hr : s.running = true) (hm : s.mapped = true) :
    exec (readInstr r 0#2) s = .next (endRead (readReg r s.free s)) := by
  simp [exec_readInstr, readRequest, whenRunning_of_running hr, memRead_offset r _ hm]

/-- An aligned write request that passes the checks of R100. -/
theorem exec_write_register (r : Reg) {data : Word} {s : State} (hr : s.running = true) (hm : s.mapped = true)
    (hd : data &&& r.reservedMask = 0#32) (hc : isConfigReg r = true → s.eng = .idle) :
    exec (writeInstr r 0#2 data) s = .next (endWrite (writeReg r data s)) := by
  simp [exec_writeInstr, writeRequest, whenRunning_of_running hr, memWrite_offset r hm hd hc]

/-- The register of a request's offset does not depend on its two low bits. -/
theorem regAt_offset_add (r : Reg) (lo : BitVec 2) : regAt (r.offset + lo.toNat) = r := by
  have hlo := lo.isLt
  have h : ∀ k, k < 4 → ∀ r : Reg, regAt (r.offset + k) = r := by
    intro k hk r
    cases r <;> revert k <;> decide
  exact h _ hlo r

/-! ### The fields of the data word -/

theorem extractLsb'_zero_eq_setWidth {w : Nat} (data : Word) : data.extractLsb' 0 w = data.setWidth w := by
  ext i hi
  simp

/-- The CLEAR field is 0 exactly where bits 5 and 4 are. -/
theorem clear_eq_zero_iff (data : Word) : data.extractLsb' 4 2 = 0#2 ↔ data &&& 0x30#32 = 0#32 := by
  constructor
  · intro h
    have h0 := congrArg (BitVec.getLsbD · 0) h
    have h1 := congrArg (BitVec.getLsbD · 1) h
    simp only [BitVec.getLsbD_extractLsb', BitVec.getLsbD_zero] at h0 h1
    apply BitVec.eq_of_getLsbD_eq
    intro i hi
    rw [BitVec.getLsbD_and, BitVec.getLsbD_zero]
    rcases (by decide : ∀ i, i < 32 → (0x30#32).getLsbD i = false ∨ i = 4 ∨ i = 5) i hi with h | rfl | rfl
    · rw [h, Bool.and_false]
    · simp at h0
      simp [h0]
    · simp at h1
      simp [h1]
  · intro h
    have h4 := congrArg (BitVec.getLsbD · 4) h
    have h5 := congrArg (BitVec.getLsbD · 5) h
    simp at h4 h5
    apply BitVec.eq_of_getLsbD_eq
    intro i hi
    have : i = 0 ∨ i = 1 := by omega
    rcases this with rfl | rfl <;> simp [h4, h5]

/-- A half word in the low bits of a write of DIV sets no reserved bit; CLKT has the same mask. -/
theorem half_reserved (v : Half) : v.setWidth 32 &&& Reg.DIV.reservedMask = 0#32 := by
  apply BitVec.eq_of_getLsbD_eq
  intro i hi
  rw [BitVec.getLsbD_and, BitVec.getLsbD_setWidth, BitVec.getLsbD_zero]
  by_cases hlow : i < 16
  · have : Reg.DIV.reservedMask.getLsbD i = false := by
      revert i
      decide
    rw [this, Bool.and_false]
  · rw [BitVec.getLsbD_of_ge v i (by omega)]
    simp

/-- What DIV reads back in its low bits (R33). -/
theorem readDIV_low (d : Draws) (s : State) :
    (readDIV d s).extractLsb' 0 16 =
      if s.cfg.cdivReadback = .asWritten then s.cdiv else s.cdiv &&& 0xFFFE#16 := by
  unfold readDIV
  rw [extractLsb'_append_low]
  cases s.cfg.cdivReadback <;> simp

/-! ### Accesses that stop (R100) -/

theorem memRead_unmapped (off : Nat) (d : Draws) {s : State} (h : s.mapped = false) :
    memRead off d s = .stop (s.raise (.notInitialized off)) := by
  simp [memRead, accessFault, h]

theorem memWrite_unmapped (off : Nat) (data : Word) {s : State} (h : s.mapped = false) :
    memWrite off data s = .stop (s.raise (.notInitialized off)) := by
  simp [memWrite, accessFault, h]

theorem memWrite_active (r : Reg) {data : Word} {s : State} (h : s.mapped = true)
    (hd : data &&& r.reservedMask = 0#32) (hc : isConfigReg r = true) (he : s.eng ≠ .idle) :
    memWrite r.offset data s = .stop (s.raise (.configWhileActive r.offset data)) := by
  cases r <;> simp [isConfigReg] at hc <;>
    simp [memWrite, accessFault, h, Reg.offset, regAt, Reg.ofIndex, isConfigReg, he] <;>
    exact fun hne => absurd hd hne

end Sys2Proof.Machine
end

