-- ==== Sys2Proof/Laws/Transactions.lean ====
section
/-! SUPPORT. The host steps of WRITE and READ, one equation for each position, where the checks of R100 pass. -/

namespace Sys2Proof.Machine

theorem advance_of_call (new : Txn) {s : State} {t : Txn} (hc : s.call = some (.txn t)) :
    advance new s = txnStep t s := by
  simp [advance, hc]

theorem exec_write_of_call (buffer : List Byte) (length : Nat) {s : State} {t : Txn} (h : s.running = true)
    (hc : s.call = some (.txn t)) : exec (.write buffer length) s = .next (endTxn (txnStep t s)) := by
  simp [exec, execWrite, whenRunning_of_running h, advance_of_call _ hc]

theorem exec_read_of_call (length : Nat) {s : State} {t : Txn} (h : s.running = true)
    (hc : s.call = some (.txn t)) : exec (.read length) s = .next (endTxn (txnStep t s)) := by
  simp [exec, execRead, whenRunning_of_running h, advance_of_call _ hc]

/-! ### Status reads -/

theorem txnStatus_eq {s : State} (hm : s.mapped = true) (k : Word → State → TxnOut) :
    txnStatus s k = k (readS s.free s) s := by
  have h : memRead 0x04 s.free s = .ok (readS s.free s) s := memRead_offset .S s.free hm
  simp [txnStatus, h]

/-- WRITE, POLL (R213, R214, R223). -/
theorem txnStep_wPoll {t : Txn} {s : State} (hm : s.mapped = true) (hp : t.pos = .wPoll) :
    txnStep t s =
      if s.err then .wrote (.error .ackError) s
      else if s.clkt then .wrote (.error .timeoutError) s
      else if s.done then .wrote (.ok t.length) s
      else goOn { t with snap := readS s.free s } s := by
  unfold txnStep
  rw [hp]
  simp only [txnStatus_eq hm, terminal_readS, classify_readS]
  cases s.err <;> cases s.clkt <;> cases s.done <;> simp

/-- READ, LOOP (R217, R218). -/
theorem txnStep_rLoop {t : Txn} {s : State} (hm : s.mapped = true) (hp : t.pos = .rLoop) :
    txnStep t s =
      if s.fifo ≠ [] then goOn { t with snap := readS s.free s, pos := .rTake } s
      else if s.err then .got (.error .ackError) s
      else if s.clkt then .got (.error .timeoutError) s
      else if s.done then goOn { t with snap := readS s.free s, pos := .rDrain } s
      else goOn { t with snap := readS s.free s, pos := .rLoop } s := by
  unfold txnStep
  rw [hp]
  simp only [txnStatus_eq hm, dataReady_readS, flagRXD, testSnapshot, terminal_readS, classify_readS]
  cases s.fifo <;> simp
  cases s.err <;> cases s.clkt <;> cases s.done <;> simp

/-- READ, DRAIN (R219, R220). -/
theorem txnStep_rDrain {t : Txn} {s : State} (hm : s.mapped = true) (hp : t.pos = .rDrain) :
    txnStep t s =
      if s.fifo ≠ [] then goOn { t with snap := readS s.free s, pos := .rDrainTake } s
      else .got (.ok (t.count, t.buffer)) s := by
  unfold txnStep
  rw [hp]
  simp only [txnStatus_eq hm, dataReady_readS, flagRXD]
  cases s.fifo <;> simp

/-! ### Taking one byte -/

theorem takeOne_eq {t : Txn} {s : State} (hm : s.mapped = true) {b : Byte} {rest : List Byte} (hf : s.fifo = b :: rest)
    (hd : s.eng = .idle ∨ s.xRead = true) (hl : t.count < t.length) (k : Txn → State → TxnOut) :
    takeOne t s k = k { t with buffer := t.buffer ++ [b], count := t.count + 1 } { s with fifo := rest } := by
  have hd' : ¬ (s.eng ≠ .idle ∧ s.xRead = false) := by rcases hd with h | h <;> simp [h]
  have h : memRead 0x10 s.free s = .ok (s.free.bits.extractLsb' 8 24 ++ b) { s with fifo := rest } := by
    rw [show (0x10 : Nat) = Reg.FIFO.offset from rfl, memRead_offset .FIFO s.free hm]
    simp only [readReg, popFifo, if_neg hd', hf]
  simp only [takeOne, if_neg (Nat.not_le.2 hl), h, extractLsb'_append_low]

theorem takeOne_full {t : Txn} {s : State} (hl : t.count ≥ t.length) (k : Txn → State → TxnOut) :
    takeOne t s k = .more (s.raise (.bufferOverflow t.count t.length)) := by
  simp [takeOne, hl]

/-! ### The register writes of ARM (R212, R216) -/

theorem txnWrite_register (r : Reg) {data : Word} {s : State} (hm : s.mapped = true) (he : s.eng = .idle)
    (hd : data &&& r.reservedMask = 0#32) (t : Txn) :
    txnWrite r.offset data t s =
      match writeReg r data s with
      | .ok _ s => goOn t s
      | .stop s => .more s := by
  have h := memWrite_offset r hm hd fun _ => he
  cases hw : writeReg r data s <;> simp [txnWrite, h, hw]

theorem length_reserved {n : Nat} (h : n ≤ 0xFFFF) : BitVec.ofNat 32 n &&& Reg.DLEN.reservedMask = 0#32 := by
  apply BitVec.eq_of_getLsbD_eq
  intro i hi
  rw [BitVec.getLsbD_and, BitVec.getLsbD_zero]
  by_cases hlow : i < 16
  · have : Reg.DLEN.reservedMask.getLsbD i = false := by
      revert i
      decide
    rw [this, Bool.and_false]
  · have hlt : n < 2 ^ i := Nat.lt_of_lt_of_le (by omega : n < 2 ^ 16) (Nat.pow_le_pow_right (by decide) (by omega))
    rw [BitVec.getLsbD_ofNat, Nat.testBit_lt_two_pow hlt]
    simp

theorem length_low (n : Nat) : (BitVec.ofNat 32 n).extractLsb' 0 16 = BitVec.ofNat 16 n := by
  apply BitVec.eq_of_toNat_eq
  simp

theorem length_ne_zero {n : Nat} (h0 : 0 < n) (h : n ≤ 0xFFFF) : BitVec.ofNat 16 n ≠ 0#16 := by
  intro hc
  have := congrArg BitVec.toNat hc
  rw [BitVec.toNat_ofNat, Nat.mod_eq_of_lt (by omega)] at this
  simp at this
  omega

theorem txnWrite_length {n : Nat} {s : State} (hm : s.mapped = true) (he : s.eng = .idle) (h : n ≤ 0xFFFF) (t : Txn) :
    txnWrite 0x08 (BitVec.ofNat 32 n) t s = goOn t { s with dlenW := BitVec.ofNat 16 n } := by
  rw [show (0x08 : Nat) = Reg.DLEN.offset from rfl, txnWrite_register .DLEN hm he (length_reserved h)]
  simp only [writeReg, length_low]

theorem txnWrite_clearStatus {s : State} (hm : s.mapped = true) (he : s.eng = .idle) (t : Txn) :
    txnWrite 0x04 0x00000302#32 t s = goOn t { s with clkt := false, err := false, done := false } := by
  rw [show (0x04 : Nat) = Reg.S.offset from rfl, txnWrite_register .S hm he (by decide)]
  simp [writeReg, writeStatus]

theorem txnWrite_clearFifo {s : State} (hm : s.mapped = true) (he : s.eng = .idle) (t : Txn) :
    txnWrite 0x00 0x00000010#32 t s = goOn t { s with
      cI2cen := false, cIntr := false, cIntt := false, cIntd := false, cRead := false, fifo := [], rxStage := none } := by
  rw [show (0x00 : Nat) = Reg.C.offset from rfl, txnWrite_register .C hm he (by decide)]
  simp [writeReg, writeControl, storeControl, clearFifo]

theorem txnWrite_startWrite {s : State} (hm : s.mapped = true) (he : s.eng = .idle) (hp : s.pinsRouted = true)
    (hl : s.dlenW ≠ 0#16) (t : Txn) :
    txnWrite 0x00 0x00008080#32 t s = goOn t { s with
      cI2cen := true, cIntr := false, cIntt := false, cIntd := false, cRead := false
      eng := .addr, rem := s.dlenW, xRead := false, xAddr := s.aAddr } := by
  rw [show (0x00 : Nat) = Reg.C.offset from rfl, txnWrite_register .C hm he (by decide)]
  simp [writeReg, writeControl, storeControl, startTransfer, hp, hl, latchTransfer]

theorem txnWrite_startRead {s : State} (hm : s.mapped = true) (he : s.eng = .idle) (hp : s.pinsRouted = true)
    (hl : s.dlenW ≠ 0#16) (t : Txn) :
    txnWrite 0x00 0x00008091#32 t s = goOn t { s with
      cI2cen := true, cIntr := false, cIntt := false, cIntd := false, cRead := true
      eng := .addr, rem := s.dlenW, xRead := true, xAddr := s.aAddr, fifo := [], rxStage := none } := by
  rw [show (0x00 : Nat) = Reg.C.offset from rfl, txnWrite_register .C hm he (by decide)]
  simp [writeReg, writeControl, storeControl, startTransfer, hp, hl, latchTransfer, clearFifo]

theorem txnWrite_push (b : Byte) {s : State} (hm : s.mapped = true) (he : s.eng = .idle)
    (hl : s.fifo.length < s.cfg.fifoDepth) (t : Txn) :
    txnWrite 0x10 (b.setWidth 32) t s = goOn t { s with fifo := s.fifo ++ [b] } := by
  have hr : b.setWidth 32 &&& Reg.FIFO.reservedMask = 0#32 := by
    revert b
    decide
  rw [show (0x10 : Nat) = Reg.FIFO.offset from rfl, txnWrite_register .FIFO hm he hr]
  have : (b.setWidth 32 : Word).extractLsb' 0 8 = b := by
    rw [extractLsb'_zero_eq_setWidth]
    ext i hi
    simp
  simp [writeReg, pushFifo, he, this, Nat.ne_of_lt hl]

end Sys2Proof.Machine
end

