-- ==== Sys2Proof/Laws/Runs.lean ====
section
/-! SUPPORT. What holds along a run (R340): an invariant of the step is one of every run, and a WRITE that polls an Engine frozen without a flag hangs (R154, R339). -/

namespace Sys2Proof.Machine

/-- What every step keeps, and no rescheduling changes, holds of a run from its first state on. -/
theorem IsRun.keeps {P : State → Prop} (hstep : ∀ s t, P s → step s = .next t → P t)
    (hsched : ∀ s t, P s → Rescheduled s t → P t) {r : Nat → State} (hr : IsRun r) (h0 : P (r 0)) : ∀ n, P (r n) := by
  intro n
  induction n with
  | zero => exact h0
  | succ n ih =>
    obtain ⟨t, ht, hs⟩ := hr n
    refine hsched _ _ ?_ hs
    rcases ht with h | ⟨-, rfl⟩
    · exact hstep _ _ ih h
    · exact ih

/-- A host that stands at a request has a line. -/
theorem hasLine_of_currentInstr {s : State} {i : Instr} (h : currentInstr s = some i) : s.hasLine = true := by
  unfold currentInstr at h
  unfold State.hasLine
  cases hl : s.line with
  | none => simp [hl] at h
  | some l => cases ho : l.op <;> simp [hl, ho, HostOp.request] at h ⊢

/-- The host's step at a request is that of its instruction. -/
theorem hostStep_of_currentInstr {s t : State} {i : Instr} (hd : labelsDefined s.prog = true)
    (h : currentInstr s = some i) (he : exec i s = .next t) : ∃ dst, hostStep s = .next (tick s (endStep dst t)) := by
  unfold currentInstr at h
  cases hl : s.line with
  | none => simp [hl] at h
  | some l =>
    simp only [hl] at h
    cases hw : l.op.request s.locals with
    | none => simp [hw] at h
    | some p =>
      obtain ⟨w, dst⟩ := p
      simp only [hw] at h
      cases hi : decode w with
      | error e => simp [hi] at h
      | ok j =>
        simp only [hi, Option.some.injEq] at h
        subst h
        exact ⟨dst, by simp [hostStep, hd, hl, hw, requestStep, hi, he]⟩

/-- The host polls in WRITE, and the Engine is frozen with no flag set (R154). -/
def PollsFrozen (buffer : List Byte) (length : Nat) (s : State) : Prop :=
  Ready s ∧ s.eng = .stalled ∧ s.done = false ∧ s.err = false ∧ s.clkt = false ∧ labelsDefined s.prog = true ∧
    currentInstr s = some (.write buffer length) ∧ ∃ x, s.call = some (.txn x) ∧ x.pos = .wPoll

theorem PollsFrozen.enabled {buffer : List Byte} {length : Nat} {s : State} (h : PollsFrozen buffer length s) :
    enabled .host s = true := by
  simp [Machine.enabled, h.1.1, hasLine_of_currentInstr h.2.2.2.2.2.2.1]

theorem step_pollsFrozen {buffer : List Byte} {length : Nat} {s t : State} (h : PollsFrozen buffer length s)
    (hs : step s = .next t) : PollsFrozen buffer length t := by
  obtain ⟨hR, he, h1, h2, h3, hd, hi, x, hc, hp⟩ := h
  have hx : exec (.write buffer length) s = .next { s with call := some (.txn { x with snap := readS s.free s }) } := by
    rw [exec_write_of_call buffer length hR.1 hc, txnStep_wPoll hR.2 hp]
    simp [h1, h2, h3, goOn, endTxn]
  obtain ⟨dst, hh⟩ := hostStep_of_currentInstr hd hi hx
  unfold step systemStep at hs
  split at hs
  · rw [hh] at hs
    cases hs
    rw [endStep, if_neg (by simp)]
    exact ⟨hR, he, h1, h2, h3, hd, hi, _, rfl, hp⟩
  · next ha =>
    have := enabled_of_nextAgent ha
    simp [enabled, phaseEnabled, he] at this
  · next ha =>
    have := enabled_of_nextAgent ha
    simp [enabled, commitEnabled, he] at this
  · next ha =>
    have := (nextAgent_none_iff s).1 ha .host
    simp [enabled, hR.1, hasLine_of_currentInstr hi] at this

/-- Every admitted run in which a WRITE polls an Engine frozen without a flag is a hang (R339). -/
theorem hang_of_pollsFrozen {buffer : List Byte} {length : Nat} {s : State} (h : PollsFrozen buffer length s)
    {r : Nat → State} (hr : Admitted s r) : Hang s r := by
  have sched : ∀ u t, PollsFrozen buffer length u → Rescheduled u t → PollsFrozen buffer length t := by
    rintro u t hu ⟨k, a, rfl⟩
    exact hu
  refine ⟨hr, fun n hn => hn ((outcome_none_iff _).2 ?_)⟩
  exact (hr.2.1.keeps (fun _ _ => step_pollsFrozen) sched (sched _ _ h hr.1) n).enabled

/-- A program that has ended with a value returns it. -/
theorem returns_of_outcome {s : State} {v : Result} (h : outcome s = some (.success (some (.result v)))) : Returns s v := by
  rintro r ⟨⟨k, a, h0⟩, -, -⟩
  exact ⟨0, by rw [h0, ← h]; rfl⟩

end Sys2Proof.Machine
end

