-- ==== Sys2Proof/Tests/Slice0.lean ====
section
/-! SUPPORT. Small tests: well-formedness, decoding of words written out from the spec, one-step tests whose expected values are those of spec/95_test_vectors.md, and a witness for the hypotheses of every obligation. -/

namespace Sys2Proof.Tests

open Sys2Proof.Machine

/-! ### States -/

/-- The opcode values that 93_implementation_defined.md Part 3 lists for the reader's convenience. -/
def opcodes : Opcodes :=
  { softReset := 0xD304, startContinuous := 0x0010, stopContinuous := 0x0104, setInterval := 0x4600,
    getDataReady := 0x0202, readMeasurement := 0x0300, setAltitude := 0x5102, setTempOffset := 0x5403 }

/-- The parameters of 95_test_vectors.md section 1. -/
def cfg : Params := Params.default 150000000 opcodes

/-- Reset, with those parameters. -/
def fresh : State := State.resetWith cfg

/-- The start state S_I of 95_test_vectors.md: reset, then INIT. -/
def idle : State := { fresh with mapping := some { base := 0, length := 32, pointer := 0 }, pinsRouted := true }

/-- An Engine in Addr for a 3-byte read. -/
def addrRead : State :=
  { idle with eng := .addr, xRead := true, cRead := true, cI2cen := true, dlenW := 3, rem := 3 }

/-- An Engine in Data, two bytes left to send, one of them in the FIFO. -/
def dataWrite : State :=
  { idle with eng := .data, cI2cen := true, dlenW := 2, rem := 2, fifo := [0xD3], trace := [.start, .addrByte 0 false .ack] }

/-- An Engine in Data, two bytes left to receive. -/
def dataRead : State :=
  { idle with
    eng := .data, xRead := true, cRead := true, cI2cen := true, dlenW := 2, rem := 2
    trace := [.start, .addrByte 0 true .ack] }

/-- A frozen write transfer. -/
def frozen : State :=
  { idle with eng := .stalled, cI2cen := true, clkt := true, dlenW := 2, rem := 2, trace := [.start, .stretchTimeout] }

/-- A full FIFO. -/
def full : State := { idle with fifo := List.replicate 16 0x55 }

/-- A WRITE of two bytes at a position. -/
def writing (pos : TxnPos) : Txn := { dir := .write, buffer := [0x10, 0x20], length := 2, count := 0, snap := 0, pos := pos }

/-- A READ of three bytes at a position, with `buf` taken so far. -/
def reading (pos : TxnPos) (buf : List Byte) (snap : Word) : Txn :=
  { dir := .read, buffer := buf, length := 3, count := buf.length, snap := snap, pos := pos }

/-- A state that a transaction runs in. -/
def during (t : Txn) (s : State) : State := { s with call := some (.txn t) }

/-- A host program of one request line at the host's position. -/
def atLine (op : HostOp) (s : State) : State := { s with prog := [.plain op] }

/-- A field of the next state of an instruction, if there is one. -/
def got {α : Type} (f : State → α) (i : Instr) (s : State) : Option α :=
  match exec i s with
  | .next t => some (f t)
  | .fault _ => none
  | .refused _ => none

/-- Draws that acknowledge, deliver 0xA5 and grant, and do nothing unusual. -/
def calm : Draws :=
  { bits := 0, rxr := false, txw := false, stretch := false, ack := true, byte := 0xA5, alsoDone := false, abandon := false,
    mapGranted := true, mapPointer := 0, lost := 0, turn := .host }

/-! ### Well-formedness (R37, R66, R88) -/

theorem test_wf_refuses_misaligned_read : Instr.WellFormed (.rdC 1#2) = false ∧ Instr.WellFormed (.rdS 2#2) = false ∧
    Instr.WellFormed (.rdDlen 3#2) = false ∧ Instr.WellFormed (.rdA 1#2) = false ∧ Instr.WellFormed (.rdFifo 2#2) = false ∧
    Instr.WellFormed (.rdDiv 3#2) = false ∧ Instr.WellFormed (.rdDel 1#2) = false ∧ Instr.WellFormed (.rdClkt 1#2) = false := by
  decide

theorem test_wf_refuses_misaligned_write : Instr.WellFormed (.wrC 1#2 0) = false ∧ Instr.WellFormed (.wrS 2#2 0) = false ∧
    Instr.WellFormed (.wrDlen 3#2 0) = false ∧ Instr.WellFormed (.wrA 1#2 0) = false ∧ Instr.WellFormed (.wrFifo 2#2 0) = false ∧
    Instr.WellFormed (.wrDiv 3#2 0) = false ∧ Instr.WellFormed (.wrDel 1#2 0) = false ∧ Instr.WellFormed (.wrClkt 1#2 0) = false := by
  decide

/-- The words of 95_test_vectors.md section 4 that are refused ReservedBits, and one each of DIV and CLKT. -/
theorem test_wf_refuses_reserved_bits : Instr.WellFormed (.wrC 0 0x80000000) = false ∧ Instr.WellFormed (.wrC 0 0x2) = false ∧
    Instr.WellFormed (.wrS 0 0x400) = false ∧ Instr.WellFormed (.wrDlen 0 0x10000) = false ∧ Instr.WellFormed (.wrA 0 0xE1) = false ∧
    Instr.WellFormed (.wrFifo 0 0x100) = false ∧ Instr.WellFormed (.wrDiv 0 0x10000) = false ∧
    Instr.WellFormed (.wrClkt 0 0x10000) = false := by
  decide

theorem test_wf_refuses_masked_offset :
    Instr.WellFormed (.setMaskedBits 0x1D 0 0) = false ∧ Instr.WellFormed (.setMaskedBits 0x20 0 0) = false ∧
    Instr.WellFormed (.setMaskedBits 0x06 0 0) = false := by
  decide

theorem test_wf_accepts : Instr.WellFormed (.wrC 0 0x8091) = true ∧ Instr.WellFormed (.wrDel 0 0xFFFFFFFF) = true ∧
    Instr.WellFormed (.rdClkt 0) = true ∧ Instr.WellFormed (.setMaskedBits 0x1C 0 0) = true := by
  decide

/-! ### Decoding (R81, R82, R84, R85, R88) -/

/-- W=0, OFF, DATA=0: the sixteen words of R86, column W=0 (95_test_vectors.md section 4). -/
theorem test_decode_reads : decode (.h 0x0000000000#38) = .ok (.rdC 0#2) ∧ decode (.h 0x0400000000#38) = .ok (.rdS 0#2) ∧
    decode (.h 0x0800000000#38) = .ok (.rdDlen 0#2) ∧ decode (.h 0x0C00000000#38) = .ok (.rdA 0#2) ∧
    decode (.h 0x1000000000#38) = .ok (.rdFifo 0#2) ∧ decode (.h 0x1400000000#38) = .ok (.rdDiv 0#2) ∧
    decode (.h 0x1800000000#38) = .ok (.rdDel 0#2) ∧ decode (.h 0x1C00000000#38) = .ok (.rdClkt 0#2) := by
  decide

theorem test_decode_writes : decode (.h 0x2000008080#38) = .ok (.wrC 0#2 0x8080#32) ∧
    decode (.h 0x2400000302#38) = .ok (.wrS 0#2 0x302#32) ∧ decode (.h 0x2800000003#38) = .ok (.wrDlen 0#2 3#32) ∧
    decode (.h 0x2C00000061#38) = .ok (.wrA 0#2 0x61#32) ∧ decode (.h 0x30000000D3#38) = .ok (.wrFifo 0#2 0xD3#32) ∧
    decode (.h 0x3400000176#38) = .ok (.wrDiv 0#2 0x176#32) ∧ decode (.h 0x38FFFFFFFF#38) = .ok (.wrDel 0#2 0xFFFFFFFF#32) ∧
    decode (.h 0x3C00000040#38) = .ok (.wrClkt 0#2 0x40#32) := by
  decide

/-- A word bit by bit: W=1, OFF=01100, DATA=00000000 00000000 00000000 01100001 is WR_A of 0x61. -/
theorem test_decode_bits : decode (.h 0b10110000000000000000000000000001100001#38) = .ok (.wrA 0#2 0x61#32) := by decide

/-- Misaligned and out-of-bounds words keep their operation's slot; the fault is R100's. -/
theorem test_decode_low_offset_bits : decode (.h 0x0600000000#38) = .ok (.rdS 2#2) ∧
    decode (.h 0x0100000000#38) = .ok (.rdC 1#2) ∧ decode (.h 0x1F00000000#38) = .ok (.rdClkt 3#2) := by
  decide

theorem test_decode_crc : decode (.v 0x0BEEF00#25) = .ok (.crc8 0xBE#8 0xEF#8) ∧
    decode (.v 0x1BEEF92#25) = .ok (.crcchk 0xBE#8 0xEF#8 0x92#8) ∧ decode (.v 0x10001B0#25) = .ok (.crcchk 0x00#8 0x01#8 0xB0#8) := by
  decide

theorem test_decode_refuses : decode (.h 0x0400000001#38) = .error .reservedEncoding ∧
    decode (.v 0x0BEEF92#25) = .error .reservedEncoding ∧ decode (.p 0x0E#5 ProcArgs.zero) = .error .unknownProcedure ∧
    decode (.p 0x0F#5 ProcArgs.zero) = .error .unknownProcedure ∧ decode (.p 0x16#5 ProcArgs.zero) = .error .unknownProcedure ∧
    decode (.p 0x1F#5 ProcArgs.zero) = .error .unknownProcedure := by
  decide

/-- Arguments with a value of its own in every slot. -/
def args : ProcArgs :=
  { nat0 := 11, nat1 := 12, half0 := 0x1301, half1 := 0x1402, byte0 := 0x15, word0 := 0x16000003, word1 := 0x17000004, buffer := [9, 8] }

theorem test_decode_procedures : decode (.p 0x00#5 args) = .ok (.init 11 12) ∧ decode (.p 0x01#5 args) = .ok .deinit ∧
    decode (.p 0x02#5 args) = .ok (.setClockFrequency 11) ∧ decode (.p 0x03#5 args) = .ok .getSclFrequency ∧
    decode (.p 0x04#5 args) = .ok .getCdiv ∧ decode (.p 0x05#5 args) = .ok (.setClockTimeout 0x1301) ∧
    decode (.p 0x06#5 args) = .ok .getClockTimeout ∧ decode (.p 0x07#5 args) = .ok (.setSlaveAddress 0x15) ∧
    decode (.p 0x08#5 args) = .ok .getSlaveAddress ∧ decode (.p 0x09#5 args) = .ok (.write [9, 8] 11) ∧
    decode (.p 0x0A#5 args) = .ok (.read 11) ∧ decode (.p 0x0B#5 args) = .ok (.setMaskedBits 11 0x16000003 0x17000004) ∧
    decode (.p 0x0C#5 args) = .ok (.map 11 12) ∧ decode (.p 0x0D#5 args) = .ok .unmap := by
  decide

theorem test_decode_frames : decode (.p 0x10#5 args) = .ok (.cmdNoArg 0x1301) ∧ decode (.p 0x11#5 args) = .ok (.cmdReadWord 0x1301) ∧
    decode (.p 0x12#5 args) = .ok (.cmdWriteWord 0x1301 0x1402) ∧ decode (.p 0x13#5 args) = .ok .readMeasurement ∧
    decode (.p 0x14#5 args) = .ok .dataReady ∧ decode (.p 0x15#5 args) = .ok (.setMeasurementInterval 11) := by
  decide

/-- One row of spec/opcode_table.json of each port. -/
theorem test_decodeTableWord : decodeTableWord 40 0x2C00000061 = some (.wrA 0#2 0x61#32) ∧
    decodeTableWord 32 0x1BEEF92 = some (.crcchk 0xBE#8 0xEF#8 0x92#8) ∧ decodeTableWord 8 0x04 = some .getCdiv := by
  decide

/-! ### Register requests (95_test_vectors.md section 5) -/

/-- Vectors 1 and 3: ST and CLEAR read 0. -/
theorem test_rd_c : readC calm idle = 0x00000000#32 ∧ readC calm addrRead = 0x00008001#32 := by decide

/-- Vectors 2 and 8: a read start, and a start with the pins not routed. -/
theorem test_wr_c : got (fun t => (t.eng, t.rem, t.cRead, t.cI2cen)) (.wrC 0 0x8091) { idle with dlenW := 3 } =
      some (.addr, 3, true, true) ∧
    got (fun t => (t.eng, t.faults)) (.wrC 0 0x8080) { idle with dlenW := 2, pinsRouted := false } =
      some (.idle, [.busNotRouted]) := by
  decide

/-- Vectors 4 and 5: both CLEAR bits clear the FIFO. -/
theorem test_wr_c_clear : got State.fifo (.wrC 0 0x10) { idle with fifo := [1, 2] } = some [] ∧
    got State.fifo (.wrC 0 0x20) { idle with fifo := [1, 2] } = some [] ∧
    got State.fifo (.wrC 0 0x00) { idle with fifo := [1, 2] } = some [1, 2] := by
  decide

/-- Vectors 14, 15, 16 and 17. -/
theorem test_rd_s : readS calm idle = 0x050#32 ∧ readS calm addrRead = 0x051#32 ∧ readS calm { dataWrite with fifo := [4] } = 0x031#32 ∧
    readS calm full = 0x0A0#32 := by
  decide

/-- Vectors 11 and 12. -/
theorem test_wr_s : got (fun t => (t.done, t.err)) (.wrS 0 2) { idle with done := true, err := true } = some (false, true) ∧
    got State.done (.wrS 0 0xFF) { idle with done := true } = some false := by
  decide

/-- Vectors 19, 20, 21 and 22. -/
theorem test_rd_dlen : readDLEN calm { idle with dlenW := 3, done := true } = 0#32 ∧ readDLEN calm { idle with dlenW := 3 } = 3#32 ∧
    readDLEN calm { idle with dlenW := 2, rem := 1, err := true, done := true } = 1#32 ∧
    readDLEN calm { idle with dlenW := 2, rem := 1, err := true } = 2#32 := by
  decide

/-- Vectors 18 and 23. -/
theorem test_wr_dlen : got State.dlenW (.wrDlen 0 3) idle = some 3 ∧
    got State.faults (.wrDlen 0 3) dataWrite = some [.configWhileActive 8 3] := by
  decide

/-- Vectors 24 and 25. -/
theorem test_wr_a : got State.aAddr (.wrA 0 0x61) idle = some 0x61 ∧ readA calm { idle with aAddr := 0x61 } = 0x61#32 ∧
    got State.faults (.wrA 0 0x22) addrRead = some [.configWhileActive 0x0C 0x22] := by
  decide

/-- Vectors 26, 28 and 29. -/
theorem test_rd_fifo : got State.fifo (.rdFifo 0) { idle with fifo := [0x43, 0xC8] } = some [0xC8] ∧
    got State.faults (.rdFifo 0) dataWrite = some [.fifoDirection 0x10 false] ∧
    got State.faults (.rdFifo 0) frozen = some [.fifoDirection 0x10 false] := by
  decide

/-- Vectors 30 and 31. -/
theorem test_wr_fifo : got State.fifo (.wrFifo 0 0xD3) idle = some [0xD3] ∧
    got State.fifo (.wrFifo 0 0x55) full = some (List.replicate 16 0x55) := by
  decide

/-- T8: DIV reads back as written, or with bit 0 cleared. -/
theorem test_rd_div : readDIV calm { idle with cdiv := 0x177 } = 0x177#32 ∧
    readDIV calm { idle with cdiv := 0x177, cfg := { cfg with cdivReadback := .bit0Cleared } } = 0x176#32 := by
  decide

theorem test_wr_div : got State.cdiv (.wrDiv 0 0x177) idle = some 0x177 := by decide

/-- 95_test_vectors.md section 4: after reset, and with every bit set. -/
theorem test_del : readDEL idle = 0x00300030#32 ∧
    got (fun t => (t.fedl, t.redl)) (.wrDel 0 0x12340056) idle = some (0x1234, 0x0056) := by
  decide

theorem test_clkt : readCLKT calm idle = 0x40#32 ∧ got State.tout (.wrClkt 0 0xFFFF) idle = some 0xFFFF := by decide

/-! ### The CRC unit (T2 and sections 4 and 8 of 95_test_vectors.md) -/

theorem test_crc8 : got State.result (.crc8 0xBE 0xEF) fresh = some (some (.nat 0x92)) ∧
    got State.result (.crc8 0x00 0x00) idle = some (some (.nat 0x81)) := by
  decide +kernel

theorem test_crcchk : got State.result (.crcchk 0xBE 0xEF 0x92) fresh = some (some (.nat 1)) ∧
    got State.result (.crcchk 0xBE 0xEF 0x93) fresh = some (some (.nat 0)) := by
  decide +kernel

/-- T3: the CRC of two words that differ from 0xBEEF in one bit. -/
theorem test_crc_flip : crc8 0xBE 0xEE = 0xA3 ∧ crc8 0x3E 0xEF = 0xB1 := by decide +kernel

/-- T1.0 and T1.2: the fixture of READ_MEASUREMENT, and one corrupted CRC byte. -/
theorem test_measurement : measurementResult 18 [0x43, 0xC8, 0xDB, 0, 0, 0x81, 0x41, 0xB4, 0x87, 0, 0, 0x81, 0x42, 0x48, 0x55, 0, 0, 0x81] =
      .ok (.measurement 0x43C80000 0x41B40000 0x42480000) ∧
    measurementResult 18 [0x43, 0xC8, 0xDB, 0, 0, 0x80, 0x41, 0xB4, 0x87, 0, 0, 0x81, 0x42, 0x48, 0x55, 0, 0, 0x81] =
      .err .crcError := by
  decide +kernel

/-! ### Mapping and configuration (95_test_vectors.md section 3) -/

theorem test_init_when_mapped : got State.result (.init 0 32) idle = some (some (.result (.err .mapFailed))) := by decide

theorem test_map_when_mapped : got State.result (.map 0 32) idle = some (some (.result (.err .mapFailed))) := by decide

theorem test_deinit : got (fun t => (t.mapped, t.pinsRouted, t.cdiv)) .deinit idle = some (false, true, 0x05DC) ∧
    got State.faults .deinit fresh = some [.doubleUnmap] := by
  decide

theorem test_unmap : got State.mapped .unmap idle = some false ∧ got State.faults .unmap fresh = some [.doubleUnmap] := by decide

/-- The table at 150 MHz: TooSlow, an even divisor, and 0 for 32768. -/
theorem test_set_clock_frequency : divisorFor 150000000 4577 = none ∧ divisorFor 150000000 400000 = some 374 ∧
    divisorFor 150000000 300000000 = some 0 ∧ divisorFor 250000000 7629 = none ∧ divisorFor 32768000 1000 = some 0 ∧
    divisorFor 32768000 999 = none := by
  decide +kernel

theorem test_set_clock_frequency_stores : got State.cdiv (.setClockFrequency 400000) idle = some 374 ∧
    got (fun t => (t.cdiv, t.result)) (.setClockFrequency 4577) fresh = some (0x05DC, some (.result (.err .tooSlow))) := by
  decide +kernel

theorem test_get_scl_frequency : frequencyOf 150000000 0x05DC = 100000 ∧ frequencyOf 150000000 0 = 4578 ∧
    frequencyOf 150000000 0x177 = 400000 ∧ frequencyOf 150000000 374 = 401070 ∧ frequencyOf 250000000 624 = 400642 := by
  decide +kernel

theorem test_get_cdiv : exec .getCdiv idle = .next (idle.retOk (.nat 0x05DC)) := by
  rw [show exec .getCdiv idle = .next (idle.retOk (.nat (readDIV idle.free idle |>.extractLsb' 0 16).toNat)) from rfl,
    readDIV_low idle.free idle]
  rfl

/-- T6 and T5. -/
theorem test_set_clock_timeout : got State.tout (.setClockTimeout 0x8000) idle = some 0x8000 := by decide

theorem test_set_slave_address : got State.aAddr (.setSlaveAddress 0xE1) idle = some 0x61 ∧
    got State.aAddr (.setSlaveAddress 0x80) idle = some 0 := by
  decide

theorem test_get_clock_timeout : exec .getClockTimeout idle = .next (idle.retOk (.nat 0x40)) := by
  rw [show exec .getClockTimeout idle = .next (idle.retOk (.nat (readCLKT idle.free idle |>.extractLsb' 0 16).toNat)) from rfl,
    readCLKT, extractLsb'_append_low]
  rfl

theorem test_get_slave_address_unmapped : got State.faults .getSlaveAddress fresh = some [.notInitialized 0x0C] := by decide

theorem test_set_masked_bits : maskedBits 0x12345678 0xFFFFFFFF 0x0000FF00 = 0x1234FF78#32 ∧
    got State.redl (.setMaskedBits 0x18 0xFFFF 0x00FF) { idle with call := some (.masked 0x00300030) } = some 0x00FF := by
  decide

/-! ### Transactions (R211 to R221) -/

theorem test_write_first_step : got (fun t => (t.fifo, t.call)) (.write [0x10, 0x20] 2) { idle with fifo := [1] } =
    some ([], some (.txn (writing (.wPush 0)))) := by
  decide

theorem test_write_start : got (fun t => (t.eng, t.rem, t.call)) (.write [0x10, 0x20] 2) (during (writing .wStart) { idle with dlenW := 2 }) =
    some (.addr, 2, some (.txn (writing .wPoll))) := by
  decide

theorem test_read_first_step : got (fun t => (t.dlenW, t.call)) (.read 3) idle = some (3, some (.txn (reading .rStat [] 0))) := by decide

/-- T4.2: the guard of `take_one`. -/
theorem test_read_overflow : got (fun t => (t.faults, t.fifo)) (.read 3)
      (during (reading .rTake [0x00, 0x01, 0xB0] 0x20) { idle with fifo := [0x11] }) =
    some ([.bufferOverflow 3 3], [0x11]) := by
  decide

/-- T11: ERR before CLKT, and DONE alone. -/
theorem test_classify : classify 0x302 = some .ackError ∧ classify 0x202 = some .timeoutError ∧ classify 0x052 = none ∧
    terminal 0x051 = false ∧ terminal 0x200 = true := by
  decide

/-! ### Sensor command frames (T9, T10) -/

theorem test_command_bytes : halfBytes 0xD304 = [0xD3, 0x04] ∧ halfBytes 0x5102 ++ argumentBytes 0x01A4 = [0x51, 0x02, 0x01, 0xA4, 0x4D] ∧
    halfBytes 0x4600 ++ argumentBytes 1800 = [0x46, 0x00, 0x07, 0x08, 0x96] := by
  decide +kernel

theorem test_cmd_no_arg : got State.call (.cmdNoArg 0x1020) idle = some (some (.txn (writing (.wPush 0)))) := by decide

theorem test_cmd_write_word : got (fun t => t.call.isSome) (.cmdWriteWord 0x5102 0x01A4) idle = some true := by decide +kernel

theorem test_cmd_read_word : wordResult 3 [0x00, 0x01, 0xB0] = .ok (.nat 1) ∧ wordResult 3 [0x00, 0x01, 0xB1] = .err .crcError ∧
    wordResult 2 [0x00, 0x01] = .err .shortRead := by
  decide +kernel

theorem test_read_measurement_zero : measurementOf [0x8000, 0, 1, 2, 3, 4] = .err .notValid ∧
    measurementOf [0x0000, 1, 2, 3, 4, 5] = .ok (.measurement 1 0x00020003 0x00040005) := by
  decide

theorem test_data_ready : readyResult (.ok (.nat 1)) = .ok (.bool true) ∧ readyResult (.ok (.nat 2)) = .ok (.bool false) ∧
    readyResult (.err .crcError) = .ok (.bool false) := by
  decide

theorem test_set_measurement_interval : got (fun t => (t.result, t.trace)) (.setMeasurementInterval 1) idle =
      some (some (.result (.err .invalidArgument)), []) ∧
    got State.result (.setMeasurementInterval 1801) idle = some (some (.result (.err .invalidArgument))) := by
  decide

/-! ### The Engine (R143 to R154) -/

theorem test_addr_nack : (phaseStep { calm with ack := false } addrRead).trace = [.start, .addrByte 0 true .nack, .stop] ∧
    (phaseStep { calm with ack := false } addrRead).err = true := by
  decide

theorem test_tx : (phaseStep calm dataWrite).rem = 1 ∧ (phaseStep calm { dataWrite with rem := 1 }).done = true := by decide

theorem test_rx : (phaseStep calm dataRead).rxStage = some 0xA5 ∧ (commitStep calm (phaseStep calm dataRead)).fifo = [0xA5] := by decide

/-- A byte staged while the host fills the FIFO (log entry 7): RXC steps all the same, and one byte is lost. -/
theorem test_rx_full : commitEnabled { full with rxStage := some 0xA5 } = true ∧
    (commitStep { calm with lost := 16 } { full with rxStage := some 0xA5 }).fifo = full.fifo ∧
    (commitStep calm { full with rxStage := some 0xA5 }).fifo = List.replicate 15 0x55 ++ [0xA5] ∧
    (commitStep calm { full with rxStage := some 0xA5 }).rxStage = none := by
  decide

theorem test_stretch : (phaseStep { calm with stretch := true } addrRead).eng = .stalled ∧
    (phaseStep { calm with stretch := true } { addrRead with tout := 0 }).clkt = false ∧
    (phaseStep { calm with stretch := true, abandon := true } addrRead).trace = [.start, .stretchTimeout, .stop] := by
  decide

/-- WRITE([D3, 04], 2) with the timeout disabled and an endless stretch (95_test_vectors.md): a hang. -/
theorem test_polls_frozen : PollsFrozen [0xD3, 0x04] 2
    (during (writing .wPoll)
      (atLine (.port (.p 0x09 { ProcArgs.zero with nat0 := 2, buffer := [0xD3, 0x04] }) none) { frozen with clkt := false })) :=
  ⟨by decide, rfl, rfl, rfl, rfl, by decide, by decide, _, rfl, rfl⟩

/-! ### Witnesses: the hypotheses of each obligation are met together -/

theorem test_ready : Ready idle ∧ Configurable idle ∧ Ready addrRead ∧ Ready dataWrite ∧ Ready dataRead ∧ Ready frozen ∧ Ready full := by
  decide

theorem test_witness_EncodeOfDecodeIsIdentity : decode (.h 0x2C00000061#38) = .ok (.wrA 0#2 0x61#32) ∧
    decode (.v 0x1BEEF92#25) = .ok (.crcchk 0xBE#8 0xEF#8 0x92#8) ∧ decode (.p 0x15#5 args) = .ok (.setMeasurementInterval 11) := by
  decide

theorem test_witness_StepRunsTheDecodedRequest :
    let s := atLine (.crc8 (.lit 0xBE) (.lit 0xEF) (some 0)) fresh
    nextAgent s = some .host ∧ s.line = some (.plain (.crc8 (.lit 0xBE) (.lit 0xEF) (some 0))) ∧ labelsDefined s.prog = true ∧
    HostOp.request s.locals (.crc8 (.lit 0xBE) (.lit 0xEF) (some 0)) = some (.v 0x0BEEF00#25, some 0) ∧
    decode (.v 0x0BEEF00#25) = .ok (.crc8 0xBE 0xEF) ∧
    ∃ t, exec (.crc8 0xBE 0xEF) s = .next t ∧ t.running = true ∧ t.call = none ∧ t.result = some (.nat 0x92) :=
  ⟨by decide, by decide, by decide, by decide, by decide, _, rfl, by decide, rfl, by decide +kernel⟩

/-- Operands at the ends of their ranges: `wr CLKT, e` and `crcchk` with the widest values, a WRITE of a buffer, and
`call SET_MASKED_BITS(0x1C, e, e)`. -/
theorem test_witness_StepRunsTheDecodedRequest_forms : (Expr.lit 0xFFFFFFFF).eval [] < 2 ^ 32 ∧ (Expr.lit 0xFF).eval [] < 2 ^ 8 ∧
    (Expr.lit 0xFFFF).eval [] < 2 ^ 16 ∧ (∀ b, b ∈ [Expr.lit 0xD3, .lit 0xFF] → b.eval [] < 2 ^ 8) ∧
    (HostOp.request [] (.wr .CLKT (.lit 0xFFFFFFFF))).map (fun p => decode p.1) = some (.ok (.wrClkt 0 0xFFFFFFFF)) ∧
    (HostOp.request [] (.crcchk (.lit 0xFF) (.lit 0) (.lit 0xAC) none)).map (fun p => decode p.1) = some (.ok (.crcchk 0xFF 0 0xAC)) ∧
    (HostOp.request [] (.call 0x09 [.lit 2] [.lit 0xD3, .lit 0xFF] none)).map (fun p => decode p.1) =
      some (.ok (.write [0xD3, 0xFF] 2)) ∧
    (HostOp.request [] (.call 0x0B [.lit 0x1C, .lit 0x40, .lit 0xFFFF] [] none)).map (fun p => decode p.1) =
      some (.ok (.setMaskedBits 0x1C 0x40 0xFFFF)) := by
  decide

/-- The two ways a request is not over: a procedure that still runs, and a host that has stopped. -/
theorem test_witness_StepRunsTheDecodedRequest_stays : (∃ t, exec (.read 3) idle = .next t ∧ t.call ≠ none) ∧
    ∃ t, exec (.rdS 0) fresh = .next t ∧ t.running = false :=
  ⟨⟨_, rfl, by decide⟩, _, rfl, by decide⟩

theorem test_witness_TableWordRunsNext : fresh.running = true ∧ decodeTableWord 32 0x0BEEF00 = some (.crc8 0xBE 0xEF) ∧
    ∃ t, exec (.crc8 0xBE 0xEF)
      { fresh with prog := (fresh.withFetchWord 32 0x0BEEF00).prog, pos := 0, call := none, turn := .host } = .next t :=
  ⟨by decide, by decide, _, rfl⟩

theorem test_witness_EnabledAgentsStep : nextAgent { addrRead with turn := .phase } = some .phase ∧
    nextAgent { idle with rxStage := some 1, turn := .commit } = some .commit ∧
    nextAgent { frozen with rxStage := some 1 } = none ∧
    enabled addrRead.turn { addrRead with prog := [.plain (.rd .S none)] } = true ∧ Quiet idle ∧ Safe idle :=
  ⟨by decide, by decide, by decide, by decide, (by decide : nextAgent idle = none), ⟨by decide, by decide⟩⟩

/-- A host at a jump or an assignment, with label 7 at the next line. -/
def atJump (op : HostOp) : State := { fresh with prog := [.plain op, { label := some 7, op := .halt }] }

theorem test_witness_HostStepsAndRefusals : ∀ op ∈ [HostOp.jz (.lit 0) 7, .jz (.lit 1) 7, .jnz (.lit 0) 7, .jnz (.lit 1) 7,
      .j 7, .assign 3 (.lit 5)],
    nextAgent (atJump op) = some .host ∧ (atJump op).line = some (.plain op) ∧ labelsDefined (atJump op).prog = true ∧
    position (atJump op).prog 7 = some 1 := by
  decide

/-- A read with data (word 0x0400000001), an unassigned id, and `j NOWHERE` (95_test_vectors.md section 10). -/
theorem test_witness_HostStepsAndRefusals_refused :
    nextAgent (atLine (.port (.h 0x0400000001#38) none) idle) = some .host ∧
    decode (.h 0x0400000001#38) = .error .reservedEncoding ∧
    nextAgent (atLine (.port (.p 0x0E#5 ProcArgs.zero) none) fresh) = some .host ∧
    decode (.p 0x0E#5 ProcArgs.zero) = .error .unknownProcedure ∧
    nextAgent (atLine (.j 9) fresh) = some .host ∧ labelsDefined (atLine (.j 9) fresh).prog = false := by
  decide

theorem test_witness_StopsAreSticky :
    (∃ t, step { addrRead with faults := [.zeroLengthStart], turn := .phase } = .next t) ∧
    (∃ t, step { addrRead with refused := some .reservedBits, turn := .phase } = .next t) ∧
    ({ addrRead with faults := [.zeroLengthStart] } : State).running = false :=
  ⟨⟨_, rfl⟩, ⟨_, rfl⟩, by decide⟩

/-- The outcomes of R340: the Engine may still step on a stopped host and after a return, and a host with a line to
go has not ended. -/
theorem test_witness_StopsAreSticky_outcomes :
    outcome { addrRead with faults := [.zeroLengthStart], turn := .phase } = some .fault ∧
    outcome { addrRead with refused := some .reservedBits, turn := .phase } = some .refused ∧
    outcome { idle with prog := [.plain .halt], rxStage := some 0xA5, result := some (.result (.ok (.nat 2))) } =
      some (.success (some (.result (.ok (.nat 2))))) ∧
    (∃ t, step { idle with prog := [.plain .halt], rxStage := some 0xA5, turn := .commit } = .next t) ∧
    outcome (atLine (.rd .S none) idle) = none :=
  ⟨by decide, by decide, by decide, ⟨_, rfl⟩, by decide⟩

theorem test_witness_RequestChecksInOrder : ({ fresh with faults := [.zeroLengthStart] } : State).running = false ∧
    fresh.running = true ∧ fresh.mapped = false ∧ Ready idle ∧
    Reg.CLKT.offset + (1#2).toNat > 0x1C ∧ Reg.DEL.offset + (3#2).toNat ≤ 0x1C ∧ (Reg.DEL.offset + (3#2).toNat) % 4 ≠ 0 ∧
    (0x80#32 &&& Reg.A.reservedMask) ≠ 0#32 ∧ (0x7F#32 &&& Reg.A.reservedMask) = 0#32 ∧ Ready addrRead ∧ addrRead.eng ≠ .idle := by
  decide

theorem test_witness_ReadControlReturnsStoredBits : Ready idle ∧ Ready addrRead := by decide

theorem test_witness_ReadStatusIsOneSnapshot : Ready idle ∧ Ready full ∧ Ready dataWrite ∧ Ready frozen := by decide

theorem test_witness_ReadLengthIsRemainingOrWritten : Ready addrRead ∧ addrRead.eng ≠ .idle ∧ Ready { idle with done := true } ∧
    Ready idle ∧ idle.eng = .idle ∧ idle.done = false := by
  decide

theorem test_witness_ReadConfigurationRegisters : Ready idle ∧ idle.cfg.cdivReadback = .asWritten ∧
    Ready { idle with cfg := { cfg with cdivReadback := .bit0Cleared } } := by
  decide

theorem test_witness_PopFifo : Ready dataWrite ∧ dataWrite.eng ≠ .idle ∧ dataWrite.xRead = false ∧ Ready idle ∧ idle.fifo = [] ∧
    Ready { dataRead with fifo := [0x43, 0xC8] } ∧ dataRead.xRead = true := by
  decide

theorem test_witness_PushFifo : 0xFF#32 &&& 0xFFFFFF00#32 = 0#32 ∧ Ready dataRead ∧ dataRead.eng ≠ .idle ∧ dataRead.xRead = true ∧
    Ready full ∧ full.eng = .idle ∧ full.fifo.length = full.cfg.fifoDepth ∧ Ready dataWrite ∧ dataWrite.xRead = false ∧
    dataWrite.fifo.length ≠ dataWrite.cfg.fifoDepth := by
  decide

theorem test_witness_WriteStatusClearsFlags : Ready dataWrite ∧ 0x3FF#32 &&& 0xFFFFFC00#32 = 0#32 := by decide

theorem test_witness_WriteConfigurationRegisters : Configurable idle ∧ 0xFFFF#32 &&& 0xFFFF0000#32 = 0#32 ∧
    0x7F#32 &&& 0xFFFFFF80#32 = 0#32 := by
  decide

theorem test_witness_WriteControlStoresClearsStarts : Configurable { idle with dlenW := 0xFFFF } ∧
    0x87B1#32 &&& 0xFFFF784E#32 = 0#32 ∧ (0x87B1#32).getLsbD 7 = true ∧ (0x87B1#32).getLsbD 15 = true ∧ idle.pinsRouted = true ∧
    0x8730#32 &&& 0xFFFF784E#32 = 0#32 ∧ (0x8730#32).getLsbD 7 = false := by
  decide

theorem test_witness_StartChecksInOrder : Configurable idle ∧ idle.dlenW = 0#16 ∧ 0x80#32 &&& 0xFFFF784E#32 = 0#32 ∧
    (0x80#32).getLsbD 7 = true ∧ (0x80#32).getLsbD 15 = false ∧ 0x8080#32 &&& 0xFFFF784E#32 = 0#32 ∧
    (0x8080#32).getLsbD 7 = true ∧ (0x8080#32).getLsbD 15 = true ∧ Configurable { idle with dlenW := 1, pinsRouted := false } := by
  decide

theorem test_witness_CrcRequestsComplete : fresh.running = true ∧ crc8 0xBE 0xEF = 0x92 ∧ crc8 0xBE 0xEF ≠ 0x93 := by
  decide +kernel

theorem test_witness_SingleBitFlipIsDetected : (0 : Nat) < 16 ∧ (15 : Nat) < 16 ∧ fresh.running = true ∧
    crc8 0xBE 0xEF = 0x92 ∧ (0 : Nat) < 8 ∧ (7 : Nat) < 8 := by
  decide +kernel

theorem test_witness_FrameValidation : ([0, 0] : List Byte).length ≠ 3 * 1 ∧ ([0x00, 0x01, 0xB0] : List Byte).length = 3 * 1 ∧
    crc8 0x00 0x01 = 0xB0 ∧ crc8 0x00 0x01 ≠ 0xB1 := by
  decide +kernel

theorem test_witness_MappingProcedures : idle.running = true ∧ idle.mapped = true ∧ fresh.running = true ∧ fresh.mapped = false := by
  decide

theorem test_witness_SetClockFrequency : idle.running = true ∧ idle.cfg.coreClockHz / 4577 > 32768 ∧ Configurable idle ∧
    idle.cfg.coreClockHz / 400000 < 32768 ∧ Configurable { idle with cfg := { cfg with coreClockHz := 32768000 } } ∧
    32768000 / 1000 = 32768 ∧ fresh.running = true ∧ fresh.mapped = false ∧ Ready dataRead ∧ dataRead.eng ≠ .idle := by
  decide +kernel

theorem test_witness_ReadBackFrequency : Ready idle ∧ idle.cfg.cdivReadback = .asWritten ∧
    Ready { idle with cfg := { cfg with cdivReadback := .bit0Cleared }, cdiv := 0x177 } ∧ Ready { idle with cdiv := 0 } ∧
    fresh.running = true ∧ fresh.mapped = false := by
  decide

theorem test_witness_ClockLaws :
    (∃ t, exec (.setClockFrequency 0) fresh = .next t ∧ t.running = true ∧ t.result = some (.result (.err .tooSlow))) ∧
    (∃ t u, exec (.setClockFrequency 400000) idle = .next t ∧ exec (.setClockFrequency 400000) t = .next u) ∧
    Configurable idle ∧ idle.cfg.coreClockHz / 75000000 = 2 ∧ idle.cfg.coreClockHz = 150000000 :=
  ⟨⟨_, rfl, by decide, rfl⟩, ⟨_, _, rfl, rfl⟩, by decide, by decide +kernel, rfl⟩

theorem test_witness_TimeoutAndAddress : Configurable idle ∧ Ready dataRead ∧ dataRead.eng ≠ .idle ∧
    fresh.running = true ∧ fresh.mapped = false := by
  decide

theorem test_witness_SetMaskedBitsIsReadThenWrite :
    (idle.running = true ∧ idle.call = none ∧
      ∃ u v, exec (readInstr .DEL 0#2) idle = .next u ∧ u.running = true ∧ u.result = some (.nat v)) ∧
    ∃ u, exec (writeInstr .A 0#2 ((0x22#32 &&& ~~~0x7F#32) ||| (0x61#32 &&& 0x7F#32))) { idle with call := some (.masked 0x22) } =
      .next u ∧ u.running = true :=
  ⟨⟨by decide, rfl, _, _, rfl, by decide, rfl⟩, _, rfl, by decide⟩

theorem test_witness_SetMaskedBitsIsReadThenWrite_stops :
    (∃ u, exec (readInstr .FIFO 0#2) dataWrite = .next u ∧ u.running = false) ∧
    (∃ u, exec (writeInstr .A 0#2 ((0xE1#32 &&& ~~~0#32) ||| (0#32 &&& 0#32))) { idle with call := some (.masked 0xE1) } =
      .next u ∧ u.running = false) ∧
    Ready idle ∧ 0x1D > 0x1C ∧ 0x1B ≤ 0x1C ∧ 0x1B % 4 ≠ 0 :=
  ⟨⟨_, rfl, by decide⟩, ⟨_, rfl, by decide⟩, by decide, by decide, by decide, by decide⟩

theorem test_witness_SetMaskedBitsCompletes : Configurable idle ∧ idle.call = none ∧
    0xFFFFFFFF#32 &&& 0xFFFFFF80#32 = 0xFFFFFF80#32 ∧ 0x7F#32 &&& 0xFFFFFF80#32 = 0#32 := by
  decide

theorem test_witness_ConfigurationPersists : (∃ t, exec (.wrDiv 0 2) idle = .next t ∧ t.cdiv ≠ idle.cdiv) ∧
    (∃ t, exec (.wrClkt 0 2) idle = .next t ∧ t.tout ≠ idle.tout) ∧ ∃ t, exec (.wrA 0 2) idle = .next t ∧ t.aAddr ≠ idle.aAddr :=
  ⟨⟨_, rfl, by decide⟩, ⟨_, rfl, by decide⟩, _, rfl, by decide⟩

theorem test_witness_AddressStep : addrRead.eng = .addr ∧ calm.stretch = false ∧ calm.ack = true ∧
    ({ calm with ack := false } : Draws).ack = false := by
  decide

theorem test_witness_TransmitStep : dataWrite.eng = .data ∧ dataWrite.xRead = false ∧ dataWrite.fifo = [0xD3] ∧ dataWrite.rem ≠ 1 ∧
    ({ dataWrite with rem := 1 } : State).rem = 1 ∧ calm.stretch = false := by
  decide

theorem test_witness_ReceiveAndCommitSteps : dataRead.eng = .data ∧ dataRead.xRead = true ∧ dataRead.rem ≠ 1 ∧
    dataRead.cfg.rxCommitLag ≠ .none ∧ ({ dataRead with rem := 1, rxStage := some 0xA5 } : State).rxStage = some 0xA5 ∧
    dataRead.fifo.length < dataRead.cfg.fifoDepth ∧ ({ full with rxStage := some 0xA5 } : State).rxStage = some 0xA5 ∧
    full.fifo.length ≥ full.cfg.fifoDepth := by
  decide

theorem test_witness_StretchStep : phaseEnabled addrRead = true ∧ phaseEnabled dataWrite = true ∧ phaseEnabled dataRead = true ∧
    addrRead.tout ≠ 0 ∧ phaseEnabled { addrRead with tout := 0 } = true ∧ addrRead.cfg.clktZeroDisables = true := by
  decide

theorem test_witness_StalledStaysStalled : frozen.eng = .stalled ∧
    (∃ t, step (atLine (.wr .S (.lit 0x302)) frozen) = .next t) ∧ Ready frozen ∧ 0x8080#32 &&& 0xFFFF784E#32 = 0#32 :=
  ⟨rfl, ⟨_, rfl⟩, by decide, by decide⟩

theorem test_witness_OnlyStatusWritesClearFlags :
    (∃ t, exec (.wrS 0 0x200) frozen = .next t ∧ frozen.clkt = true ∧ t.clkt = false) ∧
    ∃ t, exec (.read 3) (during (reading .rStat [] 0) { idle with dlenW := 3, done := true }) = .next t ∧ t.done = false :=
  ⟨⟨_, rfl, rfl, by decide⟩, _, rfl, by decide⟩

/-- A READ of three bytes with one taken and two to come. -/
def readRuns : State :=
  during (reading .rLoop [0xA5] 0) (atLine (.port (.p 0x0A { ProcArgs.zero with nat0 := 3 }) none)
    { dataRead with dlenW := 3, trace := [.start, .addrByte 0 true .ack, .rxByte 0xA5 .ack], turn := .phase })

theorem test_readRuns_owned : CallOwned readRuns := by
  intro c hc
  cases hc
  exact ⟨⟨.read 3, by decide, by decide⟩, fun t ht => by cases ht; decide⟩

theorem test_witness_StepKeepsFifoBound : FifoBounded readRuns ∧ ∃ t, step readRuns = .next t := ⟨by decide, _, rfl⟩

theorem test_witness_StepKeepsTransferSound : TransferSound readRuns ∧ readRuns.eng ≠ .idle ∧ ∃ t, step readRuns = .next t :=
  ⟨by decide, by decide, _, rfl⟩

theorem test_witness_StepKeepsTraceGrammar : TraceSound readRuns ∧ ∃ t, step readRuns = .next t :=
  ⟨(by decide : busPhase readRuns.trace = some (.moving true)), _, rfl⟩

theorem test_witness_StepKeepsReadWithinBuffer : NoOverflow readRuns ∧ TransferSound readRuns ∧ ∃ t, step readRuns = .next t := by
  refine ⟨⟨test_readRuns_owned, ?_, ?_⟩, by decide, _, rfl⟩
  · simp [readRuns, during, atLine, dataRead, idle, fresh, State.resetWith]
  · intro t ht _
    cases ht
    exact ⟨by decide, by decide, by decide, by decide, by decide⟩

theorem test_witness_ReadTracked : ReadTracked readRuns := by
  intro t ht _
  cases ht
  rfl

theorem test_witness_StepKeepsLocalsCanonical : LocalsCanonical [(0, .nat 1), (2, .nat 0)] ∧ LocalsCanonical readRuns.locals ∧
    ∃ t, step readRuns = .next t :=
  ⟨by decide, by decide, _, rfl⟩

/-- A READ of three bytes that has drained the FIFO. -/
def readEnds : State :=
  during (reading .rDrain [1, 2, 3] 0x2) (atLine (.port (.p 0x0A { ProcArgs.zero with nat0 := 3 }) none)
    { idle with dlenW := 3, done := true, trace := [.start, .addrByte 0 true .ack, .rxByte 1 .ack, .rxByte 2 .ack, .rxByte 3 .nack, .stop] })

theorem test_witness_ReadReturnsBytesInWireOrder : ReadTracked readEnds ∧ NoOverflow readEnds ∧
    ∃ t, exec (.read 3) readEnds = .next t ∧ Returned (.ok (.bytes 3 [1, 2, 3])) t := by
  refine ⟨?_, ⟨?_, by simp [readEnds, during, atLine, idle, fresh, State.resetWith], ?_⟩, ?_⟩
  · intro t ht _
    cases ht
    rfl
  · intro c hc
    cases hc
    exact ⟨⟨.read 3, by decide, by decide⟩, fun t ht => by cases ht; decide⟩
  · intro t ht _
    cases ht
    exact ⟨by decide, by decide, by decide, by decide, by decide⟩
  · rw [exec_read_of_call 3 (by decide) (show readEnds.call = some (.txn (reading .rDrain [1, 2, 3] 0x2)) from rfl),
      txnStep_rDrain (by decide) rfl, if_neg (by decide)]
    exact ⟨_, rfl, rfl, rfl⟩

/-- A WRITE of two bytes whose transfer has completed. -/
def writeEnds : State :=
  during (writing .wPoll) (atLine (.port (.p 0x09 { ProcArgs.zero with nat0 := 2, buffer := [0x10, 0x20] }) none)
    { idle with dlenW := 2, done := true, trace := [.start, .addrByte 0 false .ack, .txByte 0x10 .ack, .txByte 0x20 .ack, .stop] })

theorem test_witness_WriteSuccessMeansAllBytesAcknowledged : WriteTracked writeEnds ∧ TransferSound writeEnds ∧
    (∃ t, step { writeEnds with turn := .host } = .next t) ∧
    ∃ t, exec (.write [0x10, 0x20] 2) writeEnds = .next t ∧ Returned (.ok (.nat 2)) t := by
  refine ⟨⟨?_, by decide, ?_⟩, by decide, ⟨_, rfl⟩, ?_⟩
  · intro c hc
    cases hc
    exact ⟨⟨.write [0x10, 0x20] 2, by decide, by decide⟩, fun t ht => by cases ht; decide⟩
  · intro t ht _
    cases ht
    exact ⟨by decide, by decide, by decide, by decide, by decide, .inr (.inr (by decide))⟩
  · rw [exec_write_of_call [0x10, 0x20] 2 (by decide) (show writeEnds.call = some (.txn (writing .wPoll)) from rfl),
      txnStep_wPoll (by decide) rfl, if_neg (by decide), if_neg (by decide), if_pos (by decide)]
    exact ⟨_, rfl, rfl, rfl⟩

theorem test_witness_ResetMeetsInvariants : cfg.fifoDepth ≤ 0xFFFF := by decide

theorem test_witness_TransactionPreconditions : fresh.running = true ∧ fresh.call = none ∧ 17 > fresh.cfg.fifoDepth ∧
    3 > ([0x10, 0x20] : List Byte).length ∧ (0x10000 : Nat) > 0xFFFF ∧ fresh.mapped = false ∧
    dataRead.running = true ∧ dataRead.call = none ∧ dataRead.mapped = true ∧ dataRead.eng ≠ .idle ∧
    16 ≤ dataRead.cfg.fifoDepth := by
  decide

theorem test_witness_WriteArms : Configurable idle ∧ idle.pinsRouted = true ∧ idle.call = none ∧
    Configurable { idle with pinsRouted := false } ∧ 0 < 16 ∧ 16 ≤ idle.cfg.fifoDepth ∧
    16 ≤ (List.replicate 16 (0x55 : Byte)).length ∧ 16 ≤ 0xFFFF := by
  decide

theorem test_witness_ReadArms : Configurable idle ∧ idle.pinsRouted = true ∧ idle.call = none ∧
    Configurable { idle with pinsRouted := false } ∧ 0 < 0xFFFF ∧ 0xFFFF ≤ 0xFFFF := by
  decide

/-- A host polling in `t`, with the three flags. -/
def polls (t : Txn) (done err clkt : Bool) : State := during t { idle with done := done, err := err, clkt := clkt }

theorem test_witness_WritePolls : ∀ done err clkt : Bool, Ready (polls (writing .wPoll) done err clkt) ∧
    (polls (writing .wPoll) done err clkt).call = some (.txn (writing .wPoll)) ∧ (writing .wPoll).pos = .wPoll ∧
    (polls (writing .wPoll) done err clkt).done = done ∧ (polls (writing .wPoll) done err clkt).err = err ∧
    (polls (writing .wPoll) done err clkt).clkt = clkt := by
  decide

theorem test_witness_ReadPolls : (∀ done err clkt : Bool, Ready (polls (reading .rLoop [] 0) done err clkt) ∧
      (polls (reading .rLoop [] 0) done err clkt).call = some (.txn (reading .rLoop [] 0)) ∧
      (polls (reading .rLoop [] 0) done err clkt).fifo = []) ∧
    Ready (during (reading .rLoop [] 0) { dataRead with fifo := [1] }) := by
  decide

theorem test_witness_ReadTakesOne (snap : Word) (buf : List Byte) :
    Ready (during (reading .rTake buf snap) { idle with fifo := [7, 8] }) ∧
    (during (reading .rTake buf snap) { idle with fifo := [7, 8] }).call = some (.txn (reading .rTake buf snap)) ∧
    (during (reading .rTake buf snap) { idle with fifo := [7, 8] }).eng = .idle ∧
    (reading .rTake buf snap).length = 3 ∧ (reading .rTake buf snap).count = buf.length :=
  ⟨⟨rfl, rfl⟩, rfl, rfl, rfl, rfl⟩

/-- A snapshot for each of the four clauses after the byte is taken. -/
theorem test_witness_ReadTakesOne_snapshots : 0x20#32 &&& 0x302#32 = 0#32 ∧ (0x122#32).getLsbD 8 = true ∧
    (0x222#32).getLsbD 8 = false ∧ (0x222#32).getLsbD 9 = true ∧ (0x22#32).getLsbD 8 = false ∧ (0x22#32).getLsbD 9 = false ∧
    (0x22#32).getLsbD 1 = true := by
  decide

theorem test_witness_ReadDrains : Ready (during (reading .rDrain [1] 0) { idle with fifo := [7] }) ∧
    Ready (during (reading .rDrain [1] 0) idle) ∧ idle.fifo = [] ∧
    Ready (during (reading .rDrainTake [1, 2, 3] 0) { idle with fifo := [7] }) ∧ (reading .rDrainTake [1, 2, 3] 0).count ≥ 3 ∧
    (reading .rDrainTake [1, 2] 0).count < 3 := by
  decide

theorem test_witness_WriteToAcknowledgingTarget : Configurable idle ∧ idle.pinsRouted = true ∧ idle.call = none ∧
    2 ≤ idle.cfg.fifoDepth ∧ 2 ≤ ([0x10, 0x20] : List Byte).length ∧ [calm, calm, calm].length = 2 + 1 ∧
    ∀ d ∈ [calm, calm, calm], d.ack = true ∧ d.stretch = false := by
  decide

theorem test_witness_ReadFromAcknowledgingTarget : Configurable idle ∧ idle.pinsRouted = true ∧ idle.call = none ∧
    [calm, calm].length ≤ idle.cfg.fifoDepth ∧ ∀ d ∈ [calm, calm, calm], d.ack = true ∧ d.stretch = false := by
  decide

theorem test_witness_WriteCommands : Ready idle ∧ idle.eng = .idle ∧ idle.pinsRouted = true ∧ idle.call = none ∧
    5 ≤ idle.cfg.fifoDepth ∧ Ready (polls (writing .wPoll) true false false) ∧ Ready (polls (writing .wPoll) false true false) ∧
    Ready (polls (writing .wPoll) false false true) := by
  decide

theorem test_witness_CommandsRunTheirTransactions :
    (∃ t, exec (.write [0x10, 0x20] 2) (during (writing .wClear) idle) = .next t ∧ t.call ≠ none) ∧
    (∃ t, exec (.read 3) (during (reading .rLen [] 0) idle) = .next t ∧ t.call ≠ none) ∧
    (∃ t, exec (.read 3) (polls (reading .rLoop [] 0) false true false) = .next t ∧ Returned (.err .ackError) t) ∧
    Configurable idle ∧ 2 ≤ idle.cfg.fifoDepth := by
  refine ⟨⟨_, rfl, by decide⟩, ⟨_, rfl, by decide⟩, ?_, by decide, by decide⟩
  rw [exec_read_of_call 3 (by decide)
      (show (polls (reading .rLoop [] 0) false true false).call = some (.txn (reading .rLoop [] 0)) from rfl),
    txnStep_rLoop (by decide) rfl, if_neg (by decide), if_pos (by decide)]
  exact ⟨_, rfl, rfl, rfl⟩

theorem test_witness_ReadWordCommands : Ready (during (reading .rDrain [0x00, 0x01, 0xB0] 0) idle) ∧ idle.fifo = [] ∧
    (reading .rDrain [0x00, 0x01, 0xB0] 0).count = 3 ∧ crc8 0x00 0x01 = 0xB0 ∧ crc8 0x00 0x01 ≠ 0xB1 ∧
    (reading .rDrain [0x00, 0x01] 0).count ≠ 3 ∧ Ready (polls (writing .wPoll) true false false) := by
  decide +kernel

theorem test_witness_MeasurementCommand : Ready (during { reading .rDrain [] 0 with length := 18, count := 18 } idle) ∧
    (reading .rDrain [] 0).count ≠ 18 ∧
    validate [0x43, 0xC8, 0xDB, 0, 0, 0x80, 0x41, 0xB4, 0x87, 0, 0, 0x81, 0x42, 0x48, 0x55, 0, 0, 0x81] 6 = .error .crcError ∧
    validate [0x43, 0xC8, 0xDB, 0, 0, 0x81, 0x41, 0xB4, 0x87, 0, 0, 0x81, 0x42, 0x48, 0x55, 0, 0, 0x81] 6 =
      .ok [0x43C8, 0, 0x41B4, 0, 0x4248, 0] ∧
    validate [0, 0, 0x81, 0, 0, 0x81, 0x41, 0xB4, 0x87, 0, 0, 0x81, 0x42, 0x48, 0x55, 0, 0, 0x81] 6 =
      .ok [0, 0, 0x41B4, 0, 0x4248, 0] ∧
    Ready (polls (writing .wPoll) true false false) ∧ (polls (writing .wPoll) true false false).done = true ∧
    (polls (writing .wPoll) true true true).err = true ∧ (polls (writing .wPoll) false false true).clkt = true := by
  decide +kernel

theorem test_witness_MeasurementInterval : fresh.running = true ∧ (1 < 2 ∧ 1801 > 1800) ∧ (2 ≤ 2 ∧ 1800 ≤ 1800) ∧
    Ready (polls (writing .wPoll) true false false) := by
  decide

end Sys2Proof.Tests
end

section
/-! SUPPORT. The choice of the agent (R10, R140, R340): when the Engine's two steps are enabled, whose step a step is, and a host that stands at a request. -/

namespace Sys2Proof.Machine

/-! ### When the Engine has a step -/

/-- R140: the phase step needs a phase with a step, and in the data phase a byte to send or room for one. -/
theorem phaseEnabled_iff (s : State) : phaseEnabled s = true ↔
    s.eng = .addr ∨ (s.eng = .data ∧ s.xRead = false ∧ s.fifo.length > 0) ∨
      (s.eng = .data ∧ s.xRead = true ∧ s.rxStage = none ∧ s.fifo.length < s.cfg.fifoDepth) := by
  unfold phaseEnabled
  cases s.eng with
  | idle | addr | stalled => simp
  | data => cases s.xRead <;> simp

/-- R38, R150: RXC needs a staged byte and an Engine that is not frozen. -/
theorem commitEnabled_iff (s : State) : commitEnabled s = true ↔ (∃ v, s.rxStage = some v) ∧ s.eng ≠ .stalled := by
  simp [commitEnabled, Option.isSome_iff_exists]

/-! ### Whose step a step is -/

theorem nextAgent_of_enabled_turn {s : State} (h : enabled s.turn s = true) : nextAgent s = some s.turn := by
  unfold nextAgent
  generalize s.turn = a at h ⊢
  cases a <;> exact List.find?_cons_of_pos h

theorem step_of_host {s : State} (h : nextAgent s = some .host) : step s = hostStep s := by
  simp [step, systemStep, h]

theorem step_of_phase {s : State} (h : nextAgent s = some .phase) : step s = .next (tick s (phaseStep s.free s)) := by
  simp [step, systemStep, h]

theorem step_of_commit {s : State} (h : nextAgent s = some .commit) : step s = .next (tick s (commitStep s.free s)) := by
  simp [step, systemStep, h]

theorem step_of_quiet {s : State} (h : Quiet s) : step s = s.stopped := by
  have h : nextAgent s = none := h
  simp [step, systemStep, h]

theorem stopped_of_safe {s : State} (h : Safe s) : s.stopped = .next s := by
  obtain ⟨hf, hr⟩ := h
  simp [State.stopped, hf, hr]

/-! ### A host that stands at a request -/

/-- A request that decodes to `i` runs `exec i`, and the host's bookkeeping follows. -/
theorem requestStep_of_exec {s t : State} {w : PortWord} {i : Instr} (dst : Option Nat) (hd : decode w = .ok i)
    (he : exec i s = .next t) : requestStep w dst s = .next (tick s (endStep dst t)) := by
  simp [requestStep, hd, he]

@[simp] theorem load_running (w : PortWord) (s : State) : (s.load w).running = s.running := rfl

@[simp] theorem load_hasLine (w : PortWord) (s : State) : (s.load w).hasLine = true := rfl

theorem nextAgent_load {s : State} (w : PortWord) (h : s.running = true) : nextAgent (s.load w) = some .host :=
  have hen : enabled .host (s.load w) = true := by simp [enabled, h]
  nextAgent_of_enabled_turn (s := s.load w) hen

theorem hostStep_load (w : PortWord) (s : State) : hostStep (s.load w) = requestStep w none (s.load w) := rfl

/-- The next step of a loaded request is the request's. -/
theorem step_load {s : State} (w : PortWord) (h : s.running = true) :
    step (s.load w) = requestStep w none (s.load w) := by
  rw [step_of_host (nextAgent_load w h), hostStep_load]

/-! ### An opcode-table word -/

theorem decodeTableWord_eq_some_iff (nbits w : Nat) (i : Instr) :
    decodeTableWord nbits w = some i ↔ ∃ p, tableWord nbits w = some p ∧ decode p = .ok i := by
  unfold decodeTableWord
  cases tableWord nbits w with
  | none => simp
  | some p => cases hd : decode p <;> simp [hd]

theorem withFetchWord_of_tableWord {nbits w : Nat} {p : PortWord} (s : State) (h : tableWord nbits w = some p) :
    s.withFetchWord nbits w = s.load p := by
  simp [State.withFetchWord, h]

/-! ### The statements -/

/-- Settles O7, from when each Engine step is enabled, the order of the offers, and the branches of the step. -/
theorem enabledAgentsStep : Obligations.EnabledAgentsStep := fun s =>
  ⟨phaseEnabled_iff s, commitEnabled_iff s, fun _ => enabled_of_nextAgent, nextAgent_of_enabled_turn,
    nextAgent_none_iff s, step_of_phase, step_of_commit, fun hq hs => (step_of_quiet hq).trans (stopped_of_safe hs)⟩

/-- Settles O6: the placed word is a loaded request, whose step is the next one. -/
theorem tableWordRunsNext : Obligations.TableWordRunsNext := by
  intro s t nbits w i hrun hword hexec
  obtain ⟨p, htable, hdecode⟩ := (decodeTableWord_eq_some_iff nbits w i).1 hword
  rw [withFetchWord_of_tableWord s htable] at hexec ⊢
  have hexec : exec i (s.load p) = .next t := hexec
  rw [step_load p hrun, requestStep_of_exec none hdecode hexec]

end Sys2Proof.Machine
end

section
/-! SUPPORT. The invariants of the FIFO and of the transfer (R30, R47): each kind of move keeps them, so every step does. -/

namespace Sys2Proof.Machine

/-! ### The CLEAR action -/

/-- The CLEAR field is 0 and nothing happens, or the FIFO and the stage are emptied (R102, R103). -/
theorem cleared_cases (data : Word) (s : State) : cleared data s = s ∨ cleared data s = clearFifo s :=
  ite_eq_or_eq _ _ _

theorem cleared_fifo_length_le (data : Word) (s : State) : (cleared data s).fifo.length ≤ s.fifo.length := by
  rcases cleared_cases data s with h | h <;> simp [h]

/-- CLEAR leaves everything but the FIFO and the stage alone. -/
theorem cleared_eq_with (data : Word) (s : State) :
    ∃ f g, cleared data s = { s with fifo := f, rxStage := g } := by
  rcases cleared_cases data s with h | h
  · exact ⟨_, _, h⟩
  · exact ⟨_, _, h⟩

/-! ### The FIFO within its depth (R30) -/

theorem HostSide.keeps_fifoBounded {s t : State} (h : FifoBounded s) (hs : HostSide s t) : FifoBounded t := by
  obtain ⟨m, p, f, r, c, v, rfl, -⟩ := hs
  exact h

theorem RegEffect.keeps_fifoBounded {s t : State} (h : FifoBounded s) (hr : RegEffect s t) : FifoBounded t := by
  cases hr with
  | none | status | config => exact h
  | pop b rest hf _ =>
    rw [FifoBounded, hf, List.length_cons] at h
    exact Nat.le_of_succ_le h
  | push b _ hl =>
    have hlt : s.fifo.length < s.cfg.fifoDepth := Nat.lt_of_le_of_ne h hl
    simpa using hlt
  | control _ data | start _ data =>
    obtain ⟨f, g, hc⟩ := cleared_eq_with data (storeControl data s)
    have hle := cleared_fifo_length_le data (storeControl data s)
    rw [hc] at hle ⊢
    exact hle.trans h

/-- Only RXB appends a byte, and RXB needs room for it (R140, R149). -/
theorem EngineMove.keeps_fifoBounded {s t : State} (h : FifoBounded s) (hm : EngineMove s t) : FifoBounded t := by
  cases hm with
  | abandoned u _ _ hu | frozen u hu | endless u hu =>
    rcases hu with ⟨-, rfl⟩ | ⟨-, -, rfl⟩ | ⟨-, -, rfl⟩
    · exact h
    · exact h
    · exact (List.tail_sublist _).length_le.trans h
  | addrAck | addrNack => exact h
  | txMore _ _ b rest hf | txLast _ _ b rest hf | txNack _ _ b rest hf =>
    rw [FifoBounded, hf, List.length_cons] at h
    exact Nat.le_of_succ_le h
  | rxMore _ _ _ hl v f g hfg | rxLast _ _ _ hl v f g hfg =>
    rcases hfg with ⟨rfl, -⟩ | ⟨rfl, -⟩
    · simpa using hl
    · exact h

/-- RXC appends where there is room and loses a byte where there is none (log entry 7). -/
theorem appended_length_le (d : Draws) (v : Byte) {s : State} (h : FifoBounded s) :
    (appended d v s).length ≤ s.cfg.fifoDepth := by
  rw [appended_length]
  split
  · next hlt => exact hlt
  · exact h

/-- Settles O39: each kind of move keeps the bound; RXC by `appended_length_le`. -/
theorem stepKeepsFifoBound : Obligations.StepKeepsFifoBound := fun _ _ =>
  step_keeps FifoBounded (fun _ _ h => h) (fun _ _ _ h => h) (fun _ _ => HostSide.keeps_fifoBounded)
    (fun _ _ => RegEffect.keeps_fifoBounded) (fun _ _ => EngineMove.keeps_fifoBounded)
    (fun d _ v h _ => appended_length_le d v h)

/-! ### The transfer and its registers (R47, R141, R142) -/

theorem HostSide.keeps_transferSound {s t : State} (h : TransferSound s) (hs : HostSide s t) : TransferSound t := by
  obtain ⟨m, p, f, r, c, v, rfl, hp, -⟩ := hs
  intro he
  obtain ⟨hle, hpos, hx, ha, hen, hpins⟩ := h he
  exact ⟨hle, hpos, hx, ha, hen, hp hpins⟩

/-- A register write that could break the latched values needs an idle Engine, and a start latches them afresh. -/
theorem RegEffect.keeps_transferSound {s t : State} (h : TransferSound s) (hr : RegEffect s t) : TransferSound t := by
  cases hr with
  | none | pop | push | status => exact h
  | config he => exact fun hne => absurd he hne
  | control he data =>
    obtain ⟨f, g, hc⟩ := cleared_eq_with data (storeControl data s)
    rw [hc]
    exact fun hne => absurd he hne
  | start _ data hen hl hp =>
    obtain ⟨f, g, hc⟩ := cleared_eq_with data (storeControl data s)
    rw [hc]
    have hpos : 0 < s.dlenW.toNat := Nat.pos_of_ne_zero fun h0 => hl (BitVec.eq_of_toNat_eq h0)
    exact fun _ => ⟨Nat.le_refl _, fun _ => hpos, rfl, rfl, hen, hp⟩

/-- Taking one of at least two bytes leaves at least one. -/
theorem toNat_sub_one_of_ne_one {r : Half} (hpos : 0 < r.toNat) (hne : r ≠ 1#16) :
    0 < (r - 1#16).toNat ∧ (r - 1#16).toNat ≤ r.toNat := by
  bv_omega

/-- A move ends the transfer, freezes it with its values, or counts one byte of several down. -/
theorem EngineMove.keeps_transferSound {s t : State} (h : TransferSound s) (hm : EngineMove s t) :
    TransferSound t := by
  cases hm with
  | abandoned | addrNack | txLast | txNack | rxLast => exact fun hne => absurd rfl hne
  | frozen u hu | endless u hu =>
    intro _
    have hactive : s.eng ≠ .idle := by rcases hu with ⟨he, -⟩ | ⟨he, -⟩ | ⟨he, -⟩ <;> simp [he]
    obtain ⟨hle, -, hlatched⟩ := h hactive
    rcases hu with ⟨-, rfl⟩ | ⟨-, -, rfl⟩ | ⟨-, -, rfl⟩ <;> exact ⟨hle, by simp, hlatched⟩
  | addrAck he =>
    obtain ⟨hle, hpos, hlatched⟩ := h (by simp [he])
    exact fun _ => ⟨hle, fun _ => hpos (.inl he), hlatched⟩
  | txMore he _ _ _ _ hr | rxMore he _ _ _ _ _ _ _ hr =>
    obtain ⟨hle, hpos, hlatched⟩ := h (by simp [he])
    obtain ⟨hpos', hle'⟩ := toNat_sub_one_of_ne_one (hpos (.inr he)) hr
    exact fun _ => ⟨hle'.trans hle, fun _ => hpos', hlatched⟩

/-- Settles O40: each kind of move keeps the transfer sound; RXC writes none of its fields. -/
theorem stepKeepsTransferSound : Obligations.StepKeepsTransferSound := fun _ _ =>
  step_keeps TransferSound (fun _ _ h => h) (fun _ _ _ h => h) (fun _ _ => HostSide.keeps_transferSound)
    (fun _ _ => RegEffect.keeps_transferSound) (fun _ _ => EngineMove.keeps_transferSound)
    (fun _ _ _ h _ => h)

end Sys2Proof.Machine
end

section
/-! SUPPORT. What lasts (R42, R285, R340): the faults and the refusal mark, and the outcome of a run that has ended. -/

namespace Sys2Proof.Machine

/-- Every fault of `s` and its refusal mark are recorded in `t` too (R42). -/
def StopsKept (s t : State) : Prop := s.faults ⊆ t.faults ∧ ∀ r, s.refused = some r → t.refused = some r

theorem StopsKept.refl (s : State) : StopsKept s s := ⟨fun _ => id, fun _ => id⟩

theorem StopsKept.trans {s t u : State} (h : StopsKept s t) (h' : StopsKept t u) : StopsKept s u :=
  ⟨fun _ hf => h'.1 (h.1 hf), fun r hr => h'.2 r (h.2 r hr)⟩

theorem StopsKept.of_eq {s t : State} (hf : t.faults = s.faults) (hr : t.refused = s.refused) : StopsKept s t := by
  rw [StopsKept, hf, hr]
  exact StopsKept.refl s

theorem HostSide.stopsKept {s t : State} (h : HostSide s t) : StopsKept s t := by
  obtain ⟨m, p, f, r, c, v, rfl, -, hf, hr⟩ := h
  exact ⟨hf, hr⟩

theorem RegEffect.stopsKept {s t : State} (h : RegEffect s t) : StopsKept s t := by
  obtain ⟨-, -, -, -, -, hf, hr, -⟩ := h.host_side
  exact .of_eq hf hr

theorem EngineMove.stopsKept {s t : State} (h : EngineMove s t) : StopsKept s t := by
  obtain ⟨-, -, -, -, -, hf, hr, -⟩ := h.host_side
  exact .of_eq hf hr

/-- No step clears a fault or the refusal mark. -/
theorem step_stopsKept {s t : State} (h : step s = .next t) : StopsKept s t :=
  step_keeps (StopsKept s) (fun _ _ h => h) (fun _ _ _ h => h) (fun _ _ h hs => h.trans hs.stopsKept)
    (fun _ _ h hr => h.trans hr.stopsKept) (fun _ _ h hm => h.trans hm.stopsKept) (fun _ _ _ h _ => h)
    (StopsKept.refl s) h

/-- A run has ended exactly where the host has no step (R340). -/
theorem ended_iff (s : State) : Ended s ↔ enabled .host s = false := by
  rw [Ended, ne_eq, outcome_none_iff, Bool.not_eq_true]

/-- Where the host has no step only the Engine can step, and it writes nothing the outcome is read from. -/
theorem outcome_step_of_ended {s t : State} (h : Ended s) (hs : step s = .next t) : outcome t = outcome s := by
  have hoff : enabled .host s ≠ true := by simp [(ended_iff s).1 h]
  rcases step_cases hs with
    ⟨hp, rfl⟩ | ⟨hc, rfl⟩ | ⟨-, hen, -⟩ | ⟨-, -, -, hen, -⟩ | ⟨hen, -⟩ | rfl
  · have hm := phaseStep_move s.free s hp
    obtain ⟨-, -, hprog, hpos, -, hf, hr, -⟩ := hm.host_side
    exact outcome_congr hf hr hprog hpos hm.result
  · obtain ⟨v, -, he⟩ := commitStep_move s.free hc
    rw [he]
    exact outcome_congr rfl rfl rfl rfl rfl
  · exact absurd hen hoff
  · exact absurd hen hoff
  · exact absurd hen hoff
  · rfl

theorem stopped_of_fault {s : State} {f : Fault} {fs : List Fault} (h : s.faults = f :: fs) :
    s.stopped = .fault f := by
  simp [State.stopped, h]

theorem stopped_of_refused {s : State} {r : Refusal} (h : s.faults = []) (hr : s.refused = some r) :
    s.stopped = .refused r := by
  simp [State.stopped, h, hr]

/-- Settles O9: no move clears a stop, and on a run that has ended only the Engine steps. -/
theorem stopsAreSticky : Obligations.StopsAreSticky := by
  refine ⟨fun s t h => ?_, ended_iff, fun i s => ⟨fun f fs hf => ?_, fun r hf hr => ?_, fun hrun ha => ?_⟩⟩
  · obtain ⟨hf, hr⟩ := step_stopsKept h
    refine ⟨fun f hm => hf hm, hr, fun e he => ?_⟩
    rw [outcome_step_of_ended (by simp [Ended, he]) h, he]
  · rw [exec_of_stopped i (by simp [State.running, hf]), stopped_of_fault hf]
  · rw [exec_of_stopped i (by simp [State.running, hr]), stopped_of_refused hf hr]
  · simp [running_of_nextAgent ha] at hrun

end Sys2Proof.Machine
end

section
/-! SUPPORT. The state after reset (R48, R321), and what a read of C, S and DLEN returns (R24 to R28). -/

namespace Sys2Proof.Machine

/-! ### Reset -/

/-- With the FIFO empty, the Engine idle and no flag set, S has TXE and TXD and no other defined bit (R25). -/
theorem readS_low_of_clear (d : Draws) {s : State} (hf : s.fifo = []) (he : s.eng = .idle) (hd : s.done = false)
    (herr : s.err = false) (hc : s.clkt = false) (hdepth : 0 < s.cfg.fifoDepth) :
    (readS d s).extractLsb' 0 10 = 0x050#10 := by
  have hrxf : (s.fifo.length == s.cfg.fifoDepth) = false := by simp [hf]; omega
  apply BitVec.eq_of_getLsbD_eq
  intro i hi
  rw [BitVec.getLsbD_extractLsb']
  interval_cases i <;>
    simp [flagRXF, flagTXE, flagRXD, flagTXD, flagRXR, flagTXW, flagTA, hf, he, hd, herr, hc, hdepth, hdepth.ne]

/-- Settles O10: `State.resetWith` field by field, and the bits of S. -/
theorem resetValues : Obligations.ResetValues := by
  intro cfg s
  iterate 25 refine ⟨rfl, ?_⟩
  exact fun d hdepth => readS_low_of_clear d rfl rfl rfl rfl rfl hdepth

/-- What speaks of an open call holds where none is open. -/
theorem callOwned_of_no_call {s : State} (h : s.call = none) : CallOwned s := by
  simp [CallOwned, h]

/-- Settles O46: after reset the FIFO and the trace are empty, the Engine is idle and no call is open. -/
theorem resetMeetsInvariants : Obligations.ResetMeetsInvariants := by
  intro cfg hdepth
  have hno : ∀ t, (State.resetWith cfg).call ≠ some (.txn t) := fun t => nofun
  have howned : CallOwned (State.resetWith cfg) := callOwned_of_no_call rfl
  refine ⟨Nat.zero_le _, fun hne => absurd rfl hne, rfl, ⟨howned, fun _ _ => List.not_mem_nil, ?_⟩, ?_,
    ⟨howned, hdepth, ?_⟩, .nil⟩
  · exact fun t ht => absurd ht (hno t)
  · exact fun t ht => absurd ht (hno t)
  · exact fun t ht => absurd ht (hno t)

/-! ### Reads of C, S and DLEN -/

/-- ST and CLEAR read 0 (R24). -/
theorem readC_actions_zero (d : Draws) (s : State) :
    (readC d s).getLsbD 7 = false ∧ (readC d s).extractLsb' 4 2 = 0#2 := by
  constructor
  · simp only [readC, BitVec.getLsbD_append]
    simp
  · apply BitVec.eq_of_getLsbD_eq
    intro i hi
    rw [BitVec.getLsbD_extractLsb']
    interval_cases i <;> simp only [readC, BitVec.getLsbD_append] <;> simp

/-- The stored bits of C at their places (R24). -/
theorem readC_stored_bits (d : Draws) (s : State) :
    (readC d s).getLsbD 15 = s.cI2cen ∧ (readC d s).getLsbD 10 = s.cIntr ∧ (readC d s).getLsbD 9 = s.cIntt ∧
      (readC d s).getLsbD 8 = s.cIntd ∧ (readC d s).getLsbD 0 = s.cRead := by
  simp only [readC, BitVec.getLsbD_append]
  simp

/-- TA as a decision on the phase (R25). -/
theorem flagTA_eq_decide (s : State) : flagTA s = decide (s.eng ≠ .idle) := by
  cases h : s.eng <;> simp [flagTA, h]

/-- RXF as a decision on the FIFO's length (R25). -/
theorem flagRXF_eq_decide (s : State) : flagRXF s = decide (s.fifo.length = s.cfg.fifoDepth) :=
  rfl

/-- TXE as a decision on the FIFO's length (R25). -/
theorem flagTXE_eq_decide (s : State) : flagTXE s = decide (s.fifo.length = 0) :=
  rfl

/-- Settles O12: the read answers `readC`, whose fields are the stored bits. -/
theorem readControlReturnsStoredBits : Obligations.ReadControlReturnsStoredBits := by
  rintro s ⟨hrun, hmap⟩
  refine ⟨readC s.free s, exec_read_register .C hrun hmap, ?_⟩
  obtain ⟨hen, hr, ht, hd, hread⟩ := readC_stored_bits s.free s
  obtain ⟨hst, hclear⟩ := readC_actions_zero s.free s
  exact ⟨hen, hr, ht, hd, hst, hclear, hread⟩

/-- Settles O13: the read answers `readS`, a snapshot of every flag. -/
theorem readStatusIsOneSnapshot : Obligations.ReadStatusIsOneSnapshot := by
  rintro s ⟨hrun, hmap⟩
  refine ⟨readS s.free s, s.free.rxr, s.free.txw, exec_read_register .S hrun hmap, ?_⟩
  simp [flagRXF_eq_decide, flagTXE_eq_decide, flagRXD, flagTXD, flagRXR, flagTXW, flagTA_eq_decide]

/-- Settles O14: the read answers `readDLEN`, whose low half is the count that R28 names. -/
theorem readLengthIsRemainingOrWritten : Obligations.ReadLengthIsRemainingOrWritten := by
  rintro s ⟨hrun, hmap⟩
  refine ⟨readDLEN s.free s, exec_read_register .DLEN hrun hmap, ?_⟩
  rw [readDLEN, extractLsb'_append_low]
  exact ⟨fun h => if_pos h, fun he hd => if_neg (by simp [he, hd])⟩

end Sys2Proof.Machine
end

section
/-! SUPPORT. A host step at a request (R22, R90): what each line requests (R81, R84, R85), and what follows the instruction's own step. -/

namespace Sys2Proof.Machine

/-! ### The step at a request -/

theorem hostStep_of_request {s : State} {l : Line} {w : PortWord} {dst : Option Nat} (hl : s.line = some l)
    (hd : labelsDefined s.prog = true) (hw : l.op.request s.locals = some (w, dst)) :
    hostStep s = requestStep w dst s := by
  simp [hostStep, hd, hl, hw]

/-- A request that is over binds its result, and the host moves on. -/
theorem endStep_of_over (dst : Option Nat) {s : State} (hr : s.running = true) (hc : s.call = none) :
    endStep dst s = { s.bindResult dst with pos := s.pos + 1 } := by
  simp [endStep, hr, hc]

/-- A host that has stopped, or whose procedure still runs, stays where it is. -/
theorem endStep_of_not_over (dst : Option Nat) {s : State} (h : s.running = false ∨ s.call ≠ none) :
    endStep dst s = s := by
  rcases h with h | h <;> simp [endStep, h]

theorem bindResult_locals {s : State} {n : Nat} {v : Value} (h : s.result = some v) :
    (s.bindResult (some n)).locals = setLocal n v s.locals := by
  simp [State.bindResult, h]

/-! ### Format H (R81, R82) -/

theorem ofIndex_index (r : Reg) : Reg.ofIndex r.index = r := by cases r <;> rfl

/-- The fields W, OFF[4:2], OFF[1:0] and DATA of a format H word. -/
theorem wordH_fields (w : Bool) (i : BitVec 3) (lo : BitVec 2) (data : Word) :
    let x : BitVec 38 := BitVec.ofBool w ++ i ++ lo ++ data
    x.getLsbD 37 = w ∧ x.extractLsb' 34 3 = i ∧ x.extractLsb' 32 2 = lo ∧ x.extractLsb' 0 32 = data := by
  intro x
  refine ⟨?_, ?_, ?_, extractLsb'_append_low _ _⟩
  · simp only [x, BitVec.getLsbD_append]
    simp
  · rw [BitVec.extractLsb'_append_eq_of_le (by decide), BitVec.extractLsb'_append_eq_of_le (by decide)]
    exact extractLsb'_append_low _ _
  · rw [BitVec.extractLsb'_append_eq_of_le (by decide)]
    exact extractLsb'_append_low _ _

theorem decode_encodeH_write (r : Reg) (lo : BitVec 2) (data : Word) :
    decode (encodeH true r lo data) = .ok (writeInstr r lo data) := by
  obtain ⟨hw, hi, hlo, hdata⟩ := wordH_fields true r.index lo data
  simp only [encodeH, decode, decodeH, hw, hi, hlo, hdata, ofIndex_index, if_true]

theorem decode_encodeH_read (r : Reg) (lo : BitVec 2) :
    decode (encodeH false r lo 0#32) = .ok (readInstr r lo) := by
  obtain ⟨hw, hi, hlo, hdata⟩ := wordH_fields false r.index lo 0#32
  simp only [encodeH, decode, decodeH, hw, hi, hlo, hdata, ofIndex_index, if_true, Bool.false_eq_true, if_false]

/-! ### Format V (R84) -/

/-- The fields P, B0, B1 and CK of a format V word. -/
theorem wordV_fields (p : Bool) (b0 b1 ck : Byte) :
    let x : BitVec 25 := BitVec.ofBool p ++ b0 ++ b1 ++ ck
    x.getLsbD 24 = p ∧ x.extractLsb' 16 8 = b0 ∧ x.extractLsb' 8 8 = b1 ∧ x.extractLsb' 0 8 = ck := by
  intro x
  refine ⟨?_, ?_, ?_, extractLsb'_append_low _ _⟩
  · simp only [x, BitVec.getLsbD_append]
    simp
  · rw [BitVec.extractLsb'_append_eq_of_le (by decide), BitVec.extractLsb'_append_eq_of_le (by decide)]
    exact extractLsb'_append_low _ _
  · rw [BitVec.extractLsb'_append_eq_of_le (by decide)]
    exact extractLsb'_append_low _ _

theorem decode_encodeV_check (b0 b1 ck : Byte) : decode (encodeV true b0 b1 ck) = .ok (.crcchk b0 b1 ck) := by
  obtain ⟨hp, h0, h1, hck⟩ := wordV_fields true b0 b1 ck
  simp only [encodeV, decode, decodeV, hp, h0, h1, hck, if_true]

theorem decode_encodeV_compute (b0 b1 : Byte) : decode (encodeV false b0 b1 0#8) = .ok (.crc8 b0 b1) := by
  obtain ⟨hp, h0, h1, hck⟩ := wordV_fields false b0 b1 0#8
  simp only [encodeV, decode, decodeV, hp, h0, h1, hck, if_true, Bool.false_eq_true, if_false]

/-! ### What each line requests (R90) -/

/-- A line's request, of the values of its expressions, is a word that decodes to `i` (R90). -/
def Requests (locals : List (Nat × Value)) (op : HostOp) (dst : Option Nat) (i : Instr) : Prop :=
  ∃ w, op.request locals = some (w, dst) ∧ decode w = .ok i

section
variable (l : List (Nat × Value)) (dst : Option Nat)

/-- A call requests what its id decodes to, of its arguments' values. -/
theorem requests_call {pid : BitVec 5} {args buffer : List Expr} {i : Instr}
    (h : decodeP pid (callArgs (args.map (Expr.eval l)) (buffer.map (Expr.eval l))) = .ok i) :
    Requests l (.call pid args buffer dst) dst i :=
  ⟨_, rfl, h⟩

theorem requests_rd (r : Reg) : Requests l (.rd r dst) dst (readInstr r 0#2) :=
  ⟨_, rfl, decode_encodeH_read r 0#2⟩

theorem requests_wr (r : Reg) {e : Expr} (h : e.eval l < 2 ^ 32) :
    Requests l (.wr r e) none (writeInstr r 0#2 (BitVec.ofNat 32 (e.eval l))) := by
  rw [← operand_of_fits h]
  exact ⟨_, rfl, decode_encodeH_write r 0#2 _⟩

theorem requests_crc8 {e0 e1 : Expr} (h0 : e0.eval l < 2 ^ 8) (h1 : e1.eval l < 2 ^ 8) :
    Requests l (.crc8 e0 e1 dst) dst (.crc8 (BitVec.ofNat 8 (e0.eval l)) (BitVec.ofNat 8 (e1.eval l))) := by
  rw [← operand_of_fits h0, ← operand_of_fits h1]
  exact ⟨_, rfl, decode_encodeV_compute _ _⟩

theorem requests_crcchk {e0 e1 e : Expr} (h0 : e0.eval l < 2 ^ 8) (h1 : e1.eval l < 2 ^ 8) (h : e.eval l < 2 ^ 8) :
    Requests l (.crcchk e0 e1 e dst) dst
      (.crcchk (BitVec.ofNat 8 (e0.eval l)) (BitVec.ofNat 8 (e1.eval l)) (BitVec.ofNat 8 (e.eval l))) := by
  rw [← operand_of_fits h0, ← operand_of_fits h1, ← operand_of_fits h]
  exact ⟨_, rfl, decode_encodeV_check _ _ _⟩

theorem requests_call_byte {e : Expr} (h : e.eval l < 2 ^ 8) :
    Requests l (.call 0x07#5 [e] [] dst) dst (.setSlaveAddress (BitVec.ofNat 8 (e.eval l))) := by
  rw [← operand_of_fits h]
  exact requests_call l dst rfl

/-- The three calls of one 16-bit argument. -/
theorem requests_call_half {e : Expr} (h : e.eval l < 2 ^ 16) :
    Requests l (.call 0x05#5 [e] [] dst) dst (.setClockTimeout (BitVec.ofNat 16 (e.eval l))) ∧
    Requests l (.call 0x10#5 [e] [] dst) dst (.cmdNoArg (BitVec.ofNat 16 (e.eval l))) ∧
    Requests l (.call 0x11#5 [e] [] dst) dst (.cmdReadWord (BitVec.ofNat 16 (e.eval l))) := by
  rw [← operand_of_fits h]
  exact ⟨requests_call l dst rfl, requests_call l dst rfl, requests_call l dst rfl⟩

theorem requests_call_write {e : Expr} {es : List Expr} (h : ∀ b ∈ es, b.eval l < 2 ^ 8) :
    Requests l (.call 0x09#5 [e] es dst) dst (.write (es.map fun b => BitVec.ofNat 8 (b.eval l)) (e.eval l)) := by
  have hbuf : es.map (fun b => BitVec.ofNat 8 (b.eval l)) = (es.map (Expr.eval l)).map (operand 8) := by
    rw [List.map_map]
    exact List.map_congr_left fun b hb => (operand_of_fits (h b hb)).symm
  rw [hbuf]
  exact requests_call l dst rfl

theorem requests_call_halves {e0 e1 : Expr} (h0 : e0.eval l < 2 ^ 16) (h1 : e1.eval l < 2 ^ 16) :
    Requests l (.call 0x12#5 [e0, e1] [] dst) dst
      (.cmdWriteWord (BitVec.ofNat 16 (e0.eval l)) (BitVec.ofNat 16 (e1.eval l))) := by
  rw [← operand_of_fits h0, ← operand_of_fits h1]
  exact requests_call l dst rfl

theorem requests_call_masked {e0 e1 e2 : Expr} (h1 : e1.eval l < 2 ^ 32) (h2 : e2.eval l < 2 ^ 32) :
    Requests l (.call 0x0B#5 [e0, e1, e2] [] dst) dst
      (.setMaskedBits (e0.eval l) (BitVec.ofNat 32 (e1.eval l)) (BitVec.ofNat 32 (e2.eval l))) := by
  rw [← operand_of_fits h1, ← operand_of_fits h2]
  exact requests_call l dst rfl

end

/-! ### The statement -/

/-- The host's step at a request that decodes is the instruction's, and then the host's bookkeeping. -/
theorem step_at_request {s t : State} {l : Line} {w : PortWord} {dst : Option Nat} {i : Instr}
    (ha : nextAgent s = some .host) (hl : s.line = some l) (hd : labelsDefined s.prog = true)
    (hw : l.op.request s.locals = some (w, dst)) (hi : decode w = .ok i) (he : exec i s = .next t) :
    step s = .next (tick s (endStep dst t)) := by
  rw [step_of_host ha, hostStep_of_request hl hd hw, requestStep_of_exec dst hi he]

/-- Settles O5: the step runs the decoded instruction, and each line's request decodes to the one it names. -/
theorem stepRunsTheDecodedRequest : Obligations.StepRunsTheDecodedRequest := by
  refine ⟨fun s t l w dst i ha hl hd hw hi he => ⟨step_at_request ha hl hd hw hi he, fun hr hc => ?_,
    endStep_of_not_over dst⟩, fun locals dst => ⟨requests_rd locals dst, fun r _ => requests_wr locals r,
      fun _ _ h0 h1 => ⟨requests_crc8 locals dst h0 h1, fun _ => requests_crcchk locals dst h0 h1⟩,
      ?noArgument, fun e => ?oneArgument, fun e0 e1 => ?moreArguments⟩⟩
  · rw [endStep_of_over dst hr hc]
    refine ⟨rfl, ?_⟩
    rintro n v rfl hv
    exact bindResult_locals hv
  case noArgument => refine ⟨?_, ?_, ?_, ?_, ?_, ?_, ?_, ?_⟩ <;> exact requests_call locals dst rfl
  case oneArgument =>
    exact ⟨requests_call locals dst rfl, requests_call locals dst rfl, requests_call locals dst rfl,
      requests_call_byte locals dst, requests_call_half locals dst, fun _ => requests_call_write locals dst⟩
  case moreArguments =>
    exact ⟨requests_call locals dst rfl, requests_call locals dst rfl, requests_call_halves locals dst,
      fun _ => requests_call_masked locals dst⟩

end Sys2Proof.Machine
end

section
/-! SUPPORT. A READ's bytes in the order of the wire (R63, R220, R226 (c)): what the bus trace says was received, and how the Engine's moves and the host steps of a transaction keep the READ in step with it. -/

namespace Sys2Proof.Machine

/-! ### The bytes received on the wire (R63) -/

/-- What one bus event does to the bytes received since the last `Start`. -/
def addReceived (acc : List Byte) : BusEvent → List Byte
  | .start => []
  | .rxByte b _ => acc ++ [b]
  | _ => acc

/-- Events added to a trace add to the bytes it has received, in their order. -/
theorem receivedBytes_append (trace events : List BusEvent) :
    receivedBytes (trace ++ events) = events.foldl addReceived (receivedBytes trace) :=
  List.foldl_append

/-! ### The READ that runs -/

/-- The positions of a READ after its start (R217, R219): the bytes of its transfer come in. -/
def TxnPos.collects : TxnPos → Bool
  | .rLoop | .rTake | .rDrain | .rDrainTake => true
  | _ => false

/-- The READ holds what the wire has brought since its START, which the Engine has still to send in `addr`. -/
def Collected (t : Txn) (s : State) : Prop :=
  readBytes t s = if s.eng = .addr then [] else receivedBytes s.trace

/-- What `ReadTracked` asks of the READ that runs. -/
def TracksRead (t : Txn) (s : State) : Prop := if t.pos.collects then Collected t s else t.buffer = []

theorem readTracked_iff (s : State) :
    ReadTracked s ↔ ∀ t, s.call = some (.txn t) → t.dir = .read → TracksRead t s := by
  refine forall_congr' fun t => imp_congr_right fun _ => imp_congr_right fun _ => ?_
  cases hp : t.pos <;> simp [TracksRead, hp, TxnPos.collects, Collected]

theorem tracksRead_collecting {t : Txn} {s : State} (h : t.pos.collects = true) : TracksRead t s ↔ Collected t s := by
  simp [TracksRead, h]

theorem tracksRead_arming {t : Txn} {s : State} (h : t.pos.collects = false) : TracksRead t s ↔ t.buffer = [] := by
  simp [TracksRead, h]

/-- Where no READ runs, nothing is to be tracked. -/
theorem readTracked_of_no_read {s : State} (h : ∀ t, s.call = some (.txn t) → t.dir ≠ .read) : ReadTracked s :=
  (readTracked_iff s).2 fun t hc hd => absurd hd (h t hc)

theorem readTracked_of_txn {s : State} {t : Txn} (hc : s.call = some (.txn t)) (h : TracksRead t s) :
    ReadTracked s := by
  refine (readTracked_iff s).2 fun t' hc' _ => ?_
  rw [hc] at hc'
  cases hc'
  exact h

/-- Once started, a READ has the Engine to itself: it is idle or receives, and the stage's byte fits (R226 (a)). -/
theorem ReadSound.of_collects {t : Txn} {s : State} (h : ReadSound t s) (hp : t.pos.collects = true) :
    (s.eng = .idle ∨ s.xRead = true) ∧ StageFits s ∧ t.count = t.buffer.length ∧ t.count ≤ t.length := by
  obtain ⟨hcount, -, -, hpos⟩ := h
  cases hq : t.pos <;> simp [hq, TxnPos.collects] at hp hpos
  case rLoop | rDrain =>
    obtain ⟨hle, hdir, hfits⟩ := hpos
    exact ⟨hdir, hfits, hcount, by omega⟩
  case rTake | rDrainTake =>
    obtain ⟨hle, hdir, hfits, -⟩ := hpos
    exact ⟨hdir, hfits, hcount, by omega⟩

/-- The snapshot before a `take_one` showed a byte, and it is still there (R221). -/
theorem ReadSound.fifo_ne_nil {t : Txn} {s : State} (h : ReadSound t s) (hp : t.pos = .rTake ∨ t.pos = .rDrainTake) :
    s.fifo ≠ [] := by
  obtain ⟨-, -, -, hpos⟩ := h
  rcases hp with hp | hp <;> rw [hp] at hpos <;> exact hpos.2.2.2

/-- A READ within its contract opens soundly (R215). -/
theorem readSound_readTxn {n : Nat} {s : State} (h : (readTxn n).violates s = false) : ReadSound (readTxn n) s := by
  have h : n ≠ 0 ∧ n ≤ 0xFFFF := by simpa [Txn.violates, readTxn] using h
  exact ⟨rfl, Nat.pos_of_ne_zero h.1, h.2, rfl⟩

/-! ### The Engine's moves -/

/-- Of the Engine's moves on a read transfer only RXB adds to the bytes received, and it stages or queues its byte
behind those that wait (R149); the address phase opens an empty transfer (R143). -/
theorem EngineMove.keeps_collected {t : Txn} {s u : State} (h : Collected t s) (hdir : s.eng = .idle ∨ s.xRead = true)
    (hm : EngineMove s u) : Collected t u := by
  unfold Collected readBytes at h ⊢
  cases hm with
  | abandoned v _ _ hv | frozen v hv | endless v hv =>
    rcases hv with ⟨he, rfl⟩ | ⟨he, -, rfl⟩ | ⟨he, hx, -⟩
    · simpa [he, receivedBytes_append, addReceived] using h
    · simpa [he, receivedBytes_append, addReceived] using h
    · simp [he, hx] at hdir
  | addrAck he | addrNack he => simpa [he, receivedBytes_append, addReceived] using h
  | txMore he hx | txLast he hx | txNack he hx => simp [he, hx] at hdir
  | rxMore he _ hs _ v f g hfg | rxLast he _ hs _ v f g hfg =>
    have h : t.buffer ++ s.fifo = receivedBytes s.trace := by simpa [he, hs] using h
    rcases hfg with ⟨rfl, rfl⟩ | ⟨rfl, rfl⟩ <;> simp [he, ← h, receivedBytes_append, addReceived]

theorem EngineMove.keeps_tracksRead {t : Txn} {s u : State} (h : TracksRead t s) (hsound : ReadSound t s)
    (hm : EngineMove s u) : TracksRead t u := by
  cases hp : t.pos.collects with
  | true =>
    rw [tracksRead_collecting hp] at h ⊢
    exact hm.keeps_collected h (hsound.of_collects hp).1
  | false =>
    rw [tracksRead_arming hp] at h ⊢
    exact h

/-- RXC moves the staged byte to the end of the FIFO, which has room for it (R150). -/
theorem commit_keeps_tracksRead {t : Txn} {s : State} {v : Byte} (d : Draws) (h : TracksRead t s)
    (hsound : ReadSound t s) (hv : s.rxStage = some v) :
    TracksRead t { s with fifo := appended d v s, rxStage := none } := by
  cases hp : t.pos.collects with
  | true =>
    obtain ⟨-, hfits, -⟩ := hsound.of_collects hp
    rw [tracksRead_collecting hp] at h ⊢
    rw [appended_of_room d v (hfits (by simp [hv]))]
    simpa [Collected, readBytes, hv] using h
  | false =>
    rw [tracksRead_arming hp] at h ⊢
    exact h

/-! ### The host steps of a transaction -/

/-- What a host step of the READ `t` leaves while it goes on: the same call, or its next descriptor, in step with
the wire. -/
def TracksOut (t : Txn) (s : State) : TxnOut → Prop
  | .more u => (u.call = s.call ∧ TracksRead t u) ∨ ∃ t', u.call = some (.txn t') ∧ TracksRead t' u
  | .wrote _ _ | .got _ _ => True

theorem tracksOut_goOn {t t' : Txn} {s u : State} (h : TracksRead t' u) : TracksOut t s (goOn t' u) :=
  .inr ⟨t', rfl, h⟩

/-- ARM before the start takes no byte, whatever its register write does (R216). -/
theorem txnWrite_tracks_arming {t t' : Txn} {s : State} (off : Nat) (data : Word)
    (h : t.pos.collects = false) (hb : t.buffer = []) (h' : t'.pos.collects = true → ∀ u,
      memWrite off data s = .ok () u → Collected t' u) (hb' : t'.buffer = []) :
    TracksOut t s (txnWrite off data t' s) := by
  have hsound := memWrite_sound off data s
  unfold txnWrite
  cases hw : memWrite off data s with
  | ok v u =>
    cases hp : t'.pos.collects with
    | true => exact tracksOut_goOn ((tracksRead_collecting hp).2 (h' hp u hw))
    | false => exact tracksOut_goOn ((tracksRead_arming hp).2 hb')
  | stop u =>
    rw [hw] at hsound
    exact .inl ⟨hsound.call.1, (tracksRead_arming h).2 hb⟩

/-- "start, read mode, clear" leaves the Engine at the address, the FIFO and the stage empty (R103, R141). -/
theorem memWrite_startRead_ok {s u : State} {v : Unit} (h : memWrite 0x00 0x00008091#32 s = .ok v u) :
    u.eng = .addr ∧ u.fifo = [] ∧ u.rxStage = none := by
  have hw : startTransfer 0x00008091#32 (clearFifo (storeControl 0x00008091#32 s)) = .ok v u := (memWrite_ok h).2.2.2
  unfold startTransfer at hw
  split at hw
  · cases hw
  · split at hw
    · cases hw
    · split at hw
      · cases hw
      · cases hw
        exact ⟨rfl, rfl, rfl⟩

/-- A status read changes nothing but what the step makes of the snapshot. -/
theorem txnStatus_tracks {t : Txn} {s : State} {k : Word → State → TxnOut} (h : TracksRead t s)
    (hk : ∀ v, TracksOut t s (k v s)) : TracksOut t s (txnStatus s k) := by
  unfold txnStatus
  cases hr : memRead 0x04 s.free s with
  | ok v u =>
    obtain ⟨-, rfl⟩ := memRead_status hr
    exact hk v
  | stop u =>
    obtain ⟨f, -, rfl⟩ := memRead_stop hr
    exact .inl ⟨rfl, h⟩

/-- READ's terminal test takes no byte (R217, R218). -/
theorem testSnapshot_tracks {t t' : Txn} {s u : State} (h : Collected t' u) :
    TracksOut t s (testSnapshot t' u) := by
  unfold testSnapshot
  split
  · split
    · trivial
    · exact tracksOut_goOn h
  · exact tracksOut_goOn h

/-- `take_one()` moves the oldest byte of the FIFO to the end of those taken (R221). -/
theorem takeOne_tracks {t : Txn} {s : State} {k : Txn → State → TxnOut} (hp : t.pos.collects = true)
    (h : Collected t s) (hf : s.fifo ≠ [])
    (hk : ∀ t' u, Collected t' u → TracksOut t s (k t' u)) : TracksOut t s (takeOne t s k) := by
  have ht : TracksRead t s := (tracksRead_collecting hp).2 h
  unfold takeOne
  split
  · exact .inl ⟨rfl, ht⟩
  · cases hr : memRead 0x10 s.free s with
    | ok v u =>
      obtain ⟨b, rest, hbr⟩ := List.exists_cons_of_ne_nil hf
      obtain ⟨hb, rfl, -⟩ := memRead_fifo hr hbr
      refine hk _ _ ?_
      simpa [Collected, readBytes, hb, hbr] using h
    | stop u =>
      obtain ⟨f, -, rfl⟩ := memRead_stop hr
      exact .inl ⟨rfl, ht⟩

/-- Every host step of a READ keeps it in step with the wire. -/
theorem txnStep_tracks {t : Txn} {s : State} (hdir : t.pos.dir = .read) (h : TracksRead t s) (hsound : ReadSound t s) :
    TracksOut t s (txnStep t s) := by
  cases hp : t.pos with
  | wClear | wPush | wLen | wStat | wStart | wPoll => simp [hp, TxnPos.dir] at hdir
  | rLen | rStat =>
    have harm : t.pos.collects = false := by rw [hp]; rfl
    have hb : t.buffer = [] := (tracksRead_arming harm).1 h
    simp only [txnStep, hp]
    exact txnWrite_tracks_arming _ _ harm hb nofun hb
  | rStart =>
    have harm : t.pos.collects = false := by rw [hp]; rfl
    have hb : t.buffer = [] := (tracksRead_arming harm).1 h
    simp only [txnStep, hp]
    refine txnWrite_tracks_arming _ _ harm hb (fun _ u hw => ?_) hb
    obtain ⟨he, hf, hs⟩ := memWrite_startRead_ok hw
    simp [Collected, readBytes, hb, he, hf, hs]
  | rLoop =>
    have hc : Collected t s := (tracksRead_collecting (by rw [hp]; rfl)).1 h
    simp only [txnStep, hp]
    refine txnStatus_tracks h fun v => ?_
    split
    · exact tracksOut_goOn hc
    · exact testSnapshot_tracks hc
  | rDrain =>
    have hc : Collected t s := (tracksRead_collecting (by rw [hp]; rfl)).1 h
    simp only [txnStep, hp]
    refine txnStatus_tracks h fun v => ?_
    split
    · exact tracksOut_goOn hc
    · trivial
  | rTake =>
    have hcol : t.pos.collects = true := by rw [hp]; rfl
    simp only [txnStep, hp]
    exact takeOne_tracks hcol ((tracksRead_collecting hcol).1 h) (hsound.fifo_ne_nil (.inl hp))
      fun _ _ => testSnapshot_tracks
  | rDrainTake =>
    have hcol : t.pos.collects = true := by rw [hp]; rfl
    simp only [txnStep, hp]
    exact takeOne_tracks hcol ((tracksRead_collecting hcol).1 h) (hsound.fifo_ne_nil (.inr hp))
      fun _ _ hc => tracksOut_goOn hc

/-- A step of the transaction `t`, the one that runs or a new one where none runs, keeps the READ tracked. -/
theorem txnStep_keeps_readTracked {t : Txn} {s u : State} (hpos : t.pos.dir = t.dir)
    (hcall : ∀ t', s.call = some (.txn t') → t' = t) (hread : t.dir = .read → TracksRead t s ∧ ReadSound t s)
    (hu : txnStep t s = .more u) : ReadTracked u := by
  cases hd : t.dir with
  | write =>
    have hc := txnStep_call t s hpos
    rw [hu] at hc
    refine readTracked_of_no_read fun t' ht' => ?_
    rcases hc with hsame | ⟨t'', ht'', hdir, -⟩
    · simp [hcall t' (hsame ▸ ht'), hd]
    · rw [ht''] at ht'
      cases ht'
      simp [hdir, hd]
  | read =>
    obtain ⟨htracks, hsound⟩ := hread hd
    have ho := txnStep_tracks (hpos.trans hd) htracks hsound
    rw [hu] at ho
    rcases ho with ⟨hsame, htr⟩ | ⟨t', ht', htr⟩
    · exact (readTracked_iff u).2 fun t' ht' _ => hcall t' (hsame ▸ ht') ▸ htr
    · exact readTracked_of_txn ht' htr

/-- A transaction as WRITE or READ opens it (R211, R215). -/
def OpensTxn (new : Txn) : Prop := (∃ bytes n, new = writeTxn bytes n) ∨ ∃ n, new = readTxn n

theorem OpensTxn.pos_dir {new : Txn} (h : OpensTxn new) : new.pos.dir = new.dir := by
  rcases h with ⟨_, _, rfl⟩ | ⟨_, rfl⟩ <;> rfl

theorem OpensTxn.read_sound {new : Txn} {s : State} (h : OpensTxn new) (hv : new.violates s = false)
    (hd : new.dir = .read) : TracksRead new s ∧ ReadSound new s := by
  rcases h with ⟨_, _, rfl⟩ | ⟨_, rfl⟩
  · cases hd
  · exact ⟨rfl, readSound_readTxn hv⟩

theorem advance_keeps_readTracked {new : Txn} {i : Instr} {s u : State} (hnew : OpensTxn new) (hcall : CallOf i s)
    (ht : ReadTracked s) (hno : NoOverflow s) (hu : advance new s = .more u) : ReadTracked u := by
  obtain ⟨-, -, hsound⟩ := hno
  rcases advance_call new i s hcall hnew.pos_dir with ⟨t, hc, ha, -⟩ | ⟨-, -, ha⟩ | ⟨hn, hv, ha, -⟩
  · refine txnStep_keeps_readTracked (hcall.txn hc) (fun t' hc' => ?_) (fun hd => ?_) (ha ▸ hu)
    · rw [hc] at hc'
      cases hc'
      rfl
    · exact ⟨(readTracked_iff s).1 ht t hc hd, hsound t hc hd⟩
  · rw [ha] at hu
    cases hu
    exact ht
  · exact txnStep_keeps_readTracked hnew.pos_dir (fun t' hc' => absurd hc' (hn t')) (hnew.read_sound hv) (ha ▸ hu)

/-! ### The host steps of an instruction -/

/-- How a procedure that runs transactions uses one host step: the transaction's own step, or the procedure ends,
or its READ is next. -/
def AdvancesTo (s u : State) : Prop :=
  (∃ new, OpensTxn new ∧ advance new s = .more u) ∨ u.call = none ∨ ∃ n, u.call = some (.txn (readTxn n))

theorem endTxn_advances {new : Txn} (s : State) (h : OpensTxn new) : AdvancesTo s (endTxn (advance new s)) := by
  unfold endTxn
  split
  · next ha => exact .inl ⟨new, h, ha⟩
  all_goals exact .inr (.inl rfl)

theorem writeCommand_advances (bytes : List Byte) (s : State) : AdvancesTo s (writeCommand bytes s) := by
  unfold writeCommand
  split
  · next ha => exact .inl ⟨_, .inl ⟨_, _, rfl⟩, ha⟩
  all_goals exact .inr (.inl rfl)

theorem queryCommand_advances (bytes : List Byte) (n : Nat) (fin : Nat → List Byte → Result) (fail : ErrKind → Result)
    (s : State) : AdvancesTo s (queryCommand bytes n fin fail s) := by
  unfold queryCommand
  split
  · next ha => exact .inl ⟨_, .inl ⟨_, _, rfl⟩, ha⟩
  · exact .inr (.inr ⟨n, rfl⟩)
  all_goals exact .inr (.inl rfl)

theorem AdvancesTo.of_whenRunning {s u : State} {k : State → State} (h : AdvancesTo s (k s))
    (he : whenRunning s k = .next u) : AdvancesTo s u :=
  ((whenRunning_next_iff s u k).1 he).2 ▸ h

theorem exec_transaction_advances {i : Instr} {s u : State} (hi : isTransaction i = true) (he : exec i s = .next u) :
    AdvancesTo s u := by
  cases i with
  | write bytes n =>
    exact .of_whenRunning (k := fun s => endTxn (advance (writeTxn bytes n) s)) (endTxn_advances s (.inl ⟨_, _, rfl⟩)) he
  | read n => exact .of_whenRunning (k := fun s => endTxn (advance (readTxn n) s)) (endTxn_advances s (.inr ⟨_, rfl⟩)) he
  | cmdNoArg | cmdWriteWord => exact .of_whenRunning (writeCommand_advances _ s) he
  | cmdReadWord | readMeasurement | dataReady => exact .of_whenRunning (queryCommand_advances _ _ _ _ s) he
  | setMeasurementInterval seconds =>
    rw [exec, execSetMeasurementInterval] at he
    refine .of_whenRunning ?_ he
    split
    · exact .inr (.inl rfl)
    · exact writeCommand_advances _ s
  | _ => cases hi

theorem isTransaction_of_owns_txn {i : Instr} {t : Txn} (h : owns i (.txn t) = true) : isTransaction i = true := by
  cases i with
  | write | read | cmdNoArg | cmdReadWord | cmdWriteWord | readMeasurement | dataReady | setMeasurementInterval => rfl
  | _ => cases h

/-- An instruction that runs no transaction leaves none open; one that does takes the steps of `advance`. -/
theorem exec_keeps_readTracked {i : Instr} {s u : State} (hcall : CallOf i s) (ht : ReadTracked s) (hno : NoOverflow s)
    (he : exec i s = .next u) : ReadTracked u := by
  cases hi : isTransaction i with
  | false =>
    refine readTracked_of_no_read fun t hc => ?_
    have howns := (exec_call hcall he _ hc).1
    simp [isTransaction_of_owns_txn howns] at hi
  | true =>
    rcases exec_transaction_advances hi he with ⟨new, hnew, ha⟩ | hnone | ⟨n, hread⟩
    · exact advance_keeps_readTracked hnew hcall ht hno ha
    · exact readTracked_of_no_read (by simp [hnone])
    · exact readTracked_of_txn hread rfl

/-- Every step keeps a READ in step with the wire. -/
theorem step_keeps_readTracked {s t : State} (ht : ReadTracked s) (hno : NoOverflow s) (hs : step s = .next t) :
    ReadTracked t := by
  have ⟨howned, _, hsound⟩ := hno
  rcases step_cases hs with
    ⟨hp, rfl⟩ | ⟨hc, rfl⟩ | ⟨r, -, rfl⟩ | ⟨i, dst, u, -, hi, he, rfl⟩ | ⟨-, -, l, p, rfl⟩ | rfl
  · have hm := phaseStep_move s.free s hp
    obtain ⟨-, hcall, -⟩ := hm.host_side
    refine (readTracked_iff _).2 fun x hx hd => ?_
    have hx : s.call = some (.txn x) := hcall ▸ hx
    have hu : TracksRead x (phaseStep s.free s) :=
      hm.keeps_tracksRead ((readTracked_iff s).1 ht x hx hd) (hsound x hx hd)
    exact hu
  · obtain ⟨v, hv, he⟩ := commitStep_move s.free hc
    rw [he]
    exact (readTracked_iff _).2 fun x hx hd =>
      commit_keeps_tracksRead s.free ((readTracked_iff s).1 ht x hx hd) (hsound x hx hd) hv
  · exact ht
  · have hu := exec_keeps_readTracked (owned_of howned hi) ht hno he
    rcases endStep_cases dst u with h | ⟨-, -, l, p, h⟩ <;> rw [h] <;> exact hu
  · exact ht
  · exact ht

/-! ### What a READ returns -/

/-- A READ that returns `Ok(count, buf)` while it drains has found the FIFO empty, and returns what it has taken
(R219, R220). -/
theorem exec_read_returns {s t : State} {x : Txn} {length count : Nat} {buf : List Byte}
    (hc : s.call = some (.txn x)) (hp : x.pos = .rDrain) (he : exec (.read length) s = .next t)
    (hret : Returned (.ok (.bytes count buf)) t) :
    count = x.count ∧ buf = x.buffer ∧ t.trace = s.trace := by
  rw [exec_read_of_call length (exec_effect he).1 hc] at he
  cases he
  obtain ⟨hnone, hres⟩ := hret
  cases hm : s.mapped with
  | false =>
    have hstop : txnStep x s = .more (s.raise (.notInitialized 0x04)) := by
      simp [txnStep, hp, txnStatus, memRead_of_fault (accessFault_unmapped 0x04 hm)]
    simp [hstop, endTxn, hc] at hnone
  | true =>
    rw [txnStep_rDrain hm hp] at hnone hres ⊢
    by_cases hf : s.fifo = []
    · rw [if_neg (by simp [hf])] at hres ⊢
      cases hres
      exact ⟨rfl, rfl, rfl⟩
    · rw [if_pos hf] at hnone
      cases hnone

/-- The bytes taken are the first of those received. -/
theorem Collected.buffer_prefix {t : Txn} {s : State} (h : Collected t s) : t.buffer <+: receivedBytes s.trace := by
  have hpre : t.buffer <+: readBytes t s := by
    rw [readBytes, List.append_assoc]
    exact List.prefix_append _ _
  unfold Collected at h
  split at h
  · rw [h] at hpre
    simp [List.prefix_nil.1 hpre]
  · exact h ▸ hpre

/-- Settles O43, from how each kind of step keeps the tracking, and from what the last step of a READ returns. -/
theorem readReturnsBytesInWireOrder : Obligations.ReadReturnsBytesInWireOrder := by
  refine ⟨fun s t ht hno _ hs => step_keeps_readTracked ht hno hs, ?_⟩
  intro s t x length count buf ht hno hc hp he hret
  obtain ⟨howned, -, hsound⟩ := hno
  have hcol : x.pos.collects = true := by rw [hp]; rfl
  have hd : x.dir = .read := by rw [← (howned _ hc).2 x rfl, hp]; rfl
  obtain ⟨-, -, hlen, hle⟩ := (hsound x hc hd).of_collects hcol
  obtain ⟨rfl, rfl, htrace⟩ := exec_read_returns hc hp he hret
  rw [htrace]
  exact ⟨hlen, hle, ((tracksRead_collecting hcol).1 ((readTracked_iff s).1 ht x hc hd)).buffer_prefix⟩

end Sys2Proof.Machine
end

section
/-! SUPPORT. The encoding (R81, R82, R84, R85, R88): what each kind of port word decodes to, and that a word that decodes is the encoding of its instruction. -/

namespace Sys2Proof.Machine

/-! ### Format H (R81, R82) -/

theorem index_ofIndex (i : BitVec 3) : (Reg.ofIndex i).index = i := by
  revert i
  decide

theorem encode_readInstr (r : Reg) (lo : BitVec 2) : encode (readInstr r lo) = encodeH false r lo 0#32 := by
  cases r <;> rfl

theorem encode_writeInstr (r : Reg) (lo : BitVec 2) (data : Word) :
    encode (writeInstr r lo data) = encodeH true r lo data := by
  cases r <;> rfl

theorem ofBool_getLsbD {n : Nat} (x : BitVec n) (i : Nat) : BitVec.ofBool (x.getLsbD i) = x.extractLsb' i 1 := by
  apply BitVec.eq_of_getLsbD_eq
  intro j hj
  obtain rfl : j = 0 := by omega
  simp

/-- A format H word is its fields W, OFF[4:2], OFF[1:0] and DATA put together. -/
theorem encodeH_fields (w : BitVec 38) :
    encodeH (w.getLsbD 37) (Reg.ofIndex (w.extractLsb' 34 3)) (w.extractLsb' 32 2) (w.extractLsb' 0 32) = .h w := by
  rw [encodeH, index_ofIndex, ofBool_getLsbD, BitVec.extractLsb'_append_extractLsb'_eq_extractLsb' (by rfl),
    BitVec.extractLsb'_append_extractLsb'_eq_extractLsb' (by rfl),
    BitVec.extractLsb'_append_extractLsb'_eq_extractLsb' (by rfl), BitVec.extractLsb'_eq_self]

/-- An H word is a write, a read without data, or reserved (R82, R88). -/
theorem decode_h_cases (w : BitVec 38) :
    let reg := Reg.ofIndex (w.extractLsb' 34 3)
    let lo := w.extractLsb' 32 2
    let data := w.extractLsb' 0 32
    w.getLsbD 37 = true ∧ decode (.h w) = .ok (writeInstr reg lo data) ∨
    w.getLsbD 37 = false ∧ data = 0#32 ∧ decode (.h w) = .ok (readInstr reg lo) ∨
    w.getLsbD 37 = false ∧ data ≠ 0#32 ∧ decode (.h w) = .error .reservedEncoding := by
  simp only [decode, decodeH]
  cases w.getLsbD 37 with
  | true => simp
  | false => by_cases hd : w.extractLsb' 0 32 = 0#32 <;> simp [hd]

theorem encode_of_decode_h {w : BitVec 38} {i : Instr} (h : decode (.h w) = .ok i) : encode i = .h w := by
  rcases decode_h_cases w with ⟨hw, hd⟩ | ⟨hw, hdata, hd⟩ | ⟨-, -, hd⟩ <;> rw [hd] at h <;> cases h
  · rw [encode_writeInstr, ← hw, encodeH_fields]
  · rw [encode_readInstr, ← hw, ← hdata, encodeH_fields]

/-! ### Format V (R84) -/

/-- A format V word is its fields P, B0, B1 and CK put together. -/
theorem encodeV_fields (w : BitVec 25) :
    encodeV (w.getLsbD 24) (w.extractLsb' 16 8) (w.extractLsb' 8 8) (w.extractLsb' 0 8) = .v w := by
  rw [encodeV, ofBool_getLsbD, BitVec.extractLsb'_append_extractLsb'_eq_extractLsb' (by rfl),
    BitVec.extractLsb'_append_extractLsb'_eq_extractLsb' (by rfl),
    BitVec.extractLsb'_append_extractLsb'_eq_extractLsb' (by rfl), BitVec.extractLsb'_eq_self]

/-- A V word is a check, a compute without a check byte, or reserved (R84, R88). -/
theorem decode_v_cases (w : BitVec 25) :
    let b0 := w.extractLsb' 16 8
    let b1 := w.extractLsb' 8 8
    let ck := w.extractLsb' 0 8
    w.getLsbD 24 = true ∧ decode (.v w) = .ok (.crcchk b0 b1 ck) ∨
    w.getLsbD 24 = false ∧ ck = 0#8 ∧ decode (.v w) = .ok (.crc8 b0 b1) ∨
    w.getLsbD 24 = false ∧ ck ≠ 0#8 ∧ decode (.v w) = .error .reservedEncoding := by
  simp only [decode, decodeV]
  cases w.getLsbD 24 with
  | true => simp
  | false => by_cases hck : w.extractLsb' 0 8 = 0#8 <;> simp [hck]

theorem encode_of_decode_v {w : BitVec 25} {i : Instr} (h : decode (.v w) = .ok i) : encode i = .v w := by
  rcases decode_v_cases w with ⟨hp, hd⟩ | ⟨hp, hck, hd⟩ | ⟨-, -, hd⟩ <;> rw [hd] at h <;> cases h
  · rw [encode, ← hp, encodeV_fields]
  · rw [encode, ← hp, ← hck, encodeV_fields]

/-! ### Format P (R85) -/

/-- The procedure ids that R85 assigns to no procedure. -/
abbrev Unassigned (pid : BitVec 5) : Prop := pid.toNat = 0x0E ∨ pid.toNat = 0x0F ∨ 0x16 ≤ pid.toNat

theorem p_of_toNat_eq {pid k : BitVec 5} (h : pid.toNat = k.toNat) (a : ProcArgs) : PortWord.p k a = .p pid a := by
  rw [BitVec.eq_of_toNat_eq h]

/-- A call of an unassigned id is refused; another one is an instruction that is encoded under the same id (R85, R88). -/
theorem decode_p_cases (pid : BitVec 5) (args : ProcArgs) :
    Unassigned pid ∧ decode (.p pid args) = .error .unknownProcedure ∨
    ¬ Unassigned pid ∧ ∃ i a, decode (.p pid args) = .ok i ∧ encode i = .p pid a := by
  simp only [decode, decodeP]
  split
  case h_21 =>
    refine .inl ⟨?_, rfl⟩
    simp only [imp_false, Unassigned] at *
    omega
  all_goals
    next hpid => exact .inr ⟨by simp [Unassigned, hpid], _, _, rfl, p_of_toNat_eq hpid _⟩

theorem encode_of_decode_p {pid : BitVec 5} {args : ProcArgs} {i : Instr} (h : decode (.p pid args) = .ok i) :
    ∃ a, encode i = .p pid a := by
  rcases decode_p_cases pid args with ⟨-, hd⟩ | ⟨-, j, a, hd, ha⟩ <;> rw [hd] at h <;> cases h
  exact ⟨a, ha⟩

/-! ### The statements -/

/-- Settles O1, by the format of each instruction: the fields of its word are its operands. -/
theorem decodeOfEncodeIsIdentity : Obligations.DecodeOfEncodeIsIdentity := by
  intro i
  cases i with
  | rdC lo | rdS lo | rdDlen lo | rdA lo | rdFifo lo | rdDiv lo | rdDel lo | rdClkt lo =>
    exact decode_encodeH_read _ lo
  | wrC lo data | wrS lo data | wrDlen lo data | wrA lo data | wrFifo lo data | wrDiv lo data | wrDel lo data
  | wrClkt lo data => exact decode_encodeH_write _ lo data
  | crc8 b0 b1 => exact decode_encodeV_compute b0 b1
  | crcchk b0 b1 ck => exact decode_encodeV_check b0 b1 ck
  | _ => rfl

/-- Settles O2: a word that decodes is its fields put together, and a call keeps its id. -/
theorem encodeOfDecodeIsIdentity : Obligations.EncodeOfDecodeIsIdentity :=
  ⟨fun _ _ => encode_of_decode_h, fun _ _ => encode_of_decode_v, fun _ _ _ => encode_of_decode_p⟩

/-- Settles O3, from the three kinds of H and V words and the two kinds of calls. -/
theorem decoderRefusesExactlyTheReserved : Obligations.DecoderRefusesExactlyTheReserved := by
  refine ⟨fun w => ?_, fun w => ?_, fun pid args => ?_, fun w => ?_, fun w => ?_, fun pid args => ?_⟩
  · rcases decode_h_cases w with ⟨hw, hd⟩ | ⟨hw, hdata, hd⟩ | ⟨hw, hdata, hd⟩ <;> rw [hd, hw]
    · simp
    · simp [hdata]
    · simp [hdata]
  · rcases decode_v_cases w with ⟨hp, hd⟩ | ⟨hp, hck, hd⟩ | ⟨hp, hck, hd⟩ <;> rw [hd, hp]
    · simp
    · simp [hck]
    · simp [hck]
  · rcases decode_p_cases pid args with ⟨hu, hd⟩ | ⟨hu, i, a, hd, -⟩
    · exact iff_of_true hd hu
    · exact iff_of_false (by simp [hd]) hu
  · rcases decode_h_cases w with ⟨-, hd⟩ | ⟨-, -, hd⟩ | ⟨-, -, hd⟩ <;> simp [hd]
  · rcases decode_v_cases w with ⟨-, hd⟩ | ⟨-, -, hd⟩ | ⟨-, -, hd⟩ <;> simp [hd]
  · rcases decode_p_cases pid args with ⟨-, hd⟩ | ⟨-, i, a, hd, -⟩ <;> simp [hd]

/-- Settles O4: the nine words, evaluated. -/
theorem specWordsDecode : Obligations.SpecWordsDecode := by
  unfold Obligations.SpecWordsDecode
  decide

end Sys2Proof.Machine
end

section
/-! SUPPORT. Host steps that are no request, and refused ones (R88, R90, R288): what each does, and that every step keeps the host-local values canonical. -/

namespace Sys2Proof.Machine

/-! ### The refusals of a host step -/

theorem hostStep_of_undefined_label {s : State} (hd : labelsDefined s.prog = false) :
    hostStep s = .next (tick s (s.refuse .undefinedLabel)) := by
  simp [hostStep, hd]

/-- A request that does not decode is refused, whatever the state of the block (R88). -/
theorem requestStep_of_error {w : PortWord} {e : DecodeError} (dst : Option Nat) (s : State) (h : decode w = .error e) :
    requestStep w dst s = .next (tick s (s.refuse (DecodeError.refusal e))) := by
  simp [requestStep, h]

/-- The host's step at a word with no operation sets the refusal mark and nothing else. -/
theorem step_at_error {s : State} {l : Line} {w : PortWord} {dst : Option Nat} {e : DecodeError}
    (ha : nextAgent s = some .host) (hl : s.line = some l) (hd : labelsDefined s.prog = true)
    (hw : l.op.request s.locals = some (w, dst)) (he : decode w = .error e) :
    step s = .next (tick s { s with refused := some (DecodeError.refusal e) }) := by
  rw [step_of_host ha, hostStep_of_request hl hd hw, requestStep_of_error dst s he,
    refuse_of_running (running_of_nextAgent ha)]

/-! ### Steps on host-local state -/

theorem jump_of_position {s : State} {target p : Nat} (h : position s.prog target = some p) :
    s.jump target = { s with pos := p } := by
  simp [State.jump, h]

theorem jump_locals (target : Nat) (s : State) : (s.jump target).locals = s.locals := by
  unfold State.jump
  split <;> rfl

/-- The host's step at a line that is no request is the line's own. -/
theorem step_at_local {s : State} {l : Line} (ha : nextAgent s = some .host) (hl : s.line = some l)
    (hd : labelsDefined s.prog = true) (hw : l.op.request s.locals = none) :
    step s = .next (tick s (localStep l.op s)) := by
  simp [step_of_host ha, hostStep, hd, hl, hw]

/-- Settles O8: the refusals of the decoder and of the labels, and one equation for each line that is no request. -/
theorem hostStepsAndRefusals : Obligations.HostStepsAndRefusals := by
  refine ⟨fun s ha hd => ?_, fun s l ha hl hd => ⟨fun w dst hw => ⟨step_at_error ha hl hd hw, step_at_error ha hl hd hw⟩,
    fun e target p ho hp => ?_, fun e target p ho hp => ?_, fun target p ho hp => ?_, fun n e ho => ?_⟩⟩
  · rw [step_of_host ha, hostStep_of_undefined_label hd, refuse_of_running (running_of_nextAgent ha)]
  all_goals rw [step_at_local ha hl hd (by rw [ho]; rfl), ho, localStep]
  · rw [jump_of_position hp]
    split <;> rfl
  · rw [jump_of_position hp]
    split <;> rfl
  · rw [jump_of_position hp]

/-! ### The canonical form of the host-local values (R90) -/

theorem bindResult_canonical (dst : Option Nat) {s : State} (h : LocalsCanonical s.locals) :
    LocalsCanonical (s.bindResult dst).locals := by
  unfold State.bindResult
  split
  · exact setLocal_canonical _ _ h
  · exact h

theorem endStep_canonical (dst : Option Nat) {s : State} (h : LocalsCanonical s.locals) :
    LocalsCanonical (endStep dst s).locals := by
  unfold endStep
  split
  · exact bindResult_canonical dst h
  · exact h

theorem localStep_canonical (op : HostOp) {s : State} (h : LocalsCanonical s.locals) :
    LocalsCanonical (localStep op s).locals := by
  have hjump : ∀ target, LocalsCanonical (s.jump target).locals := fun target => by rwa [jump_locals]
  cases op with
  | assign => exact setLocal_canonical _ _ h
  | j target => exact hjump target
  | jz =>
    simp only [localStep]
    split
    · exact hjump _
    · exact h
  | jnz =>
    simp only [localStep]
    split
    · exact h
    · exact hjump _
  | _ => exact h

/-- Only the end of a request binds a value; its instruction leaves the host-local values alone. -/
theorem requestStep_canonical {w : PortWord} {dst : Option Nat} {s t : State} (h : LocalsCanonical s.locals)
    (hs : requestStep w dst s = .next t) : LocalsCanonical t.locals := by
  unfold requestStep at hs
  split at hs
  · cases hs
    exact h
  · split at hs
    · next he =>
      cases hs
      obtain ⟨-, -, hlocals⟩ := exec_static he
      exact endStep_canonical dst (hlocals ▸ h)
    · cases hs
    · cases hs

theorem hostStep_canonical {s t : State} (h : LocalsCanonical s.locals) (hs : hostStep s = .next t) :
    LocalsCanonical t.locals := by
  unfold hostStep at hs
  split at hs
  · cases hs
    exact h
  · split at hs
    · cases hs
      exact h
    · split at hs
      · exact requestStep_canonical h hs
      · cases hs
        exact localStep_canonical _ h

theorem eq_of_stopped {s t : State} (h : s.stopped = .next t) : t = s := by
  unfold State.stopped at h
  split at h <;> cases h
  rfl

/-- Settles O45: the Engine's steps leave the host-local values alone, and a host step at most binds one. -/
theorem stepKeepsLocalsCanonical : Obligations.StepKeepsLocalsCanonical := by
  intro s t h hs
  match ha : nextAgent s with
  | some .host => exact hostStep_canonical h (step_of_host ha ▸ hs)
  | some .phase =>
    rw [step_of_phase ha] at hs
    cases hs
    obtain ⟨-, -, -, -, hlocals, -⟩ := (phaseStep_move s.free s (enabled_of_nextAgent ha)).host_side
    exact hlocals ▸ h
  | some .commit =>
    rw [step_of_commit ha] at hs
    cases hs
    obtain ⟨v, -, hv⟩ := commitStep_move s.free (enabled_of_nextAgent ha)
    rw [hv]
    exact h
  | none =>
    rw [step_of_quiet ha] at hs
    rwa [eq_of_stopped hs]

end Sys2Proof.Machine
end

section
/-! SUPPORT. The sixteen register requests (R100 to R118): which requests stop the host, what a read of each register answers, and what a write of each register stores. -/

namespace Sys2Proof.Machine

/-! ### Requests that stop (R100) -/

/-- On a host that has not stopped, a failed check is recorded as the only fault, for the read and for the write. -/
theorem exec_request_of_fault {r : Reg} {lo : BitVec 2} {s : State} {f : Fault} (hrun : s.running = true)
    (hf : accessFault (r.offset + lo.toNat) s = some f) (data : Word) :
    exec (readInstr r lo) s = .next { s with faults := [f] } ∧
      exec (writeInstr r lo data) s = .next { s with faults := [f] } := by
  simp [exec_readInstr, exec_writeInstr, readRequest, writeRequest, whenRunning_of_running hrun,
    memRead_of_fault hf, memWrite_of_fault hf, endRead, endWrite, raise_of_running hrun]

theorem memWrite_reserved (r : Reg) {data : Word} {s : State} (h : s.mapped = true)
    (hd : data &&& r.reservedMask ≠ 0#32) : memWrite r.offset data s = .stop (s.refuse .reservedBits) := by
  simp [memWrite, accessFault_offset r h, hd]

/-- An aligned write request ends as its register access does. -/
theorem exec_write_aligned (r : Reg) (data : Word) {s : State} (hrun : s.running = true) :
    exec (writeInstr r 0#2 data) s = .next (endWrite (memWrite r.offset data s)) := by
  simp [exec_writeInstr, writeRequest, whenRunning_of_running hrun]

/-- An aligned read request ends as its register access does. -/
theorem exec_read_aligned (r : Reg) {s : State} (hrun : s.running = true) :
    exec (readInstr r 0#2) s = .next (endRead (memRead r.offset s.free s)) := by
  simp [exec_readInstr, readRequest, whenRunning_of_running hrun]

theorem isConfigReg_of_ne {r : Reg} (hS : r ≠ .S) (hF : r ≠ .FIFO) : isConfigReg r = true := by
  cases r <;> simp_all [isConfigReg]

/-- Settles O11: one case for each check of R100, in its order. -/
theorem requestChecksInOrder : Obligations.RequestChecksInOrder := by
  refine ⟨by decide, fun r lo data s => ⟨fun hstop => ?_, fun hrun hmap => ?_, ?_, ?_, ?_, ?_⟩⟩
  · exact ⟨exec_of_stopped _ hstop, exec_of_stopped _ hstop⟩
  · exact exec_request_of_fault hrun (accessFault_unmapped _ hmap) data
  · rintro ⟨hrun, hmap⟩ hoff
    exact exec_request_of_fault hrun (accessFault_beyond hmap hoff) data
  · rintro ⟨hrun, hmap⟩ hoff halign
    exact exec_request_of_fault hrun (accessFault_misaligned hmap hoff halign) data
  · rintro ⟨hrun, hmap⟩ rfl hd
    rw [exec_write_aligned r data hrun, memWrite_reserved r hmap hd, endWrite, refuse_of_running hrun]
  · rintro ⟨hrun, hmap⟩ rfl hd hS hF he
    rw [exec_write_aligned r data hrun, memWrite_active r hmap hd (isConfigReg_of_ne hS hF) he, endWrite,
      raise_of_running hrun]
    rfl

/-! ### Reads (R109 to R117) -/

/-- Settles O15: each read answers its register's word, whose fields stand in its low and high bits. -/
theorem readConfigurationRegisters : Obligations.ReadConfigurationRegisters := by
  rintro s ⟨hrun, hmap⟩
  refine ⟨⟨_, exec_read_register .A hrun hmap, extractLsb'_append_low _ _⟩,
    ⟨_, exec_read_register .DIV hrun hmap, fun h => ?_, fun h => ?_⟩,
    ⟨_, exec_read_register .DEL hrun hmap, extractLsb'_append_high _ _, extractLsb'_append_low _ _⟩,
    ⟨_, exec_read_register .CLKT hrun hmap, extractLsb'_append_low _ _⟩⟩
  · rw [readDIV_low, if_pos h]
  · rw [readDIV_low, if_neg (by simp [h])]

/-! ### The FIFO (R111, R112) -/

theorem popFifo_against (d : Draws) {s : State} (he : s.eng ≠ .idle) (hx : s.xRead = false) :
    popFifo d s = .stop (s.raise (.fifoDirection 0x10 false)) :=
  if_pos ⟨he, hx⟩

theorem popFifo_nil (d : Draws) {s : State} (hdir : s.eng = .idle ∨ s.xRead = true) (hf : s.fifo = []) :
    popFifo d s = .ok d.bits s := by
  rcases hdir with h | h <;> simp [popFifo, h, hf]

theorem popFifo_cons (d : Draws) {s : State} (hdir : s.eng = .idle ∨ s.xRead = true) {b : Byte} {rest : List Byte}
    (hf : s.fifo = b :: rest) : popFifo d s = .ok (d.bits.extractLsb' 8 24 ++ b) { s with fifo := rest } := by
  rcases hdir with h | h <;> simp [popFifo, h, hf]

theorem pushFifo_against (data : Word) {s : State} (he : s.eng ≠ .idle) (hx : s.xRead = true) :
    pushFifo data s = .stop (s.raise (.fifoDirection 0x10 true)) :=
  if_pos ⟨he, hx⟩

theorem pushFifo_along (data : Word) {s : State} (hdir : s.eng = .idle ∨ s.xRead = false) :
    pushFifo data s = .ok () (if s.fifo.length = s.cfg.fifoDepth then s
      else { s with fifo := s.fifo ++ [data.setWidth 8] }) := by
  rw [← extractLsb'_zero_eq_setWidth, apply_ite (Req.ok ())]
  rcases hdir with h | h <;> simp [pushFifo, h]

/-- Settles O16: the three branches of `popFifo`. -/
theorem popFifo_spec : Obligations.PopFifo := by
  rintro s ⟨hrun, hmap⟩
  have hexec : exec (.rdFifo 0#2) s = .next (endRead (popFifo s.free s)) := exec_read_register .FIFO hrun hmap
  rw [hexec]
  refine ⟨fun he hx => ?_, fun hdir => ⟨fun hf => ?_, fun b rest hf => ?_⟩⟩
  · rw [popFifo_against _ he hx, endRead, raise_of_running hrun]
  · exact ⟨_, by rw [popFifo_nil _ hdir hf, endRead]⟩
  · exact ⟨_, by rw [popFifo_cons _ hdir hf, endRead], extractLsb'_append_low _ _⟩

/-- Settles O17: the branches of `pushFifo`. -/
theorem pushFifo_spec : Obligations.PushFifo := by
  rintro s data ⟨hrun, hmap⟩ hd
  have hexec : exec (.wrFifo 0#2 data) s = .next (endWrite (pushFifo data s)) :=
    exec_write_register .FIFO hrun hmap hd nofun
  rw [hexec]
  refine ⟨fun he hx => ?_, fun hdir => ⟨fun hfull => ?_, fun hroom => ?_⟩⟩
  · rw [pushFifo_against data he hx, endWrite, raise_of_running hrun]
  · rw [pushFifo_along data hdir, if_pos hfull, endWrite]
  · rw [pushFifo_along data hdir, if_neg hroom, endWrite]

/-! ### Writes of S and of the configuration registers (R106 to R118) -/

/-- A flag written with 1 is cleared, and one written with 0 stays. -/
theorem and_not_eq_ite (flag bit : Bool) : (flag && !bit) = if bit then false else flag := by
  cases bit <;> simp

/-- Settles O18: `writeStatus` on any mapped block; S is no configuration register. -/
theorem writeStatusClearsFlags : Obligations.WriteStatusClearsFlags := by
  rintro s data ⟨hrun, hmap⟩ hd
  have hexec : exec (.wrS 0#2 data) s = .next (endWrite (.ok () (writeStatus data s))) :=
    exec_write_register .S hrun hmap hd nofun
  rw [hexec, endWrite, writeStatus]
  simp only [and_not_eq_ite]

/-- The high half of a data word. -/
theorem extractLsb'_high_eq (data : Word) : data.extractLsb' 16 16 = (data >>> 16).setWidth 16 := by
  ext i hi
  simp

/-- Settles O19: each write passes the checks of R100 and stores its fields. -/
theorem writeConfigurationRegisters : Obligations.WriteConfigurationRegisters := by
  rintro s data ⟨⟨hrun, hmap⟩, he⟩
  have hexec (r : Reg) (hd : data &&& r.reservedMask = 0#32) :
      exec (writeInstr r 0#2 data) s = .next (endWrite (writeReg r data s)) :=
    exec_write_register r hrun hmap hd fun _ => he
  rw [← extractLsb'_high_eq]
  simp only [← extractLsb'_zero_eq_setWidth]
  exact ⟨fun hd => ⟨hexec .DLEN hd, hexec .DIV hd, hexec .CLKT hd⟩, hexec .A, hexec .DEL (by simp [Reg.reservedMask])⟩

/-! ### Control (R102, R103, R105, R141, R142) -/

/-- What WR_C leaves before a start: its five bits, and the FIFO and the stage emptied if CLEAR is not 0. -/
theorem cleared_storeControl (data : Word) (s : State) :
    cleared data (storeControl data s) = { s with
      cI2cen := data.getLsbD 15, cIntr := data.getLsbD 10, cIntt := data.getLsbD 9
      cIntd := data.getLsbD 8, cRead := data.getLsbD 0
      fifo := if data &&& 0x30#32 = 0#32 then s.fifo else []
      rxStage := if data &&& 0x30#32 = 0#32 then s.rxStage else none } := by
  unfold cleared
  simp only [clear_eq_zero_iff]
  split <;> rfl

/-- What the checks of a start see of the state that the same write left. -/
theorem cleared_storeControl_checks (data : Word) (s : State) :
    (cleared data (storeControl data s)).cI2cen = data.getLsbD 15 ∧
      (cleared data (storeControl data s)).dlenW = s.dlenW ∧
      (cleared data (storeControl data s)).pinsRouted = s.pinsRouted ∧
      (cleared data (storeControl data s)).running = s.running := by
  rw [cleared_storeControl]
  exact ⟨rfl, rfl, rfl, rfl⟩

theorem startTransfer_disabled (data : Word) {s : State} (hen : s.cI2cen = false) :
    startTransfer data s = .stop (s.raise (.startWhileDisabled data)) :=
  if_pos hen

theorem startTransfer_zeroLength (data : Word) {s : State} (hen : s.cI2cen = true) (hlen : s.dlenW = 0#16) :
    startTransfer data s = .stop (s.raise .zeroLengthStart) := by
  simp [startTransfer, hen, hlen]

theorem startTransfer_notRouted (data : Word) {s : State} (hen : s.cI2cen = true) (hlen : s.dlenW ≠ 0#16)
    (hpins : s.pinsRouted = false) : startTransfer data s = .stop (s.raise .busNotRouted) := by
  simp [startTransfer, hen, hlen, hpins]

theorem startTransfer_ok (data : Word) {s : State} (hen : s.cI2cen = true) (hlen : s.dlenW ≠ 0#16)
    (hpins : s.pinsRouted = true) : startTransfer data s = .ok () (latchTransfer s) := by
  simp [startTransfer, hen, hlen, hpins]

/-- WR_C with its checks passed: the store, the CLEAR, and then the start. -/
theorem exec_wrC {s : State} {data : Word} (h : Configurable s) (hd : data &&& 0xFFFF784E#32 = 0#32) :
    exec (.wrC 0#2 data) s = .next (endWrite
      (if data.getLsbD 7 then startTransfer data (cleared data (storeControl data s))
        else .ok () (cleared data (storeControl data s)))) := by
  obtain ⟨⟨hrun, hmap⟩, he⟩ := h
  exact exec_write_register .C hrun hmap hd fun _ => he

/-- Settles O20: the store and the CLEAR, and a start whose checks pass. -/
theorem writeControlStoresClearsStarts : Obligations.WriteControlStoresClearsStarts := by
  intro s data hs hd
  obtain ⟨hcen, hclen, hcpins, -⟩ := cleared_storeControl_checks data s
  rw [exec_wrC hs hd]
  refine ⟨fun hst => ?_, fun hst hen hlen hpins => ?_⟩
  · rw [if_neg (ne_true_of_eq_false hst), cleared_storeControl, endWrite]
  · rw [if_pos hst, startTransfer_ok data (hcen.trans hen) (hclen ▸ hlen) (hcpins.trans hpins),
      cleared_storeControl, endWrite, latchTransfer]

/-- Settles O21: the first check of `startTransfer` that fails, over what the same write stored. -/
theorem startChecksInOrder : Obligations.StartChecksInOrder := by
  rintro s data ⟨⟨hsrun, hmap⟩, he⟩ hd hst
  obtain ⟨hcen, hclen, hcpins, hcrun⟩ := cleared_storeControl_checks data s
  have hrun : (cleared data (storeControl data s)).running = true := hcrun.trans hsrun
  rw [exec_wrC ⟨⟨hsrun, hmap⟩, he⟩ hd, if_pos hst]
  refine ⟨fun hen => ?_, fun hen hlen => ?_, fun hen hlen hpins => ?_⟩
  · rw [startTransfer_disabled data (hcen.trans hen), endWrite, raise_of_running hrun, cleared_storeControl]
  · rw [startTransfer_zeroLength data (hcen.trans hen) (hclen.trans hlen), endWrite, raise_of_running hrun,
      cleared_storeControl]
  · rw [startTransfer_notRouted data (hcen.trans hen) (hclen ▸ hlen) (hcpins.trans hpins), endWrite,
      raise_of_running hrun, cleared_storeControl]

end Sys2Proof.Machine
end

section
/-! SUPPORT. SET_MASKED_BITS (R119): its two host steps as a register read and a register write, and the bits it replaces. -/

namespace Sys2Proof.Machine

/-! ### The two host steps -/

theorem RegEffect.result {s t : State} (h : RegEffect s t) : t.result = s.result := by
  cases h with
  | control _ data | start _ data =>
    obtain ⟨f, g, hc⟩ := cleared_eq_with data (storeControl data s)
    rw [hc]
    rfl
  | _ => rfl

/-- A register access that answers leaves the host able to step or not, as it was. -/
theorem RegEffect.running {s t : State} (h : RegEffect s t) : t.running = s.running := by
  obtain ⟨-, -, -, -, -, hfaults, hrefused, -⟩ := h.host_side
  simp [State.running, hfaults, hrefused]

theorem exec_setMaskedBits (offset : Nat) (value mask : Word) (s : State) :
    exec (.setMaskedBits offset value mask) s = execSetMaskedBits offset value mask s := rfl

/-- The first step, where no call is open: the read, whose value is kept for the second step. -/
theorem exec_setMaskedBits_read (offset : Nat) (value mask : Word) {s : State} (hrun : s.running = true)
    (hcall : s.call = none) : exec (.setMaskedBits offset value mask) s =
      .next ((memRead offset s.free s).andThen fun t s => { s with call := some (.masked t) }) := by
  simp [exec_setMaskedBits, execSetMaskedBits, whenRunning_of_running hrun, hcall]

/-- The second step: the write of the combined value, and the return. -/
theorem exec_setMaskedBits_write (offset : Nat) (value mask : Word) {s : State} {t : Word} (hrun : s.running = true)
    (hcall : s.call = some (.masked t)) : exec (.setMaskedBits offset value mask) s =
      .next ((memWrite offset (maskedBits t value mask) s).andThen fun _ s => s.retOk .unit) := by
  simp [exec_setMaskedBits, execSetMaskedBits, whenRunning_of_running hrun, hcall]

/-- Where R100 finds a fault, either step of the procedure records it and does nothing else. -/
theorem exec_setMaskedBits_of_fault {offset : Nat} {s : State} {f : Fault} (value mask : Word)
    (hrun : s.running = true) (hf : accessFault offset s = some f) :
    exec (.setMaskedBits offset value mask) s = .next { s with faults := [f] } := by
  simp only [exec_setMaskedBits, execSetMaskedBits, whenRunning_of_running hrun, memRead_of_fault hf, memWrite_of_fault hf,
    Req.andThen, raise_of_running hrun]
  split <;> rfl

/-- The first step against the read request of the same register. -/
theorem setMaskedBits_read_of_request {r : Reg} {s u : State} (value mask : Word) (hrun : s.running = true)
    (hcall : s.call = none) (hu : exec (readInstr r 0#2) s = .next u) :
    (u.running = false → exec (.setMaskedBits r.offset value mask) s = .next u) ∧
    ∀ v, u.running = true → u.result = some (.nat v) → exec (.setMaskedBits r.offset value mask) s =
      .next { u with call := some (.masked (BitVec.ofNat 32 v)), result := s.result } := by
  rw [exec_setMaskedBits_read _ value mask hrun hcall]
  rw [exec_read_aligned r hrun] at hu
  have hsound := memRead_sound r.offset s.free s
  cases hq : memRead r.offset s.free s with
  | ok w t =>
    rw [hq] at hu hsound
    cases hu
    have ht : RegEffect s t := hsound
    refine ⟨fun hstop => ?_, fun v _ hv => ?_⟩
    · exact absurd (hstop.symm.trans (ht.running.trans hrun)) Bool.false_ne_true
    · cases hv
      simp [endRead, Req.andThen, ht.result]
  | stop t =>
    rw [hq] at hu hsound
    cases hu
    obtain ⟨-, hstop⟩ := StopOf.call hsound
    exact ⟨fun _ => rfl, fun v hgo => absurd (hstop.symm.trans hgo) Bool.false_ne_true⟩

/-- The second step against the write request of the combined value. -/
theorem setMaskedBits_write_of_request {r : Reg} {s u : State} {t value mask : Word} (hrun : s.running = true)
    (hcall : s.call = some (.masked t)) (hu : exec (writeInstr r 0#2 (maskedBits t value mask)) s = .next u) :
    (u.running = false → exec (.setMaskedBits r.offset value mask) s = .next u) ∧
    (u.running = true → exec (.setMaskedBits r.offset value mask) s =
      .next { u with call := none, result := some (.result (.ok .unit)) }) := by
  rw [exec_setMaskedBits_write _ value mask hrun hcall]
  rw [exec_write_aligned r _ hrun] at hu
  have hsound := memWrite_sound r.offset (maskedBits t value mask) s
  cases hq : memWrite r.offset (maskedBits t value mask) s with
  | ok _ x =>
    rw [hq] at hu hsound
    cases hu
    have hx : RegEffect s x := hsound
    refine ⟨fun hstop => ?_, fun _ => rfl⟩
    exact absurd (hstop.symm.trans (hx.running.trans hrun)) Bool.false_ne_true
  | stop x =>
    rw [hq] at hu hsound
    cases hu
    obtain ⟨-, hstop⟩ := StopOf.call hsound
    exact ⟨fun _ => rfl, fun hgo => absurd (hstop.symm.trans hgo) Bool.false_ne_true⟩

/-- Settles O30: the two steps against their requests, and the checks of R100 on an offset that is no register's. -/
theorem setMaskedBitsIsReadThenWrite : Obligations.SetMaskedBitsIsReadThenWrite := by
  refine ⟨fun r value mask s u hrun => ⟨fun hcall hu => ?_, fun t hcall hu => ?_⟩, ?_⟩
  · exact setMaskedBits_read_of_request value mask hrun hcall hu
  · exact setMaskedBits_write_of_request hrun hcall hu
  · rintro offset value mask s ⟨hrun, hmap⟩
    exact ⟨fun hoff => exec_setMaskedBits_of_fault value mask hrun (accessFault_beyond hmap hoff),
      fun hoff halign => exec_setMaskedBits_of_fault value mask hrun (accessFault_misaligned hmap hoff halign)⟩

/-! ### The bits it replaces -/

/-- A field of the combined value is the combination of the fields. -/
theorem extractLsb'_maskedBits (lo w : Nat) (t value mask : Word) (h : lo + w ≤ 32) :
    (maskedBits t value mask).extractLsb' lo w =
      (t.extractLsb' lo w &&& ~~~mask.extractLsb' lo w) ||| (value.extractLsb' lo w &&& mask.extractLsb' lo w) := by
  ext i hi
  have : lo + i < 32 := by omega
  simp [maskedBits, this]

/-- A mask that covers the reserved bits and a value that leaves them 0 set none of them (R119). -/
theorem maskedBits_reserved {reserved value mask : Word} (hm : mask &&& reserved = reserved)
    (hv : value &&& reserved = 0#32) (t : Word) : maskedBits t value mask &&& reserved = 0#32 := by
  apply BitVec.eq_of_getLsbD_eq
  intro i hi
  have hmi := congrArg (BitVec.getLsbD · i) hm
  have hvi := congrArg (BitVec.getLsbD · i) hv
  simp only [BitVec.getLsbD_and, BitVec.getLsbD_zero] at hmi hvi
  simp only [maskedBits, BitVec.getLsbD_and, BitVec.getLsbD_or, BitVec.getLsbD_not, BitVec.getLsbD_zero, hi]
  cases hr : reserved.getLsbD i <;> simp_all

/-- Both steps in a row on an idle Engine, for a register whose read and write stop nowhere. -/
theorem execN_setMaskedBits {r : Reg} {s : State} {t value mask : Word} {k : State → State}
    (hs : Configurable s) (hcall : s.call = none) (hread : readReg r s.free s = .ok t s)
    (hd : maskedBits t value mask &&& r.reservedMask = 0#32)
    (hwrite : ∀ u : State, writeReg r (maskedBits t value mask) u = .ok () (k u)) :
    execN 2 (.setMaskedBits r.offset value mask) s =
      .next ((k { s with call := some (.masked t) }).retOk .unit) := by
  obtain ⟨⟨hrun, hmap⟩, he⟩ := hs
  have hfirst : exec (.setMaskedBits r.offset value mask) s = .next { s with call := some (.masked t) } := by
    rw [exec_setMaskedBits_read _ value mask hrun hcall, memRead_offset r s.free hmap, hread, Req.andThen]
  have hsecond : exec (.setMaskedBits r.offset value mask) { s with call := some (.masked t) } =
      .next ((k { s with call := some (.masked t) }).retOk .unit) := by
    rw [exec_setMaskedBits_write _ value mask (s := { s with call := some (.masked t) }) hrun rfl,
      memWrite_offset r (s := { s with call := some (.masked t) }) hmap hd fun _ => he, hwrite, Req.andThen]
  simp only [execN, hfirst, hsecond]

/-- Settles O31: A and DEL by `execN_setMaskedBits`, and their fields by `extractLsb'_maskedBits`. -/
theorem setMaskedBitsCompletes : Obligations.SetMaskedBitsCompletes := by
  intro s value mask hs hcall
  refine ⟨fun hm hv => ?_, ?_⟩
  · have hexec := execN_setMaskedBits (r := .A) hs hcall rfl (maskedBits_reserved hm hv (readA s.free s)) fun _ => rfl
    rw [extractLsb'_maskedBits 0 7 _ _ _ (by decide), readA, extractLsb'_append_low] at hexec
    simp only [extractLsb'_zero_eq_setWidth] at hexec
    exact hexec
  · have hexec := execN_setMaskedBits (r := .DEL) (value := value) (mask := mask) hs hcall rfl
      (by simp [Reg.reservedMask]) fun _ => rfl
    rw [extractLsb'_maskedBits 0 16 _ _ _ (by decide), extractLsb'_maskedBits 16 16 _ _ _ (by decide), readDEL,
      extractLsb'_append_low, extractLsb'_append_high] at hexec
    simp only [extractLsb'_zero_eq_setWidth, extractLsb'_high_eq] at hexec
    exact hexec

end Sys2Proof.Machine
end

section
/-! SUPPORT. The bus trace (R155): each move of the Engine appends events that the transfer grammar allows where the trace stands, and nothing else writes the trace. -/

namespace Sys2Proof.Machine

/-- The grammar reads the events appended to a trace from where the trace stood. -/
theorem busPhase_append (trace events : List BusEvent) :
    busPhase (trace ++ events) = events.foldl (fun p e => p.bind fun p => busNext p e) (busPhase trace) :=
  List.foldl_append

theorem TraceSound.quiet {s : State} (h : TraceSound s) (he : s.eng = .idle ∨ s.eng = .addr) :
    busPhase s.trace = some .quiet := by
  rcases he with he | he <;> simpa only [TraceSound, he] using h

theorem TraceSound.moving {s : State} (h : TraceSound s) (he : s.eng = .data) :
    busPhase s.trace = some (.moving s.xRead) := by
  simpa only [TraceSound, he] using h

theorem HostSide.keeps_traceSound {s t : State} (h : TraceSound s) (hs : HostSide s t) : TraceSound t := by
  obtain ⟨m, p, f, r, c, v, rfl, -⟩ := hs
  exact h

/-- No register access writes the trace, and a start leaves it quiet, as it was while the Engine was idle. -/
theorem RegEffect.keeps_traceSound {s t : State} (h : TraceSound s) (hr : RegEffect s t) : TraceSound t := by
  cases hr with
  | none | pop | push | status | config => exact h
  | control _ data =>
    obtain ⟨f, g, hc⟩ := cleared_eq_with data (storeControl data s)
    rw [hc]
    exact h
  | start he data =>
    obtain ⟨f, g, hc⟩ := cleared_eq_with data (storeControl data s)
    rw [hc]
    exact h.quiet (.inl he)

/-- A stretch cuts the transfer short where it stands: past the address with `Start` on the wire, or among the bytes. -/
theorem busPhase_stretched {s u : State} (h : TraceSound s)
    (hu : (s.eng = .addr ∧ u = { s with trace := s.trace ++ [.start] }) ∨ (s.eng = .data ∧ s.xRead = true ∧ u = s) ∨
      (s.eng = .data ∧ s.xRead = false ∧ u = { s with fifo := s.fifo.tail })) :
    busPhase u.trace = some .opened ∨ busPhase u.trace = some (.moving s.xRead) := by
  rcases hu with ⟨he, rfl⟩ | ⟨he, -, rfl⟩ | ⟨he, -, rfl⟩
  · left
    simp [busPhase_append, h.quiet (.inr he), busNext]
  · exact .inr (h.moving he)
  · exact .inr (h.moving he)

theorem EngineMove.keeps_traceSound {s t : State} (h : TraceSound s) (hm : EngineMove s t) : TraceSound t := by
  cases hm with
  | abandoned u done _ hu =>
    rcases busPhase_stretched h hu with hp | hp <;> simp [TraceSound, busPhase_append, hp, busNext]
  | frozen u hu =>
    rcases busPhase_stretched h hu with hp | hp <;> simp [TraceSound, busPhase_append, hp, busNext]
  | endless u hu =>
    rcases busPhase_stretched h hu with hp | hp <;> simp [TraceSound, hp]
  | addrAck he | addrNack he => simp [TraceSound, busPhase_append, h.quiet (.inr he), busNext]
  | txMore he hx | txLast he hx | txNack he hx | rxMore he hx | rxLast he hx =>
    simp [TraceSound, busPhase_append, h.moving he, hx, he, busNext]

/-- Settles O41: only the Engine writes the trace, and each of its moves keeps to the grammar. -/
theorem stepKeepsTraceGrammar : Obligations.StepKeepsTraceGrammar := fun _ _ =>
  step_keeps TraceSound (fun _ _ h => h) (fun _ _ _ h => h) (fun _ _ => HostSide.keeps_traceSound)
    (fun _ _ => RegEffect.keeps_traceSound) (fun _ _ => EngineMove.keeps_traceSound) (fun _ _ _ h _ => h)

end Sys2Proof.Machine
end

section
/-! SUPPORT. One host step of any instruction as one register access and host-side state for the rest, with the address the access is at and the overflow it cannot record. -/

namespace Sys2Proof.Machine

/-! ### The rest of a host step -/

/-- Every overflow recorded in `t` is recorded in `s` (R221). -/
def NoNewOverflow (s t : State) : Prop := ∀ c l, .bufferOverflow c l ∈ t.faults → .bufferOverflow c l ∈ s.faults

theorem NoNewOverflow.of_faults {s t : State} (h : t.faults = s.faults) : NoNewOverflow s t :=
  fun _ _ hm => h ▸ hm

theorem NoNewOverflow.trans {s t u : State} (h : NoNewOverflow s t) (h' : NoNewOverflow t u) : NoNewOverflow s u :=
  fun c l hm => h c l (h' c l hm)

theorem NoNewOverflow.raise {f : Fault} (hf : ∀ c l, f ≠ .bufferOverflow c l) (s : State) :
    NoNewOverflow s (s.raise f) :=
  fun c l hm => ((mem_faults_raise f _ s).1 hm).resolve_right fun h => hf c l h.symm

/-- A stopped access writes at most C, the FIFO and the stage (a failed start), and then records its fault or refusal. -/
theorem StopOf.control {s t : State} (h : StopOf s t) :
    ∃ u, (∃ en ir it id rd f g, u = { s with
        cI2cen := en, cIntr := ir, cIntt := it, cIntd := id, cRead := rd, fifo := f, rxStage := g }) ∧
      ((∃ f, (∀ c l, f ≠ .bufferOverflow c l) ∧ t = u.raise f) ∨ ∃ r, t = u.refuse r) := by
  obtain ⟨u, hu, ht⟩ := h
  refine ⟨u, ?_, ht⟩
  rcases hu with rfl | ⟨-, data, rfl⟩
  · exact ⟨_, _, _, _, _, _, _, rfl⟩
  · exact ⟨_, _, _, _, _, _, _, cleared_storeControl data s⟩

/-- A stopped access records no overflow. -/
theorem StopOf.noNewOverflow {s t : State} (h : StopOf s t) : NoNewOverflow s t := by
  obtain ⟨u, ⟨_, _, _, _, _, _, _, rfl⟩, ⟨f, hf, rfl⟩ | ⟨r, rfl⟩⟩ := h.control
  · exact NoNewOverflow.raise hf _
  · exact .of_faults rfl

/-- What a host step does beside its register access: host-side state only, and no overflow. -/
def QuietSide (s t : State) : Prop := HostSide s t ∧ NoNewOverflow s t

theorem QuietSide.refl (s : State) : QuietSide s s := ⟨.refl s, .of_faults rfl⟩

theorem QuietSide.trans {s t u : State} (h : QuietSide s t) (h' : QuietSide t u) : QuietSide s u :=
  ⟨h.1.trans h'.1, h.2.trans h'.2⟩

theorem QuietSide.ret (r : Result) (s : State) : QuietSide s (s.ret r) := ⟨.ret r s, .of_faults rfl⟩

theorem QuietSide.setCall (c : Option Call) (s : State) : QuietSide s { s with call := c } :=
  ⟨.setCall c s, .of_faults rfl⟩

theorem QuietSide.setResult (v : Option Value) (s : State) : QuietSide s { s with result := v } :=
  ⟨.setResult v s, .of_faults rfl⟩

theorem QuietSide.raise {f : Fault} (hf : ∀ c l, f ≠ .bufferOverflow c l) (s : State) : QuietSide s (s.raise f) :=
  ⟨.raise f s, .raise hf s⟩

theorem QuietSide.setMapping (m : Option Mapping) {p : Bool} {s : State} (hp : s.pinsRouted = true → p = true) :
    QuietSide s { s with mapping := m, pinsRouted := p } :=
  ⟨⟨_, _, _, _, _, _, rfl, hp, fun _ => id, fun _ => id⟩, .of_faults rfl⟩

/-! ### One register access -/

/-- The state a register access leaves. -/
def Req.state {α : Type} : Req α → State
  | .ok _ s => s
  | .stop s => s

theorem Req.Sound.noNewOverflow {α : Type} {s : State} {q : Req α} (h : q.Sound s) : NoNewOverflow s q.state := by
  cases q with
  | ok v t =>
    have ht : RegEffect s t := h
    obtain ⟨-, -, -, -, -, hf, -⟩ := ht.host_side
    exact .of_faults hf
  | stop t => exact StopOf.noNewOverflow h

/-- One host step: a read, a write, or no register access at all; then host-side state. Only where `W` holds may the
access be a write of S, which is at offset 4. -/
inductive AccessStep (W : Prop) (s u : State) : Prop where
  | read (off : Nat) (h : QuietSide (memRead off s.free s).state u)
  | write (off : Nat) (data : Word) (hS : off = 0x04 → W) (h : QuietSide (memWrite off data s).state u)
  | host (h : QuietSide s u)

theorem AccessStep.noNewOverflow {W : Prop} {s u : State} (h : AccessStep W s u) : NoNewOverflow s u := by
  cases h with
  | read off h => exact (memRead_sound off s.free s).noNewOverflow.trans h.2
  | write off data _ h => exact (memWrite_sound off data s).noNewOverflow.trans h.2
  | host h => exact h.2

/-! ### Instructions that run no transaction -/

/-- The instruction's host step in this state is a write of S: WR_S, or the write of a SET_MASKED_BITS on S. -/
def WritesStatus (i : Instr) (s : State) : Prop :=
  (∃ lo data, i = .wrS lo data) ∨ ∃ v m x, i = .setMaskedBits 0x04 v m ∧ s.call = some (.masked x)

theorem endRead_side (q : Req Word) : QuietSide q.state (endRead q) := by
  cases q with
  | ok v t => exact .setResult _ t
  | stop t => exact .refl t

theorem endWrite_side (q : Req Unit) : QuietSide q.state (endWrite q) := by
  cases q with
  | ok v t => exact .setResult _ t
  | stop t => exact .refl t

theorem andThen_side {α : Type} (q : Req α) {k : α → State → State} (hk : ∀ v t, QuietSide t (k v t)) :
    QuietSide q.state (q.andThen k) := by
  cases q with
  | ok v t => exact hk v t
  | stop t => exact .refl t

theorem readRequest_access {W : Prop} {r : Reg} {lo : BitVec 2} {s u : State} (he : readRequest r lo s = .next u) :
    AccessStep W s u := by
  obtain ⟨-, rfl⟩ := (whenRunning_next_iff _ _ _).1 he
  exact .read _ (endRead_side _)

theorem writeRequest_access {W : Prop} {r : Reg} {lo : BitVec 2} {data : Word} {s u : State} (hS : r = .S → W)
    (he : writeRequest r lo data s = .next u) : AccessStep W s u := by
  obtain ⟨-, rfl⟩ := (whenRunning_next_iff _ _ _).1 he
  refine .write _ data (fun hoff => hS ?_) (endWrite_side _)
  have hreg := regAt_offset_add r lo
  rw [hoff] at hreg
  exact hreg.symm

theorem mapBlock_quiet (base length : Nat) {p : Bool} {s : State} (hp : s.pinsRouted = true → p = true)
    (r : Mapping → Result) :
    QuietSide s (match mapBlock base length s with
      | none => s.retErr .mapFailed
      | some m => { s with mapping := some m, pinsRouted := p }.ret (r m)) := by
  split
  · exact .ret _ s
  · exact (QuietSide.setMapping _ hp).trans (.ret _ _)

theorem unmapBlock_quiet (s : State) : QuietSide s (unmapBlock s) := by
  unfold unmapBlock
  split
  · exact (QuietSide.setMapping _ id).trans (.ret _ _)
  · exact .raise (by simp) s

/-- The host step of a procedure that reads one register and returns. -/
theorem readProcedure_access {W : Prop} {off : Nat} {k : Word → State → State} {s u : State}
    (hk : ∀ v t, QuietSide t (k v t))
    (he : whenRunning s (fun s => (memRead off s.free s).andThen k) = .next u) : AccessStep W s u := by
  obtain ⟨-, rfl⟩ := (whenRunning_next_iff _ _ _).1 he
  exact .read off (andThen_side _ hk)

/-- The host step of a procedure that writes one register and returns. -/
theorem writeProcedure_access {W : Prop} {off : Nat} {data : Word} {s u : State} (hS : off = 0x04 → W)
    (he : whenRunning s (fun s => (memWrite off data s).andThen fun _ s => s.retOk .unit) = .next u) :
    AccessStep W s u := by
  obtain ⟨-, rfl⟩ := (whenRunning_next_iff _ _ _).1 he
  exact .write off data hS (andThen_side _ fun _ t => .ret _ t)

theorem hostProcedure_access {W : Prop} {k : State → State} {s u : State} (hk : QuietSide s (k s))
    (he : whenRunning s k = .next u) : AccessStep W s u := by
  obtain ⟨-, rfl⟩ := (whenRunning_next_iff _ _ _).1 he
  exact .host hk

theorem setMaskedBits_access {off : Nat} {value mask : Word} {s u : State}
    (he : exec (.setMaskedBits off value mask) s = .next u) :
    AccessStep (WritesStatus (.setMaskedBits off value mask) s) s u := by
  rw [exec, execSetMaskedBits, whenRunning_next_iff] at he
  obtain ⟨-, rfl⟩ := he
  split
  · next x hx =>
    exact .write off _ (fun hoff => .inr ⟨value, mask, x, by rw [hoff], hx⟩) (andThen_side _ fun _ t => .ret _ t)
  · exact .read off (andThen_side _ fun _ t => .setCall _ t)

theorem setClockFrequency_access {W : Prop} {hz : Nat} {s u : State} (he : exec (.setClockFrequency hz) s = .next u) :
    AccessStep W s u := by
  rw [exec, execSetClockFrequency, whenRunning_next_iff] at he
  obtain ⟨-, rfl⟩ := he
  split
  · exact .host (.ret _ s)
  · exact .write 0x14 _ (fun hoff => absurd hoff (by decide)) (andThen_side _ fun _ t => .ret _ t)

/-- An instruction that runs no transaction makes at most one register access, a write of S only as `WritesStatus`
says. -/
theorem exec_access {i : Instr} {s u : State} (hi : isTransaction i = false) (he : exec i s = .next u) :
    AccessStep (WritesStatus i s) s u := by
  cases i with
  | rdC | rdS | rdDlen | rdA | rdFifo | rdDiv | rdDel | rdClkt => exact readRequest_access he
  | wrS lo data => exact writeRequest_access (fun _ => .inl ⟨lo, data, rfl⟩) he
  | wrC | wrDlen | wrA | wrFifo | wrDiv | wrDel | wrClkt => exact writeRequest_access (by nofun) he
  | crc8 =>
    rw [exec, execCrc8] at he
    exact hostProcedure_access (.setResult _ s) he
  | crcchk =>
    rw [exec, execCrcchk] at he
    exact hostProcedure_access (.setResult _ s) he
  | init base length =>
    rw [exec, execInit] at he
    exact hostProcedure_access (mapBlock_quiet base length (fun _ => rfl) fun _ => .ok .unit) he
  | map base length =>
    rw [exec, execMap] at he
    exact hostProcedure_access (mapBlock_quiet base length id fun m => .ok (.handle m)) he
  | deinit | unmap => exact hostProcedure_access (unmapBlock_quiet s) he
  | setClockFrequency => exact setClockFrequency_access he
  | getSclFrequency | getCdiv | getClockTimeout | getSlaveAddress =>
    exact readProcedure_access (fun _ t => .ret _ t) he
  | setClockTimeout | setSlaveAddress => exact writeProcedure_access (fun hoff => absurd hoff (by decide)) he
  | setMaskedBits => exact setMaskedBits_access he
  | write | read | cmdNoArg | cmdReadWord | cmdWriteWord | readMeasurement | dataReady | setMeasurementInterval =>
    cases hi

/-! ### Transactions -/

/-- The state that a host step of a transaction leaves. -/
def TxnOut.state : TxnOut → State
  | .more s => s
  | .wrote _ s => s
  | .got _ s => s

/-- READ's terminal test touches host-side state only (R217, R218). -/
theorem testSnapshot_side (t : Txn) (s : State) : QuietSide s (testSnapshot t s).state := by
  unfold testSnapshot
  split
  · split
    · exact .refl s
    · exact .setCall _ s
  · exact .setCall _ s

theorem txnWrite_access {W : Prop} {off : Nat} (data : Word) (t : Txn) (s : State) (hS : off = 0x04 → W) :
    AccessStep W s (txnWrite off data t s).state := by
  refine .write off data hS ?_
  unfold txnWrite
  cases memWrite off data s with
  | ok v u => exact .setCall _ u
  | stop u => exact .refl u

theorem txnStatus_access {W : Prop} {s : State} {k : Word → State → TxnOut}
    (hk : ∀ v u, QuietSide u (k v u).state) : AccessStep W s (txnStatus s k).state := by
  refine .read 0x04 ?_
  unfold txnStatus
  cases memRead 0x04 s.free s with
  | ok v u => exact hk v u
  | stop u => exact .refl u

/-- The positions of READ at which it takes a byte (R221). -/
def TxnPos.takes : TxnPos → Bool
  | .rTake | .rDrainTake => true
  | _ => false

/-- `take_one()` reads the FIFO, or records the overflow of a full buffer (R221). -/
theorem takeOne_access {W : Prop} (t : Txn) (s : State) {k : Txn → State → TxnOut}
    (hk : ∀ t u, QuietSide u (k t u).state) :
    AccessStep W s (takeOne t s k).state ∨
      (t.length ≤ t.count ∧ takeOne t s k = .more (s.raise (.bufferOverflow t.count t.length))) := by
  by_cases hl : t.length ≤ t.count
  · exact .inr ⟨hl, takeOne_full hl k⟩
  · refine .inl (.read 0x10 ?_)
    simp only [takeOne, if_neg hl]
    cases memRead 0x10 s.free s with
    | ok v u => exact hk _ u
    | stop u => exact .refl u

/-- One host step of a transaction is one register access, a write of S only at "clear stale status flags"; or the
overflow of a READ's buffer. -/
theorem txnStep_access (t : Txn) (s : State) :
    AccessStep (t.pos = .wStat ∨ t.pos = .rStat) s (txnStep t s).state ∨
      (t.pos.takes = true ∧ t.length ≤ t.count ∧
        txnStep t s = .more (s.raise (.bufferOverflow t.count t.length))) := by
  cases hp : t.pos <;> simp only [txnStep, hp]
  case wClear | wPush | wLen | wStart | rLen | rStart =>
    exact .inl (txnWrite_access _ _ _ fun hoff => absurd hoff (by decide))
  case wStat => exact .inl (txnWrite_access _ _ _ fun _ => .inl trivial)
  case rStat => exact .inl (txnWrite_access _ _ _ fun _ => .inr trivial)
  case wPoll =>
    refine .inl (txnStatus_access fun v u => ?_)
    split
    · split <;> exact .refl u
    · exact .setCall _ u
  case rLoop =>
    refine .inl (txnStatus_access fun v u => ?_)
    split
    · exact .setCall _ u
    · exact testSnapshot_side _ u
  case rDrain =>
    refine .inl (txnStatus_access fun v u => ?_)
    split
    · exact .setCall _ u
    · exact .refl u
  case rTake => exact Or.imp_right (fun h => ⟨rfl, h⟩) (takeOne_access t s testSnapshot_side)
  case rDrainTake => exact Or.imp_right (fun h => ⟨rfl, h⟩) (takeOne_access t s fun t u => .setCall _ u)

/-- How an instruction that runs transactions uses one host step: it returns at once, or it takes the transaction's
step, and then goes on, returns, or has its READ next. -/
inductive TransactionStep (s u : State) : Prop where
  | invalid (r : Result) (h : u = s.ret r)
  | more (new : Txn) (hnew : OpensTxn new) (h : advance new s = .more u)
  | returned (new : Txn) (hnew : OpensTxn new) (r : Result) (h : u = (advance new s).state.ret r)
  | query (new : Txn) (hnew : OpensTxn new) (n : Nat) (hpos : 0 < n) (hle : n ≤ 0xFFFF)
      (h : u = { (advance new s).state with call := some (.txn (readTxn n)) })

theorem endTxn_step {new : Txn} (s : State) (h : OpensTxn new) : TransactionStep s (endTxn (advance new s)) := by
  rcases ha : advance new s with u | ⟨k | n, u⟩ | ⟨k | ⟨count, buf⟩, u⟩
  · exact .more new h ha
  all_goals exact .returned new h _ (by rw [ha]; rfl)

theorem writeCommand_step (bytes : List Byte) (s : State) : TransactionStep s (writeCommand bytes s) := by
  have h : OpensTxn (writeTxn bytes bytes.length) := .inl ⟨_, _, rfl⟩
  rw [writeCommand_eq]
  rcases ha : advance (writeTxn bytes bytes.length) s with u | ⟨k | n, u⟩ | ⟨k | ⟨count, buf⟩, u⟩
  · exact .more _ h ha
  all_goals exact .returned _ h _ (by rw [ha]; rfl)

theorem queryCommand_step (bytes : List Byte) {n : Nat} (hpos : 0 < n) (hle : n ≤ 0xFFFF)
    (fin : Nat → List Byte → Result) (fail : ErrKind → Result) (s : State) :
    TransactionStep s (queryCommand bytes n fin fail s) := by
  have h : OpensTxn (writeTxn bytes bytes.length) := .inl ⟨_, _, rfl⟩
  unfold queryCommand
  rcases ha : advance (writeTxn bytes bytes.length) s with u | ⟨k | m, u⟩ | ⟨k | ⟨count, buf⟩, u⟩
  · exact .more _ h ha
  · exact .returned _ h _ (by rw [ha]; rfl)
  · exact .query _ h n hpos hle (by rw [ha]; rfl)
  all_goals exact .returned _ h _ (by rw [ha]; rfl)

theorem TransactionStep.of_whenRunning {s u : State} {k : State → State} (h : TransactionStep s (k s))
    (he : whenRunning s k = .next u) : TransactionStep s u :=
  ((whenRunning_next_iff s u k).1 he).2 ▸ h

theorem exec_transactionStep {i : Instr} {s u : State} (hi : isTransaction i = true) (he : exec i s = .next u) :
    TransactionStep s u := by
  cases i with
  | write bytes n =>
    exact .of_whenRunning (k := fun s => endTxn (advance (writeTxn bytes n) s)) (endTxn_step s (.inl ⟨_, _, rfl⟩)) he
  | read n => exact .of_whenRunning (k := fun s => endTxn (advance (readTxn n) s)) (endTxn_step s (.inr ⟨_, rfl⟩)) he
  | cmdNoArg | cmdWriteWord => exact .of_whenRunning (writeCommand_step _ s) he
  | cmdReadWord | readMeasurement | dataReady =>
    exact .of_whenRunning (queryCommand_step _ (by decide) (by decide) _ _ s) he
  | setMeasurementInterval seconds =>
    rw [exec, execSetMeasurementInterval] at he
    refine .of_whenRunning ?_ he
    split
    · exact .invalid _ rfl
    · exact writeCommand_step _ s
  | _ => cases hi

end Sys2Proof.Machine
end

section
/-! SUPPORT. A READ stays within its buffer (R156, R221, R226 (a)): the bytes taken, waiting and to come, through the Engine's moves and the host steps of the READ. -/

namespace Sys2Proof.Machine

/-! ### The bookkeeping of a READ after its start -/

/-- What a READ's descriptor keeps at every position: its counter, and a length within the contract (R215). -/
def ReadFrame (t : Txn) : Prop := t.count = t.buffer.length ∧ 0 < t.length ∧ t.length ≤ 0xFFFF

/-- Once started, the bytes taken, waiting and to come are at most the READ's length, the Engine is idle or
receives, and the FIFO has room for the staged byte (R150, R226 (a)). -/
def ReadFits (t : Txn) (s : State) : Prop :=
  t.count + bytesWaiting s + bytesToCome s ≤ t.length ∧ (s.eng = .idle ∨ s.xRead = true) ∧ StageFits s

theorem ReadSound.frame {t : Txn} {s : State} (h : ReadSound t s) : ReadFrame t := by
  obtain ⟨hcount, hpos, hle, -⟩ := h
  exact ⟨hcount, hpos, hle⟩

theorem readSound_collecting {t : Txn} {s : State} (h : t.pos.collects = true) :
    ReadSound t s ↔ ReadFrame t ∧ ReadFits t s ∧ (t.pos.takes = true → s.fifo ≠ []) := by
  cases hp : t.pos with
  | rLoop | rTake | rDrain | rDrainTake => simp [ReadSound, ReadFrame, ReadFits, hp, TxnPos.takes, and_assoc]
  | _ => simp [hp, TxnPos.collects] at h

/-- Before the start only the length in DLEN counts. -/
theorem ReadSound.of_arming {t : Txn} {s u : State} (h : ReadSound t s) (hp : t.pos.collects = false)
    (hlen : u.dlenW = s.dlenW) : ReadSound t u := by
  cases hq : t.pos with
  | rLen | rStat | rStart => simpa [ReadSound, hq, hlen] using h
  | rLoop | rTake | rDrain | rDrainTake => simp [hq, TxnPos.collects] at hp
  | _ => simp [ReadSound, hq] at h

/-- Before its first write a READ has taken nothing; before its second and third DLEN holds its length too (R216). -/
theorem ReadSound.count_of_rLen {t : Txn} {s : State} (h : ReadSound t s) (hp : t.pos = .rLen) : t.count = 0 := by
  simp only [ReadSound, hp] at h
  obtain ⟨-, -, -, hzero⟩ := h
  exact hzero

theorem ReadSound.armed {t : Txn} {s : State} (h : ReadSound t s) (hp : t.pos = .rStat ∨ t.pos = .rStart) :
    t.count = 0 ∧ s.dlenW.toNat = t.length := by
  obtain ⟨-, -, -, hpos⟩ := h
  rcases hp with hp | hp <;> rw [hp] at hpos <;> exact hpos

/-- Nothing of a READ's bookkeeping is in the fields that a host step writes beside its register access. -/
theorem ReadSound.of_side {t : Txn} {s u : State} (h : ReadSound t s) (hs : HostSide s u) : ReadSound t u := by
  obtain ⟨m, p, f, r, c, v, rfl, -⟩ := hs
  exact h

/-! ### The Engine's moves -/

/-- On a read transfer no move takes a byte out of the FIFO. -/
theorem EngineMove.fifo_prefix {s u : State} (hdir : s.eng = .idle ∨ s.xRead = true) (hm : EngineMove s u) :
    s.fifo <+: u.fifo := by
  cases hm with
  | abandoned v _ _ hv | frozen v hv | endless v hv =>
    rcases hv with ⟨-, rfl⟩ | ⟨-, -, rfl⟩ | ⟨he, hx, -⟩
    · exact List.prefix_rfl
    · exact List.prefix_rfl
    · simp [he, hx] at hdir
  | addrAck | addrNack => exact List.prefix_rfl
  | txMore he hx | txLast he hx | txNack he hx => simp [he, hx] at hdir
  | rxMore _ _ _ _ v f g hfg | rxLast _ _ _ _ v f g hfg =>
    rcases hfg with ⟨rfl, -⟩ | ⟨rfl, -⟩
    · exact List.prefix_append _ _
    · exact List.prefix_rfl

/-- A byte received while none is staged and the FIFO has room waits in the FIFO or in the stage (R149). -/
theorem received_waits {s : State} {v : Byte} {f : List Byte} {g : Option Byte} (hs : s.rxStage = none)
    (hl : s.fifo.length < s.cfg.fifoDepth) (hfg : (f = s.fifo ++ [v] ∧ g = none) ∨ (f = s.fifo ∧ g = some v)) :
    f.length + (if g = none then 0 else 1) = bytesWaiting s + 1 ∧ (g ≠ none → f.length < s.cfg.fifoDepth) := by
  rcases hfg with ⟨rfl, rfl⟩ | ⟨rfl, rfl⟩ <;> simp [bytesWaiting, hs, hl]

/-- An end of the transfer, or its freeze, leaves no byte to come; a byte received was one of those to come. -/
theorem EngineMove.keeps_readFits {t : Txn} {s u : State} (h : ReadFits t s) (hts : TransferSound s)
    (hm : EngineMove s u) : ReadFits t u := by
  obtain ⟨hle, hdir, hfits⟩ := h
  have hpos : s.eng = .data → 0 < s.rem.toNat := fun he =>
    let ⟨_, hmoves, _⟩ := hts (by simp [he])
    hmoves (.inr he)
  cases hm with
  | abandoned v _ _ hv =>
    rcases hv with ⟨-, rfl⟩ | ⟨-, -, rfl⟩ | ⟨he, hx, -⟩
    · exact ⟨(Nat.le_add_right _ _).trans hle, .inl rfl, hfits⟩
    · exact ⟨(Nat.le_add_right _ _).trans hle, .inl rfl, hfits⟩
    · simp [he, hx] at hdir
  | frozen v hv | endless v hv =>
    rcases hv with ⟨he, rfl⟩ | ⟨-, hx, rfl⟩ | ⟨he, hx, -⟩
    · exact ⟨(Nat.le_add_right _ _).trans hle, .inr (hdir.resolve_left (by simp [he])), hfits⟩
    · exact ⟨(Nat.le_add_right _ _).trans hle, .inr hx, hfits⟩
    · simp [he, hx] at hdir
  | addrAck he =>
    refine ⟨?_, .inr (hdir.resolve_left (by simp [he])), hfits⟩
    simpa [bytesToCome, bytesWaiting, he] using hle
  | addrNack => exact ⟨(Nat.le_add_right _ _).trans hle, .inl rfl, hfits⟩
  | txMore he hx | txLast he hx | txNack he hx => simp [he, hx] at hdir
  | rxMore he hx hs hl v f g hfg hr =>
    obtain ⟨hwait, hfits'⟩ := received_waits hs hl hfg
    have hrem : (s.rem - 1#16).toNat + 1 = s.rem.toNat := by
      have := hpos he
      bv_omega
    refine ⟨?_, .inr hx, hfits'⟩
    simp only [bytesToCome, bytesWaiting, he] at hle hwait ⊢
    omega
  | rxLast he hx hs hl v f g hfg hr =>
    obtain ⟨hwait, hfits'⟩ := received_waits hs hl hfg
    have := hpos he
    refine ⟨?_, .inl rfl, hfits'⟩
    simp only [bytesToCome, bytesWaiting, he] at hle hwait ⊢
    omega

theorem EngineMove.keeps_readSound {t : Txn} {s u : State} (h : ReadSound t s) (hts : TransferSound s)
    (hm : EngineMove s u) : ReadSound t u := by
  cases hp : t.pos.collects with
  | true =>
    obtain ⟨hframe, hfits, htake⟩ := (readSound_collecting hp).1 h
    refine (readSound_collecting hp).2 ⟨hframe, hm.keeps_readFits hfits hts, fun ht hnil => htake ht ?_⟩
    exact List.prefix_nil.1 (hnil ▸ hm.fifo_prefix hfits.2.1)
  | false =>
    obtain ⟨-, -, -, -, -, -, -, -, -, hlen, -⟩ := hm.host_side
    exact h.of_arming hp hlen

/-- RXC moves the staged byte to the FIFO, which has room for it (R150). -/
theorem commit_keeps_readSound {t : Txn} {s : State} {v : Byte} (d : Draws) (h : ReadSound t s)
    (hv : s.rxStage = some v) : ReadSound t { s with fifo := appended d v s, rxStage := none } := by
  cases hp : t.pos.collects with
  | true =>
    obtain ⟨hframe, ⟨hle, hdir, hfits⟩, -⟩ := (readSound_collecting hp).1 h
    rw [appended_of_room d v (hfits (by simp [hv]))]
    refine (readSound_collecting hp).2 ⟨hframe, ⟨?_, hdir, nofun⟩, fun _ => by simp⟩
    simpa [bytesWaiting, bytesToCome, hv] using hle
  | false => exact h.of_arming hp rfl

/-! ### The host steps of a READ -/

/-- What a host step of the READ `t` leaves while it goes on: the same call, or its next descriptor, with its
bookkeeping. -/
def SoundOut (t : Txn) (s : State) : TxnOut → Prop
  | .more u => (u.call = s.call ∧ ReadSound t u) ∨ ∃ t', u.call = some (.txn t') ∧ ReadSound t' u
  | .wrote _ _ | .got _ _ => True

theorem soundOut_goOn {t t' : Txn} {s u : State} (h : ReadSound t' u) : SoundOut t s (goOn t' u) :=
  .inr ⟨t', rfl, h⟩

/-- The writes of ARM before the start; a write that stops leaves DLEN and the call as they were (R216). -/
theorem txnWrite_sound_arming {t t' : Txn} {s : State} {off : Nat} {data : Word} (h : ReadSound t s)
    (hp : t.pos.collects = false) (hok : ∀ u, memWrite off data s = .ok () u → ReadSound t' u) :
    SoundOut t s (txnWrite off data t' s) := by
  have hsound := memWrite_sound off data s
  unfold txnWrite
  cases hw : memWrite off data s with
  | ok v u => exact soundOut_goOn (hok u hw)
  | stop u =>
    rw [hw] at hsound
    have hstop : StopOf s u := hsound
    refine .inl ⟨hstop.call.1, h.of_arming hp ?_⟩
    obtain ⟨w, ⟨_, _, _, _, _, _, _, rfl⟩, ⟨f, -, rfl⟩ | ⟨r, rfl⟩⟩ := hstop.control <;> rfl

/-- A write of DLEN stores the low half of its word (R108). -/
theorem memWrite_length_ok {s u : State} {data : Word} {v : Unit} (h : memWrite 0x08 data s = .ok v u) :
    u = { s with dlenW := data.extractLsb' 0 16 } := by
  have hw : writeReg .DLEN data s = .ok v u := (memWrite_ok h).2.2.2
  cases hw
  rfl

theorem memWrite_status_ok {s u : State} {data : Word} {v : Unit} (h : memWrite 0x04 data s = .ok v u) :
    u = writeStatus data s := by
  have hw : writeReg .S data s = .ok v u := (memWrite_ok h).2.2.2
  cases hw
  rfl

/-- "start, read mode, clear" latches a read transfer of DLEN bytes, with the FIFO and the stage empty (R103, R141). -/
theorem memWrite_startRead_latches {s u : State} {v : Unit} (h : memWrite 0x00 0x00008091#32 s = .ok v u) :
    u = latchTransfer (clearFifo (storeControl 0x00008091#32 s)) := by
  have hw : startTransfer 0x00008091#32 (clearFifo (storeControl 0x00008091#32 s)) = .ok v u := (memWrite_ok h).2.2.2
  unfold startTransfer at hw
  split at hw
  · cases hw
  · split at hw
    · cases hw
    · split at hw <;> cases hw
      rfl

/-- A status read changes nothing but what the step makes of the snapshot. -/
theorem txnStatus_soundOut {t : Txn} {s : State} {k : Word → State → TxnOut} (h : ReadSound t s)
    (hk : SoundOut t s (k (readS s.free s) s)) : SoundOut t s (txnStatus s k) := by
  unfold txnStatus
  cases hr : memRead 0x04 s.free s with
  | ok v u =>
    obtain ⟨rfl, rfl⟩ := memRead_status hr
    exact hk
  | stop u =>
    obtain ⟨f, -, rfl⟩ := memRead_stop hr
    exact .inl ⟨rfl, h.of_side (.raise f s)⟩

/-- A READ that fits goes on polling or draining, or it takes a byte that is there. -/
theorem readSound_goesOn {t : Txn} {s : State} {p : TxnPos} (snap : Word) (hframe : ReadFrame t) (h : ReadFits t s)
    (hp : p.collects = true) (hf : p.takes = true → s.fifo ≠ []) : ReadSound { t with snap := snap, pos := p } s :=
  (readSound_collecting hp).2 ⟨hframe, h, hf⟩

theorem testSnapshot_soundOut {t t' : Txn} {s u : State} (hframe : ReadFrame t') (h : ReadFits t' u) :
    SoundOut t s (testSnapshot t' u) := by
  unfold testSnapshot
  split
  · split
    · trivial
    · exact soundOut_goOn (readSound_goesOn _ hframe h rfl nofun)
  · exact soundOut_goOn (readSound_goesOn _ hframe h rfl nofun)

/-- Data-ready in a snapshot of the state says that a byte is there (R25). -/
theorem fifo_ne_nil_of_dataReady {d : Draws} {s : State} (h : dataReadyBit (readS d s) = true) : s.fifo ≠ [] := by
  rintro hnil
  simp [flagRXD, hnil] at h

/-- A byte that is there leaves the buffer room for it (R226 (a)). -/
theorem ReadFits.count_lt {t : Txn} {s : State} (h : ReadFits t s) (hf : s.fifo ≠ []) : t.count < t.length := by
  obtain ⟨hle, -⟩ := h
  have := List.length_pos_of_ne_nil hf
  simp only [bytesWaiting] at hle
  omega

/-- `take_one()` makes one of the waiting bytes a taken one (R221). -/
theorem ReadFits.take {t : Txn} {s : State} {b : Byte} {rest : List Byte} (h : ReadFits t s) (hf : s.fifo = b :: rest) :
    ReadFits { t with buffer := t.buffer ++ [b], count := t.count + 1 } { s with fifo := rest } := by
  obtain ⟨hle, hdir, hfits⟩ := h
  refine ⟨?_, hdir, fun hs => ?_⟩
  · simp only [bytesWaiting, bytesToCome, hf, List.length_cons] at hle ⊢
    omega
  · have hroom := hfits hs
    rw [hf, List.length_cons] at hroom
    exact Nat.lt_of_succ_lt hroom

theorem takeOne_soundOut {t : Txn} {s : State} {k : Txn → State → TxnOut} (h : ReadSound t s)
    (hp : t.pos.collects = true) (ht : t.pos.takes = true)
    (hk : ∀ t' u, ReadFrame t' → ReadFits t' u → SoundOut t s (k t' u)) : SoundOut t s (takeOne t s k) := by
  obtain ⟨hframe, hfits, hf⟩ := (readSound_collecting hp).1 h
  obtain ⟨b, rest, hbr⟩ := List.exists_cons_of_ne_nil (hf ht)
  unfold takeOne
  rw [if_neg (Nat.not_le.2 (hfits.count_lt (hf ht)))]
  cases hr : memRead 0x10 s.free s with
  | ok v u =>
    obtain ⟨rfl, rfl, -⟩ := memRead_fifo hr hbr
    obtain ⟨hcount, hpos, hle⟩ := hframe
    exact hk _ _ ⟨by simp [hcount], hpos, hle⟩ (hfits.take hbr)
  | stop u =>
    obtain ⟨f, -, rfl⟩ := memRead_stop hr
    exact .inl ⟨rfl, h.of_side (.raise f s)⟩

/-- Every host step of a READ keeps its bookkeeping. -/
theorem txnStep_soundOut {t : Txn} {s : State} (hdir : t.pos.dir = .read) (h : ReadSound t s) :
    SoundOut t s (txnStep t s) := by
  obtain ⟨hcount, hpos, hle⟩ := h.frame
  cases hp : t.pos with
  | wClear | wPush | wLen | wStat | wStart | wPoll => simp [hp, TxnPos.dir] at hdir
  | rLen =>
    have hzero := h.count_of_rLen hp
    simp only [txnStep, hp]
    refine txnWrite_sound_arming h (by rw [hp]; rfl) fun u hu => ?_
    rw [memWrite_length_ok hu]
    refine ⟨hcount, hpos, hle, hzero, ?_⟩
    simp only [length_low, BitVec.toNat_ofNat]
    omega
  | rStat =>
    have harm := h.armed (.inl hp)
    simp only [txnStep, hp]
    refine txnWrite_sound_arming h (by rw [hp]; rfl) fun u hu => ?_
    rw [memWrite_status_ok hu]
    exact ⟨hcount, hpos, hle, harm⟩
  | rStart =>
    have harm := h.armed (.inr hp)
    simp only [txnStep, hp]
    refine txnWrite_sound_arming h (by rw [hp]; rfl) fun u hu => ?_
    rw [memWrite_startRead_latches hu]
    refine readSound_goesOn t.snap ⟨hcount, hpos, hle⟩ ⟨?_, .inr rfl, nofun⟩ rfl nofun
    simp [bytesWaiting, bytesToCome, latchTransfer, storeControl, harm]
  | rLoop =>
    obtain ⟨hframe, hfits, -⟩ := (readSound_collecting (by rw [hp]; rfl)).1 h
    simp only [txnStep, hp]
    refine txnStatus_soundOut h ?_
    split
    · next hd => exact soundOut_goOn (readSound_goesOn _ hframe hfits rfl fun _ => fifo_ne_nil_of_dataReady hd)
    · exact testSnapshot_soundOut hframe hfits
  | rDrain =>
    obtain ⟨hframe, hfits, -⟩ := (readSound_collecting (by rw [hp]; rfl)).1 h
    simp only [txnStep, hp]
    refine txnStatus_soundOut h ?_
    split
    · next hd => exact soundOut_goOn (readSound_goesOn _ hframe hfits rfl fun _ => fifo_ne_nil_of_dataReady hd)
    · trivial
  | rTake =>
    simp only [txnStep, hp]
    exact takeOne_soundOut h (by rw [hp]; rfl) (by rw [hp]; rfl) fun _ _ => testSnapshot_soundOut
  | rDrainTake =>
    simp only [txnStep, hp]
    exact takeOne_soundOut h (by rw [hp]; rfl) (by rw [hp]; rfl) fun t' u hframe hfits =>
      soundOut_goOn (readSound_goesOn t'.snap hframe hfits rfl nofun)

theorem TxnPos.collects_of_takes {p : TxnPos} (h : p.takes = true) : p.collects = true ∧ p.dir = .read := by
  cases p with
  | rTake | rDrainTake => exact ⟨rfl, rfl⟩
  | _ => cases h

/-- A READ with its bookkeeping records no overflow: where it takes a byte its buffer has room. -/
theorem txnStep_noNewOverflow {t : Txn} {s : State} (hpos : t.pos.dir = t.dir) (h : t.dir = .read → ReadSound t s) :
    NoNewOverflow s (txnStep t s).state := by
  rcases txnStep_access t s with ha | ⟨htake, hfull, -⟩
  · exact ha.noNewOverflow
  · obtain ⟨hcol, hread⟩ := TxnPos.collects_of_takes htake
    obtain ⟨-, hfits, hf⟩ := (readSound_collecting hcol).1 (h (hpos.symm.trans hread))
    exact absurd hfull (Nat.not_le.2 (hfits.count_lt (hf htake)))

/-! ### The host steps of an instruction -/

/-- The READ that runs, if any, has its bookkeeping. -/
def ReadsSound (s : State) : Prop := ∀ t, s.call = some (.txn t) → t.dir = .read → ReadSound t s

theorem readsSound_of_no_read {s : State} (h : ∀ t, s.call = some (.txn t) → t.dir ≠ .read) : ReadsSound s :=
  fun t hc hd => absurd hd (h t hc)

theorem readsSound_of_txn {s : State} {t : Txn} (hc : s.call = some (.txn t)) (h : ReadSound t s) : ReadsSound s := by
  intro t' hc' _
  rw [hc] at hc'
  cases hc'
  exact h

/-- A step of the transaction `t`, the one that runs or a new one where none runs, keeps the bookkeeping. -/
theorem txnStep_keeps_readsSound {t : Txn} {s u : State} (hpos : t.pos.dir = t.dir)
    (hcall : ∀ t', s.call = some (.txn t') → t' = t) (hread : t.dir = .read → ReadSound t s)
    (hu : txnStep t s = .more u) : ReadsSound u := by
  cases hd : t.dir with
  | write =>
    have hc := txnStep_call t s hpos
    rw [hu] at hc
    refine readsSound_of_no_read fun t' ht' => ?_
    rcases hc with hsame | ⟨t'', ht'', hdir, -⟩
    · simp [hcall t' (hsame ▸ ht'), hd]
    · rw [ht''] at ht'
      cases ht'
      simp [hdir, hd]
  | read =>
    have ho := txnStep_soundOut (hpos.trans hd) (hread hd)
    rw [hu] at ho
    rcases ho with ⟨hsame, hs⟩ | ⟨t', ht', hs⟩
    · exact fun t' ht' _ => hcall t' (hsame ▸ ht') ▸ hs
    · exact readsSound_of_txn ht' hs

/-- Which transaction `advance` runs: one that is sound where it is a READ; or it stops at the contract. -/
theorem advance_sound_cases {new : Txn} {i : Instr} {s : State} (hnew : OpensTxn new) (hcall : CallOf i s)
    (h : ReadsSound s) :
    (∃ f, (∀ c l, f ≠ Fault.bufferOverflow c l) ∧ advance new s = .more (s.raise f)) ∨
    ∃ t, advance new s = txnStep t s ∧ t.pos.dir = t.dir ∧ (∀ t', s.call = some (.txn t') → t' = t) ∧
      (t.dir = .read → ReadSound t s) := by
  rcases advance_call new i s hcall hnew.pos_dir with ⟨t, hc, ha, -⟩ | ⟨-, -, ha⟩ | ⟨hn, hv, ha, -⟩
  · refine .inr ⟨t, ha, hcall.txn hc, fun t' hc' => ?_, h t hc⟩
    rw [hc] at hc'
    cases hc'
    rfl
  · exact .inl ⟨_, by simp, ha⟩
  · exact .inr ⟨new, ha, hnew.pos_dir, fun t' hc' => absurd hc' (hn t'), fun hd => (hnew.read_sound hv hd).2⟩

theorem advance_noNewOverflow {new : Txn} {i : Instr} {s : State} (hnew : OpensTxn new) (hcall : CallOf i s)
    (h : ReadsSound s) : NoNewOverflow s (advance new s).state := by
  rcases advance_sound_cases hnew hcall h with ⟨f, hf, ha⟩ | ⟨t, ha, hpos, -, hread⟩ <;> rw [ha]
  · exact .raise hf s
  · exact txnStep_noNewOverflow hpos hread

theorem advance_keeps_readsSound {new : Txn} {i : Instr} {s u : State} (hnew : OpensTxn new) (hcall : CallOf i s)
    (h : ReadsSound s) (hu : advance new s = .more u) : ReadsSound u := by
  rcases advance_sound_cases hnew hcall h with ⟨f, -, ha⟩ | ⟨t, ha, hpos, hsame, hread⟩ <;> rw [ha] at hu
  · cases hu
    exact fun t hc hd => (h t hc hd).of_side (.raise f s)
  · exact txnStep_keeps_readsSound hpos hsame hread hu

/-- One host step of any instruction records no overflow and keeps the bookkeeping of the READ that runs. -/
theorem exec_keeps_readsSound {i : Instr} {s u : State} (hcall : CallOf i s) (h : ReadsSound s)
    (he : exec i s = .next u) : NoNewOverflow s u ∧ ReadsSound u := by
  cases hi : isTransaction i with
  | false =>
    refine ⟨(exec_access hi he).noNewOverflow, readsSound_of_no_read fun t hc => ?_⟩
    have howns := (exec_call hcall he _ hc).1
    simp [isTransaction_of_owns_txn howns] at hi
  | true =>
    rcases exec_transactionStep hi he with ⟨r, rfl⟩ | ⟨new, hnew, ha⟩ | ⟨new, hnew, r, rfl⟩ | ⟨new, hnew, n, hpos, hle, rfl⟩
    · exact ⟨.of_faults rfl, nofun⟩
    · have hno := advance_noNewOverflow hnew hcall h
      rw [ha] at hno
      exact ⟨hno, advance_keeps_readsSound hnew hcall h ha⟩
    · exact ⟨advance_noNewOverflow hnew hcall h, nofun⟩
    · exact ⟨advance_noNewOverflow hnew hcall h, readsSound_of_txn rfl ⟨rfl, hpos, hle, rfl⟩⟩

/-! ### Every step -/

/-- The part of `NoOverflow` beside `CallOwned` lasts through every step. -/
theorem step_keeps_readsSound {s t : State} (howned : CallOwned s) (h : ReadsSound s) (hts : TransferSound s)
    (hs : step s = .next t) : NoNewOverflow s t ∧ ReadsSound t := by
  rcases step_cases hs with
    ⟨hp, rfl⟩ | ⟨hc, rfl⟩ | ⟨r, -, rfl⟩ | ⟨i, dst, u, -, hi, he, rfl⟩ | ⟨-, -, l, p, rfl⟩ | rfl
  · have hm := phaseStep_move s.free s hp
    obtain ⟨-, hcall, -, -, -, hfaults, -⟩ := hm.host_side
    refine ⟨.of_faults hfaults, fun x hx hd => ?_⟩
    have hx : s.call = some (.txn x) := hcall ▸ hx
    have hu : ReadSound x (phaseStep s.free s) := hm.keeps_readSound (h x hx hd) hts
    exact hu
  · obtain ⟨v, hv, he⟩ := commitStep_move s.free hc
    rw [he]
    exact ⟨.of_faults rfl, fun x hx hd => commit_keeps_readSound s.free (h x hx hd) hv⟩
  · exact ⟨.of_faults rfl, h⟩
  · have hu := exec_keeps_readsSound (owned_of howned hi) h he
    rcases endStep_cases dst u with h' | ⟨-, -, l, p, h'⟩ <;> rw [h'] <;> exact hu
  · exact ⟨.of_faults rfl, h⟩
  · exact ⟨.of_faults rfl, h⟩

/-- Settles O42: no step records an overflow, since the READ that runs keeps its bookkeeping. -/
theorem stepKeepsReadWithinBuffer : Obligations.StepKeepsReadWithinBuffer := by
  rintro s t ⟨howned, hno, hsound⟩ hts hs
  obtain ⟨hnew, hsound'⟩ := step_keeps_readsSound howned hsound hts hs
  exact ⟨step_owned howned hs, fun c l hm => hno c l (hnew c l hm), hsound'⟩

end Sys2Proof.Machine
end

section
/-! SUPPORT. The Engine's steps one by one (R143 to R154): what a stretch makes of each, and what each does without one. -/

namespace Sys2Proof.Machine

/-! ### Stretches (R152, R153, R154) -/

theorem afterStretch_none {d : Draws} (h : d.stretch = false) (s : State) (k : State → State) :
    afterStretch d s k = k s := by
  simp [afterStretch, stretchDraw, h]

theorem afterStretch_timeout {d : Draws} {s : State} (h : d.stretch = true) (ht : timeoutEnabled s = true)
    (k : State → State) : afterStretch d s k = timeout d s := by
  simp [afterStretch, stretchDraw, h, ht]

theorem afterStretch_forever {d : Draws} {s : State} (h : d.stretch = true) (ht : timeoutEnabled s = false)
    (k : State → State) : afterStretch d s k = { s with eng := .stalled } := by
  simp [afterStretch, stretchDraw, h, ht]

theorem timeout_abandoned {d : Draws} (h : d.abandon = true) (s : State) :
    timeout d s = { s with
      clkt := true, eng := .idle, done := s.done || d.alsoDone, trace := s.trace ++ [.stretchTimeout, .stop] } := by
  simp [timeout, h, State.emit]

theorem timeout_frozen {d : Draws} (h : d.abandon = false) (s : State) :
    timeout d s = { s with clkt := true, eng := .stalled, trace := s.trace ++ [.stretchTimeout] } := by
  simp [timeout, h, State.emit]

/-- The timeout is enabled unless TOUT is 0 and 0 disables it (R152). -/
theorem timeoutEnabled_iff (s : State) :
    timeoutEnabled s = true ↔ s.tout ≠ 0#16 ∨ s.cfg.clktZeroDisables = false := by
  simp [timeoutEnabled]

/-! ### Each step as what follows its stretch -/

theorem phaseStep_addr (d : Draws) {s : State} (he : s.eng = .addr) : phaseStep d s = addrStep d s := by
  simp [phaseStep, he]

theorem phaseStep_rx (d : Draws) {s : State} (he : s.eng = .data) (hx : s.xRead = true) :
    phaseStep d s = rxStep d s := by
  simp [phaseStep, he, hx]

theorem phaseStep_tx (d : Draws) {s : State} (he : s.eng = .data) (hx : s.xRead = false) :
    phaseStep d s = txStep d s := by
  simp [phaseStep, he, hx]

theorem txStep_cons (d : Draws) {s : State} {b : Byte} {rest : List Byte} (hf : s.fifo = b :: rest) :
    txStep d s = afterStretch d { s with fifo := rest } fun s =>
      if d.ack then txAcked (s.emit (.txByte b (acknowledge d))) else nackEnd d (s.emit (.txByte b (acknowledge d))) := by
  simp [txStep, hf]

/-- Where the stretch of an enabled bus step comes: after `Start`, before a received byte, after the pop of one to send. -/
def beforeStretch (s : State) : State :=
  match s.eng with
  | .addr => { s with trace := s.trace ++ [.start] }
  | _ => if s.xRead then s else { s with fifo := s.fifo.tail }

theorem beforeStretch_addr {s : State} (he : s.eng = .addr) : beforeStretch s = s.emit .start := by
  simp [beforeStretch, he, State.emit]

theorem beforeStretch_rx {s : State} (he : s.eng = .data) (hx : s.xRead = true) : beforeStretch s = s := by
  simp [beforeStretch, he, hx]

theorem beforeStretch_tx {s : State} (he : s.eng = .data) (hx : s.xRead = false) :
    beforeStretch s = { s with fifo := s.fifo.tail } := by
  simp [beforeStretch, he, hx]

theorem phaseStep_afterStretch (d : Draws) {s : State} (h : phaseEnabled s = true) :
    ∃ k, phaseStep d s = afterStretch d (beforeStretch s) k := by
  rcases (phaseEnabled_iff s).1 h with he | ⟨he, hx, hf⟩ | ⟨he, hx, -⟩
  · exact ⟨_, by rw [phaseStep_addr d he, beforeStretch_addr he, addrStep]⟩
  · obtain ⟨b, rest, hbr⟩ := List.exists_cons_of_length_pos hf
    exact ⟨_, by rw [phaseStep_tx d he hx, txStep_cons d hbr, beforeStretch_tx he hx, hbr, List.tail_cons]⟩
  · exact ⟨_, by rw [phaseStep_rx d he hx, beforeStretch_rx he hx, rxStep]⟩

/-- Nothing that a stretch reads is written before it. -/
theorem beforeStretch_frame (s : State) :
    (beforeStretch s).done = s.done ∧ timeoutEnabled (beforeStretch s) = timeoutEnabled s := by
  unfold beforeStretch
  split
  · exact ⟨rfl, rfl⟩
  · split <;> exact ⟨rfl, rfl⟩

/-- Settles O36: the three outcomes of a stretch, from the state that `beforeStretch` gives. -/
theorem stretchStep : Obligations.StretchStep := by
  intro d s hen hs at0
  have hat0 : at0 = beforeStretch s := rfl
  obtain ⟨k, hk⟩ := phaseStep_afterStretch d hen
  obtain ⟨hdone, hframe⟩ := beforeStretch_frame s
  rw [hk, hat0, ← hdone, ← timeoutEnabled_iff, ← hframe]
  refine ⟨fun ht => ⟨fun ha => ?_, fun ha => ?_⟩, fun htout hzero => ?_⟩
  · rw [afterStretch_timeout hs ht, timeout_abandoned ha]
  · rw [afterStretch_timeout hs ht, timeout_frozen ha]
  · have hoff : timeoutEnabled (beforeStretch s) = false :=
      hframe.trans (by simp [timeoutEnabled, htout, hzero])
    rw [afterStretch_forever hs hoff]

/-! ### The steps without a stretch -/

/-- `complete()` waits for the last byte (R147, R149, R151). -/
theorem completeIfDone_more {s : State} (h : s.rem ≠ 0#16) : completeIfDone s = s := if_neg h

theorem completeIfDone_last {s : State} (h : s.rem = 0#16) :
    completeIfDone s = { s with rem := 0#16, eng := .idle, done := true, trace := s.trace ++ [.stop] } := by
  rw [completeIfDone, if_pos h, ← h]
  rfl

theorem txAcked_more {s : State} (h : s.rem ≠ 1#16) : txAcked s = { s with rem := s.rem - 1#16 } :=
  completeIfDone_more fun h0 => h ((sub_one_eq_zero_iff _).1 h0)

theorem txAcked_last {s : State} (h : s.rem = 1#16) :
    txAcked s = { s with rem := 0#16, eng := .idle, done := true, trace := s.trace ++ [.stop] } :=
  completeIfDone_last ((sub_one_eq_zero_iff _).2 h)

/-- Settles O33: `addrStep` with either acknowledgement. -/
theorem addressStep : Obligations.AddressStep := by
  intro d s he hs
  rw [phaseStep_addr d he, addrStep, afterStretch_none hs]
  refine ⟨fun ha => ?_, fun ha => ?_⟩
  · simp [State.emit, acknowledge, ha]
  · simp [State.emit, acknowledge, ha, nackEnd]

/-- Settles O34: `txStep` with either acknowledgement, on the last byte and on another. -/
theorem transmitStep : Obligations.TransmitStep := by
  intro d s b rest he hx hf hs
  rw [phaseStep_tx d he hx, txStep_cons d hf, afterStretch_none hs]
  refine ⟨fun ha hr => ?_, fun ha hr => ?_, fun ha => ?_⟩
  · simp [State.emit, acknowledge, ha, txAcked_more, hr]
  · simp [State.emit, acknowledge, ha, txAcked_last, hr]
  · simp [State.emit, acknowledge, ha, nackEnd]

/-- The byte is received into the FIFO, or with the commit lag into the stage (R149). -/
theorem receive_eq (v : Byte) (s : State) :
    receive v s = { s with
      fifo := if s.cfg.rxCommitLag = .none then s.fifo ++ [v] else s.fifo
      rxStage := if s.cfg.rxCommitLag = .none then s.rxStage else some v } := by
  unfold receive
  cases h : s.cfg.rxCommitLag <;> simp

/-- Settles O35: `receive` and the count of what is left; and RXC by whether the FIFO has room. -/
theorem receiveAndCommitSteps : Obligations.ReceiveAndCommitSteps := by
  refine ⟨fun d s he hx hs => ?_, fun d s v hv => ⟨fun hroom => ?_, fun hfull => ?_⟩⟩
  · rw [phaseStep_rx d he hx, rxStep, afterStretch_none hs]
    dsimp only
    rw [receive_eq]
    refine ⟨fun hr => ?_, fun hr => ?_⟩
    · have hrem : s.rem - 1#16 ≠ 0#16 := fun h0 => hr ((sub_one_eq_zero_iff _).1 h0)
      rw [completeIfDone_more hrem, if_neg hr]
      rfl
    · have hrem : s.rem - 1#16 = 0#16 := (sub_one_eq_zero_iff _).2 hr
      rw [completeIfDone_last hrem, if_pos hr, List.append_cons s.trace]
      rfl
  · simp [commitStep, hv, appended_of_room d v hroom]
  · obtain ⟨k, hk, he⟩ := appended_of_full d v (Nat.not_lt.2 hfull)
    exact ⟨k, hk, by simp [commitStep, hv, he]⟩

end Sys2Proof.Machine
end

section
/-! SUPPORT. What lasts of a transfer's end (R157, R158): a frozen Engine stays frozen, and only writes of S clear the status flags. -/

namespace Sys2Proof.Machine

/-! ### Stalled (R158) -/

/-- Every move of the Engine starts at the address or among the bytes. -/
theorem EngineMove.active {s t : State} (h : EngineMove s t) : s.eng = .addr ∨ s.eng = .data := by
  cases h with
  | abandoned u _ _ hu | frozen u hu | endless u hu =>
    rcases hu with ⟨he, -⟩ | ⟨he, -⟩ | ⟨he, -⟩
    · exact .inl he
    · exact .inr he
    · exact .inr he
  | addrAck he | addrNack he => exact .inl he
  | txMore he | txLast he | txNack he | rxMore he | rxLast he => exact .inr he

/-- The register accesses that touch the Engine need it idle. -/
theorem RegEffect.keeps_stalled {s t : State} (h : s.eng = .stalled) (hr : RegEffect s t) : t.eng = .stalled := by
  cases hr with
  | none | pop | push | status => exact h
  | config he | control he | start he => simp [h] at he

theorem step_keeps_stalled {s t : State} (h : s.eng = .stalled) (hs : step s = .next t) : t.eng = .stalled :=
  step_keeps (fun s => s.eng = .stalled) (fun _ _ h => h) (fun _ _ _ h => h)
    (fun _ _ h ⟨_, _, _, _, _, _, ht, _⟩ => ht ▸ h) (fun _ _ => RegEffect.keeps_stalled)
    (fun s _ h hm => absurd hm.active (by simp [h])) (fun _ _ _ h _ => h) h hs

/-- Settles O37: no move starts in Stalled or touches it, and WR_C faults on an active Engine. -/
theorem stalledStaysStalled : Obligations.StalledStaysStalled := by
  refine ⟨fun s t => step_keeps_stalled, fun s data hready he hd => ?_⟩
  obtain ⟨hrun, hmap⟩ := hready
  have hactive : s.eng ≠ .idle := by simp [he]
  have hexec : exec (.wrC 0#2 data) s = .next (endWrite (memWrite Reg.C.offset data s)) :=
    exec_write_aligned .C data hrun
  rw [hexec, memWrite_active .C hmap hd rfl hactive, endWrite, raise_of_running hrun]
  rfl

/-! ### The status flags (R157) -/

/-- Each of DONE, ERR and CLKT that is set in `s` is set in `t`. -/
def FlagsKept (s t : State) : Prop :=
  (s.done = true → t.done = true) ∧ (s.err = true → t.err = true) ∧ (s.clkt = true → t.clkt = true)

theorem FlagsKept.of_eq {s t : State} (hd : t.done = s.done) (he : t.err = s.err) (hc : t.clkt = s.clkt) :
    FlagsKept s t :=
  ⟨hd.trans, he.trans, hc.trans⟩

theorem FlagsKept.refl (s : State) : FlagsKept s s := .of_eq rfl rfl rfl

theorem FlagsKept.trans {s t u : State} (h : FlagsKept s t) (h' : FlagsKept t u) : FlagsKept s u :=
  let ⟨hd, he, hc⟩ := h
  let ⟨hd', he', hc'⟩ := h'
  ⟨hd' ∘ hd, he' ∘ he, hc' ∘ hc⟩

/-- A flag that was set and is no longer is not kept. -/
theorem not_flagsKept {s t : State} (h : (s.done = true ∧ t.done = false) ∨ (s.err = true ∧ t.err = false) ∨
    (s.clkt = true ∧ t.clkt = false)) : ¬ FlagsKept s t := by
  rintro ⟨hd, he, hc⟩
  rcases h with ⟨h, h'⟩ | ⟨h, h'⟩ | ⟨h, h'⟩
  · simp [hd h] at h'
  · simp [he h] at h'
  · simp [hc h] at h'

/-! ### The Engine's steps set flags and clear none -/

theorem emit_flagsKept (e : BusEvent) (s : State) : FlagsKept s (s.emit e) := .of_eq rfl rfl rfl

theorem timeout_flagsKept (d : Draws) (s : State) : FlagsKept s (timeout d s) := by
  cases ha : d.abandon with
  | true =>
    rw [timeout_abandoned ha]
    exact ⟨fun h => by simp [h], id, fun _ => rfl⟩
  | false =>
    rw [timeout_frozen ha]
    exact ⟨id, id, fun _ => rfl⟩

theorem nackEnd_flagsKept (d : Draws) (s : State) : FlagsKept s (nackEnd d s) :=
  ⟨fun h => by simp [nackEnd, h], fun _ => rfl, id⟩

theorem completeIfDone_flagsKept (s : State) : FlagsKept s (completeIfDone s) := by
  unfold completeIfDone
  split
  · exact ⟨fun _ => rfl, id, id⟩
  · exact .refl s

theorem txAcked_flagsKept (s : State) : FlagsKept s (txAcked s) :=
  completeIfDone_flagsKept { s with rem := s.rem - 1#16 }

theorem afterStretch_flagsKept (d : Draws) (s : State) {k : State → State} (hk : FlagsKept s (k s)) :
    FlagsKept s (afterStretch d s k) := by
  unfold afterStretch
  split
  · exact timeout_flagsKept d s
  · exact .of_eq rfl rfl rfl
  · exact hk

theorem addrStep_flagsKept (d : Draws) (s : State) : FlagsKept s (addrStep d s) := by
  refine FlagsKept.trans (emit_flagsKept .start s) (afterStretch_flagsKept d _ ?_)
  dsimp only
  split
  · exact .of_eq rfl rfl rfl
  · exact (emit_flagsKept _ _).trans (nackEnd_flagsKept d _)

theorem txStep_flagsKept (d : Draws) (s : State) : FlagsKept s (txStep d s) := by
  unfold txStep
  split
  · exact .refl s
  · next b rest _ =>
    refine FlagsKept.trans (t := { s with fifo := rest }) (.of_eq rfl rfl rfl) (afterStretch_flagsKept d _ ?_)
    dsimp only
    split
    · exact (emit_flagsKept _ _).trans (txAcked_flagsKept _)
    · exact (emit_flagsKept _ _).trans (nackEnd_flagsKept d _)

theorem rxStep_flagsKept (d : Draws) (s : State) : FlagsKept s (rxStep d s) := by
  refine afterStretch_flagsKept d s (FlagsKept.trans ?_ (completeIfDone_flagsKept _))
  rw [receive_eq]
  exact .of_eq rfl rfl rfl

theorem phaseStep_flagsKept (d : Draws) (s : State) : FlagsKept s (phaseStep d s) := by
  unfold phaseStep
  split
  · exact .refl s
  · exact .refl s
  · exact addrStep_flagsKept d s
  · split
    · exact rxStep_flagsKept d s
    · exact txStep_flagsKept d s

theorem commitStep_flagsKept (d : Draws) (s : State) : FlagsKept s (commitStep d s) := by
  unfold commitStep
  split <;> exact .of_eq rfl rfl rfl

/-! ### Of the host's steps only writes of S clear flags -/

theorem HostSide.flagsKept {s t : State} (h : HostSide s t) : FlagsKept s t := by
  obtain ⟨m, p, f, r, c, v, rfl, -⟩ := h
  exact .of_eq rfl rfl rfl

theorem cleared_flagsKept (data : Word) (s : State) : FlagsKept s (cleared data (storeControl data s)) := by
  obtain ⟨f, g, hc⟩ := cleared_eq_with data (storeControl data s)
  rw [hc]
  exact .of_eq rfl rfl rfl

/-- A stopped access clears no flag, a refused write of S among them. -/
theorem StopOf.flagsKept {s t : State} (h : StopOf s t) : FlagsKept s t := by
  obtain ⟨u, ⟨_, _, _, _, _, _, _, rfl⟩, ⟨f, -, rfl⟩ | ⟨r, rfl⟩⟩ := h.control <;> exact .of_eq rfl rfl rfl

theorem readReg_flagsKept {r : Reg} {d : Draws} {s t : State} {v : Word} (h : readReg r d s = .ok v t) :
    FlagsKept s t := by
  cases r with
  | FIFO =>
    simp only [readReg, popFifo] at h
    split at h
    · cases h
    · split at h <;> cases h <;> exact .of_eq rfl rfl rfl
  | _ =>
    cases h
    exact .refl s

theorem writeControl_flagsKept {data : Word} {s t : State} {v : Unit} (h : writeControl data s = .ok v t) :
    FlagsKept s t := by
  have h : (if data.getLsbD 7 then startTransfer data (cleared data (storeControl data s))
      else .ok () (cleared data (storeControl data s))) = .ok v t := h
  refine (cleared_flagsKept data s).trans ?_
  split at h
  · unfold startTransfer at h
    split at h
    · cases h
    · split at h
      · cases h
      · split at h <;> cases h
        exact .of_eq rfl rfl rfl
  · cases h
    exact .refl _

theorem writeReg_flagsKept {r : Reg} {data : Word} {s t : State} {v : Unit} (hr : r ≠ .S)
    (h : writeReg r data s = .ok v t) : FlagsKept s t := by
  cases r with
  | C => exact writeControl_flagsKept h
  | S => exact absurd rfl hr
  | FIFO =>
    simp only [writeReg, pushFifo] at h
    split at h
    · cases h
    · split at h <;> cases h <;> exact .of_eq rfl rfl rfl
  | _ =>
    cases h
    exact .of_eq rfl rfl rfl

theorem memRead_flagsKept (off : Nat) (d : Draws) (s : State) : FlagsKept s (memRead off d s).state := by
  cases hq : memRead off d s with
  | ok v t => exact readReg_flagsKept (memRead_ok hq).2
  | stop t =>
    obtain ⟨f, -, rfl⟩ := memRead_stop hq
    exact (HostSide.raise f s).flagsKept

/-- Of the offsets that pass the checks of R100 only 4 is that of S. -/
theorem regAt_ne_status {off : Nat} {s : State} (hf : accessFault off s = none) (hoff : off ≠ 0x04) :
    regAt off ≠ .S := by
  have hle : off ≤ 0x1C ∧ off % 4 = 0 := by
    unfold accessFault at hf
    split at hf
    · cases hf
    · split at hf
      · cases hf
      · split at hf
        · cases hf
        · omega
  intro hr
  obtain ⟨k, rfl⟩ : ∃ k, off = 4 * k := ⟨off / 4, by omega⟩
  have hk : k < 8 := by omega
  interval_cases k <;> simp [regAt, Reg.ofIndex] at hr hoff

theorem memWrite_flagsKept {off : Nat} (data : Word) (s : State) (hoff : off ≠ 0x04) :
    FlagsKept s (memWrite off data s).state := by
  have hsound := memWrite_sound off data s
  cases hq : memWrite off data s with
  | ok v t =>
    obtain ⟨hf, -, -, hw⟩ := memWrite_ok hq
    exact writeReg_flagsKept (regAt_ne_status hf hoff) hw
  | stop t =>
    rw [hq] at hsound
    exact StopOf.flagsKept hsound

theorem AccessStep.flagsKept {W : Prop} {s u : State} (h : AccessStep W s u) (hW : ¬ W) : FlagsKept s u := by
  cases h with
  | read off h => exact (memRead_flagsKept off s.free s).trans h.1.flagsKept
  | write off data hS h => exact (memWrite_flagsKept data s fun hoff => hW (hS hoff)).trans h.1.flagsKept
  | host h => exact h.1.flagsKept

/-- The transaction that runs stands at "clear stale status flags". -/
def ClearsStatus (s : State) : Prop := ∃ x, s.call = some (.txn x) ∧ (x.pos = .wStat ∨ x.pos = .rStat)

theorem txnStep_flagsKept {t : Txn} {s : State} (h : ¬ (t.pos = .wStat ∨ t.pos = .rStat)) :
    FlagsKept s (txnStep t s).state := by
  rcases txnStep_access t s with ha | ⟨-, -, ha⟩
  · exact ha.flagsKept h
  · rw [ha]
    exact (HostSide.raise _ s).flagsKept

theorem advance_flagsKept {new : Txn} {s : State} (hnew : OpensTxn new) (h : ¬ ClearsStatus s) :
    FlagsKept s (advance new s).state := by
  unfold advance
  split
  · next t hc => exact txnStep_flagsKept fun hp => h ⟨t, hc, hp⟩
  · split
    · exact (HostSide.raise _ s).flagsKept
    · refine txnStep_flagsKept ?_
      rcases hnew with ⟨_, _, rfl⟩ | ⟨_, rfl⟩ <;> simp [writeTxn, readTxn]

theorem TransactionStep.flagsKept {s u : State} (h : TransactionStep s u) (hc : ¬ ClearsStatus s) : FlagsKept s u := by
  rcases h with ⟨r, rfl⟩ | ⟨new, hnew, ha⟩ | ⟨new, hnew, r, rfl⟩ | ⟨new, hnew, n, -, -, rfl⟩
  · exact (HostSide.ret r s).flagsKept
  · have hkept := advance_flagsKept hnew hc
    rwa [ha] at hkept
  · exact advance_flagsKept hnew hc
  · exact advance_flagsKept hnew hc

/-- Settles O38: the Engine's steps one by one, and of the host's register accesses those at offset 4. -/
theorem onlyStatusWritesClearFlags : Obligations.OnlyStatusWritesClearFlags := by
  refine ⟨fun d s => ?_, fun i s t he hlost => ?_⟩
  · obtain ⟨hd, herr, hc⟩ := phaseStep_flagsKept d s
    obtain ⟨hd', herr', hc'⟩ := commitStep_flagsKept d s
    exact ⟨fun h => ⟨hd h, hd' h⟩, fun h => ⟨herr h, herr' h⟩, fun h => ⟨hc h, hc' h⟩⟩
  · have hnot := not_flagsKept hlost
    cases hi : isTransaction i with
    | false =>
      have hW : WritesStatus i s := by_contra fun hW => hnot ((exec_access hi he).flagsKept hW)
      rcases hW with hwrite | hmasked
      · exact .inl hwrite
      · exact .inr (.inr hmasked)
    | true =>
      have hC : ClearsStatus s := by_contra fun hC => hnot ((exec_transactionStep hi he).flagsKept hC)
      exact .inr (.inl ⟨rfl, hC⟩)

end Sys2Proof.Machine
end

section
/-! SUPPORT. Host steps in a row, and those of WRITE's ARM: one equation for each position (R212). -/

namespace Sys2Proof.Machine

/-! ### Steps in a row -/

theorem execN_cons {i : Instr} {s t : State} (h : exec i s = .next t) (n : Nat) : execN (n + 1) i s = execN n i t := by
  simp [execN, h]

theorem execN_add {m : Nat} {i : Instr} {s t : State} (h : execN m i s = .next t) (n : Nat) :
    execN (m + n) i s = execN n i t := by
  induction m generalizing s with
  | zero =>
    cases h
    rw [Nat.zero_add]
  | succ m ih =>
    rw [Nat.succ_add]
    unfold execN at h
    split at h
    · next u hu => rw [execN_cons hu, ih h]
    · cases h
    · cases h

/-- Where the transaction goes on, the host step leaves its next descriptor. -/
theorem exec_write_goes_on {buffer : List Byte} {length : Nat} {s u : State} {x y : Txn} (hrun : s.running = true)
    (hcall : s.call = some (.txn x)) (hstep : txnStep x s = goOn y u) :
    exec (.write buffer length) s = .next { u with call := some (.txn y) } := by
  rw [exec_write_of_call buffer length hrun hcall, hstep]
  rfl

theorem exec_read_goes_on {length : Nat} {s u : State} {x y : Txn} (hrun : s.running = true)
    (hcall : s.call = some (.txn x)) (hstep : txnStep x s = goOn y u) :
    exec (.read length) s = .next { u with call := some (.txn y) } := by
  rw [exec_read_of_call length hrun hcall, hstep]
  rfl

/-! ### WRITE, ARM (R212) -/

/-- A WRITE within its contract opens with its first request (R211, R293). -/
theorem exec_write_opens {buffer : List Byte} {length : Nat} {s : State} (hrun : s.running = true)
    (hcall : s.call = none) (hpos : 0 < length) (hdepth : length ≤ s.cfg.fifoDepth) (hbuf : length ≤ buffer.length) :
    exec (.write buffer length) s = .next (endTxn (txnStep (writeTxn buffer length) s)) := by
  have hv : (writeTxn buffer length).violates s = false := by
    simp [Txn.violates, writeTxn, hdepth, hbuf, hpos.ne']
  simp [exec, execWrite, whenRunning_of_running hrun, advance, hcall, hv]

/-- A WRITE's descriptor at a position. -/
def writeAt (buffer : List Byte) (length : Nat) (p : TxnPos) : Txn := { writeTxn buffer length with pos := p }

/-- Where ARM stands after `k` pushes. -/
def pushPos (length k : Nat) : TxnPos := if k < length then .wPush k else .wLen

/-- The state after `k` pushes of ARM. -/
def pushed (buffer : List Byte) (length k : Nat) (s : State) : State :=
  { s with fifo := buffer.take k, call := some (.txn (writeAt buffer length (pushPos length k))) }

/-- What "clear controller state" leaves of the controls and the stage. -/
def controlCleared (s : State) : State :=
  { s with cI2cen := false, cIntr := false, cIntt := false, cIntd := false, cRead := false, rxStage := none }

theorem exec_write_clear {buffer : List Byte} {length : Nat} {s : State} (hs : Configurable s) (hcall : s.call = none)
    (hpos : 0 < length) (hdepth : length ≤ s.cfg.fifoDepth) (hbuf : length ≤ buffer.length) :
    exec (.write buffer length) s = .next (pushed buffer length 0 (controlCleared s)) := by
  obtain ⟨⟨hrun, hmap⟩, he⟩ := hs
  have hstep : txnStep (writeTxn buffer length) s = goOn (writeAt buffer length (pushPos length 0))
      { controlCleared s with fifo := [] } := by
    rw [pushPos, if_pos hpos]
    exact txnWrite_clearFifo hmap he _
  rw [exec_write_opens hrun hcall hpos hdepth hbuf, hstep]
  rfl

theorem exec_write_push {buffer : List Byte} {length k : Nat} {s : State} (hs : Configurable s) (hk : k < length)
    (hdepth : length ≤ s.cfg.fifoDepth) (hbuf : length ≤ buffer.length) :
    exec (.write buffer length) (pushed buffer length k s) = .next (pushed buffer length (k + 1) s) := by
  obtain ⟨⟨hrun, hmap⟩, he⟩ := hs
  have hroom : (pushed buffer length k s).fifo.length < s.cfg.fifoDepth := by
    rw [pushed, List.length_take]
    omega
  have hstep : txnStep (writeAt buffer length (pushPos length k)) (pushed buffer length k s) =
      goOn (writeAt buffer length (pushPos length (k + 1)))
        { pushed buffer length k s with fifo := buffer.take k ++ [buffer.getD k 0#8] } := by
    rw [pushPos, if_pos hk]
    exact txnWrite_push (s := pushed buffer length k s) _ hmap he hroom _
  have htake : buffer.take (k + 1) = buffer.take k ++ [buffer.getD k 0#8] := by
    have hlt : k < buffer.length := by omega
    rw [List.take_succ_eq_append_getElem hlt, List.getD_eq_getElem _ _ hlt]
  rw [exec_write_goes_on (s := pushed buffer length k s) hrun rfl hstep, ← htake]
  rfl

theorem execN_write_push {buffer : List Byte} {length : Nat} {s : State} (hs : Configurable s)
    (hdepth : length ≤ s.cfg.fifoDepth) (hbuf : length ≤ buffer.length) :
    ∀ k, k ≤ length → execN k (.write buffer length) (pushed buffer length 0 s) = .next (pushed buffer length k s) := by
  intro k hk
  induction k with
  | zero => rfl
  | succ k ih =>
    rw [execN_add (ih (by omega)) 1, execN_cons (exec_write_push hs hk hdepth hbuf)]
    rfl

theorem exec_write_len {buffer : List Byte} {length : Nat} {s : State} (hs : Configurable s) (hlen : length ≤ 0xFFFF)
    (hcall : s.call = some (.txn (writeAt buffer length .wLen))) :
    exec (.write buffer length) s = .next { s with
      dlenW := BitVec.ofNat 16 length, call := some (.txn (writeAt buffer length .wStat)) } :=
  let ⟨⟨hrun, hmap⟩, he⟩ := hs
  exec_write_goes_on hrun hcall (txnWrite_length hmap he hlen _)

theorem exec_write_stat {buffer : List Byte} {length : Nat} {s : State} (hs : Configurable s)
    (hcall : s.call = some (.txn (writeAt buffer length .wStat))) :
    exec (.write buffer length) s = .next { s with
      clkt := false, err := false, done := false, call := some (.txn (writeAt buffer length .wStart)) } :=
  let ⟨⟨hrun, hmap⟩, he⟩ := hs
  exec_write_goes_on hrun hcall (txnWrite_clearStatus hmap he _)

theorem exec_write_start {buffer : List Byte} {length : Nat} {s : State} (hs : Configurable s)
    (hpins : s.pinsRouted = true) (hlen : s.dlenW ≠ 0#16)
    (hcall : s.call = some (.txn (writeAt buffer length .wStart))) :
    exec (.write buffer length) s = .next { s with
      cI2cen := true, cIntr := false, cIntt := false, cIntd := false, cRead := false
      eng := .addr, rem := s.dlenW, xRead := false, xAddr := s.aAddr
      call := some (.txn (writeAt buffer length .wPoll)) } :=
  let ⟨⟨hrun, hmap⟩, he⟩ := hs
  exec_write_goes_on hrun hcall (txnWrite_startWrite hmap he hpins hlen _)

/-- With the lines not routed the start stores its control bits and stops (R142). -/
theorem txnWrite_startWrite_notRouted {s : State} (hs : Configurable s) (hpins : s.pinsRouted = false)
    (hlen : s.dlenW ≠ 0#16) (t : Txn) :
    txnWrite 0x00 0x00008080#32 t s = .more { s with
      cI2cen := true, cIntr := false, cIntt := false, cIntd := false, cRead := false, faults := [.busNotRouted] } := by
  obtain ⟨⟨hrun, hmap⟩, he⟩ := hs
  have hstart : writeReg .C 0x00008080#32 s = .stop ((storeControl 0x00008080#32 s).raise .busNotRouted) :=
    startTransfer_notRouted (s := storeControl 0x00008080#32 s) 0x00008080#32 rfl hlen hpins
  rw [show (0x00 : Nat) = Reg.C.offset from rfl, txnWrite_register .C hmap he (by decide), hstart]
  exact congrArg TxnOut.more (raise_of_running (s := storeControl 0x00008080#32 s) hrun _)

theorem exec_write_start_notRouted {buffer : List Byte} {length : Nat} {s : State} (hs : Configurable s)
    (hpins : s.pinsRouted = false) (hlen : s.dlenW ≠ 0#16)
    (hcall : s.call = some (.txn (writeAt buffer length .wStart))) :
    exec (.write buffer length) s = .next { s with
      cI2cen := true, cIntr := false, cIntt := false, cIntd := false, cRead := false, faults := [.busNotRouted] } := by
  have hstep : txnStep (writeAt buffer length .wStart) s = .more { s with
      cI2cen := true, cIntr := false, cIntt := false, cIntd := false, cRead := false, faults := [.busNotRouted] } :=
    txnWrite_startWrite_notRouted hs hpins hlen _
  obtain ⟨⟨hrun, -⟩, -⟩ := hs
  rw [exec_write_of_call buffer length hrun hcall, hstep]
  rfl

/-- ARM up to its start: the state in which the last of its host steps is taken. -/
theorem execN_write_before_start {s : State} {buffer : List Byte} {length : Nat} (hs : Configurable s)
    (hcall : s.call = none) (hpos : 0 < length) (hdepth : length ≤ s.cfg.fifoDepth) (hbuf : length ≤ buffer.length)
    (hlen : length ≤ 0xFFFF) :
    execN (length + 3) (.write buffer length) s = .next { controlCleared s with
      done := false, err := false, clkt := false, dlenW := BitVec.ofNat 16 length, fifo := buffer.take length
      call := some (.txn (writeAt buffer length .wStart)) } := by
  have hs' : Configurable (controlCleared s) := hs
  have hp : pushPos length length = .wLen := if_neg (Nat.lt_irrefl _)
  have hpush := execN_write_push hs' hdepth hbuf length (Nat.le_refl _)
  rw [execN_cons (exec_write_clear hs hcall hpos hdepth hbuf), execN_add hpush]
  rw [execN_cons (exec_write_len (s := pushed buffer length length (controlCleared s)) hs hlen (by rw [pushed, hp]))]
  refine execN_cons (exec_write_stat ?_ rfl) 0
  exact hs

/-- Settles O48: ARM up to its start, and the start with the lines routed and not routed. -/
theorem writeArms : Obligations.WriteArms := by
  intro s buffer length hs hcall hpos hdepth hbuf hlen descriptor armed
  have hne : BitVec.ofNat 16 length ≠ 0#16 := length_ne_zero hpos hlen
  have hbefore := execN_add (execN_write_before_start hs hcall hpos hdepth hbuf hlen) 1
  refine ⟨fun hpins => ?_, fun hpins => ?_⟩
  · rw [hbefore]
    refine execN_cons (exec_write_start ?_ ?_ ?_ rfl) 0
    · exact hs
    · exact hpins
    · exact hne
  · rw [hbefore]
    refine execN_cons (exec_write_start_notRouted ?_ ?_ ?_ rfl) 0
    · exact hs
    · exact hpins
    · exact hne

end Sys2Proof.Machine
end

section
/-! SUPPORT. The eager schedule (95_test_vectors.md): the Engine's steps in a row on an acknowledging Target, and a WRITE and a READ from ARM to their return. -/

namespace Sys2Proof.Machine

/-! ### The Engine's steps in a row -/

/-- RXC, if a byte is staged. -/
def commitIfStaged (d : Draws) (s : State) : State := if commitEnabled s then commitStep d s else s

theorem engineRun_cons (d : Draws) (ds : List Draws) (s : State) :
    engineRun (d :: ds) s = engineRun ds (commitIfStaged d (phaseStep d s)) := rfl

theorem commitIfStaged_of_none (d : Draws) {s : State} (h : s.rxStage = none) : commitIfStaged d s = s := by
  simp [commitIfStaged, commitEnabled, h]

/-- A step that stages no byte is followed by no RXC. -/
theorem engineRun_cons_of_none {d : Draws} {s t : State} (ds : List Draws) (hstep : phaseStep d s = t)
    (hst : t.rxStage = none) : engineRun (d :: ds) s = engineRun ds t := by
  rw [engineRun_cons, hstep, commitIfStaged_of_none d hst]

/-- The address phase, acknowledged. -/
theorem engineRun_address {d : Draws} {s : State} (ds : List Draws) (he : s.eng = .addr) (hst : s.rxStage = none)
    (hack : d.ack = true) (hstr : d.stretch = false) :
    engineRun (d :: ds) s = engineRun ds { s with
      eng := .data, trace := s.trace ++ [.start, .addrByte s.xAddr s.xRead .ack] } :=
  engineRun_cons_of_none ds ((addressStep d s he hstr).1 hack) hst

/-- A count of at least two is not 1, and one less is left. -/
theorem count_of_two {n : Nat} (h : n + 2 ≤ 0xFFFF) :
    BitVec.ofNat 16 (n + 2) ≠ 1#16 ∧ BitVec.ofNat 16 (n + 2) - 1#16 = BitVec.ofNat 16 (n + 1) := by
  constructor <;> bv_omega

/-- A write transfer in the phase `p` with exactly the bytes `bs` to send. -/
def Transmits (p : Phase) (bs : List Byte) (s : State) : Prop :=
  s.eng = p ∧ s.xRead = false ∧ s.rxStage = none ∧ s.fifo = bs ∧ s.rem = BitVec.ofNat 16 bs.length

/-- Each byte is acknowledged, and the last one completes the transfer. -/
theorem engineRun_transmits {bs : List Byte} {ds : List Draws} {s : State} (h : Transmits .data bs s) (hne : bs ≠ [])
    (hle : bs.length ≤ 0xFFFF) (hlen : ds.length = bs.length) (hd : ∀ d, d ∈ ds → d.ack = true ∧ d.stretch = false) :
    engineRun ds s = { s with
      fifo := [], rem := 0#16, eng := .idle, done := true
      trace := s.trace ++ bs.map (fun b => .txByte b .ack) ++ [.stop] } := by
  induction ds generalizing bs s with
  | nil => exact absurd (List.length_eq_zero_iff.1 hlen.symm) hne
  | cons d ds ih =>
    obtain ⟨he, hx, hst, hf, hrem⟩ := h
    obtain ⟨hack, hstr⟩ := hd d List.mem_cons_self
    cases bs with
    | nil => exact absurd rfl hne
    | cons b rest =>
      obtain ⟨hmore, hlast, -⟩ := transmitStep d s b rest he hx hf hstr
      cases rest with
      | nil =>
        obtain rfl : ds = [] := List.length_eq_zero_iff.1 (Nat.succ.inj hlen)
        rw [engineRun_cons_of_none [] (hlast hack hrem) hst, engineRun]
        simp
      | cons c rest =>
        obtain ⟨hne1, hsub⟩ := count_of_two hle
        have hlen' : ds.length = (c :: rest).length := Nat.succ.inj hlen
        rw [engineRun_cons_of_none ds (hmore hack (hrem ▸ hne1)) hst]
        refine (ih (bs := c :: rest) ?_ (List.cons_ne_nil _ _) (Nat.le_of_succ_le hle) hlen'
          fun d' hd' => hd d' (List.mem_cons_of_mem d hd')).trans ?_
        · exact ⟨he, hx, hst, rfl, (congrArg (· - 1#16) hrem).trans hsub⟩
        · simp

/-- What a write transfer with every byte of `bs` acknowledged leaves of the state it starts in. -/
def sent (bs : List Byte) (s : State) : State :=
  { s with
    fifo := [], rem := 0#16, eng := .idle, done := true
    trace := s.trace ++ [.start, .addrByte s.xAddr s.xRead .ack] ++ bs.map (fun b => .txByte b .ack) ++ [.stop] }

/-- A write transfer from its address on. -/
theorem engineRun_write {bs : List Byte} {d : Draws} {ds : List Draws} {s : State} (h : Transmits .addr bs s)
    (hne : bs ≠ []) (hle : bs.length ≤ 0xFFFF) (hlen : ds.length = bs.length)
    (hd : ∀ d', d' ∈ d :: ds → d'.ack = true ∧ d'.stretch = false) :
    engineRun (d :: ds) s = sent bs s := by
  obtain ⟨he, hx, hst, hf, hrem⟩ := h
  obtain ⟨hack, hstr⟩ := hd d List.mem_cons_self
  rw [engineRun_address ds he hst hack hstr]
  exact engineRun_transmits ⟨rfl, hx, hst, hf, hrem⟩ hne hle hlen fun d' hd' => hd d' (List.mem_cons_of_mem d hd')

/-- RXC moves the byte just received to the FIFO, or with no lag it is there (R149, R150). -/
theorem commitIfStaged_received (d : Draws) (v : Byte) {s : State} (hst : s.rxStage = none) (he : s.eng ≠ .stalled)
    (hroom : s.fifo.length < s.cfg.fifoDepth) :
    commitIfStaged d { s with
      fifo := if s.cfg.rxCommitLag = .none then s.fifo ++ [v] else s.fifo
      rxStage := if s.cfg.rxCommitLag = .none then s.rxStage else some v } =
      { s with fifo := s.fifo ++ [v] } := by
  cases hlag : s.cfg.rxCommitLag with
  | none => exact commitIfStaged_of_none d (s := { s with fifo := s.fifo ++ [v] }) hst
  | allowed => simp [commitIfStaged, commitEnabled, commitStep, appended, he, hroom, hst]

/-- A read transfer in the phase `p` with `n` bytes to come. -/
def Receives (p : Phase) (n : Nat) (s : State) : Prop :=
  s.eng = p ∧ s.xRead = true ∧ s.rxStage = none ∧ s.rem = BitVec.ofNat 16 n

/-- The events of the bytes received: all but the last acknowledged (R160). -/
def readEvents (ds : List Draws) : List BusEvent :=
  ds.dropLast.map (fun d => .rxByte d.byte .ack) ++ (ds.getLast?.toList).map fun d => .rxByte d.byte .nack

/-- Each byte goes to the FIFO, and the last one completes the transfer. -/
theorem engineRun_receives {ds : List Draws} {s : State} (h : Receives .data ds.length s) (hne : ds ≠ [])
    (hle : ds.length ≤ 0xFFFF) (hroom : s.fifo.length + ds.length ≤ s.cfg.fifoDepth)
    (hd : ∀ d, d ∈ ds → d.stretch = false) :
    engineRun ds s = { s with
      fifo := s.fifo ++ ds.map Draws.byte, rem := 0#16, eng := .idle, done := true
      trace := s.trace ++ readEvents ds ++ [.stop] } := by
  induction ds generalizing s with
  | nil => exact absurd rfl hne
  | cons d ds ih =>
    obtain ⟨he, hx, hst, hrem⟩ := h
    obtain ⟨hmore, hlast⟩ := receiveAndCommitSteps.1 d s he hx (hd d List.mem_cons_self)
    have hlt : s.fifo.length < s.cfg.fifoDepth := by
      rw [List.length_cons] at hroom
      omega
    rw [engineRun_cons]
    cases ds with
    | nil =>
      have hcommit := commitIfStaged_received d d.byte (s := { s with
        rem := 0#16, eng := .idle, done := true, trace := s.trace ++ [.rxByte d.byte .nack, .stop] }) hst nofun hlt
      rw [hlast hrem]
      refine hcommit.trans ?_
      simp [readEvents]
    | cons d' ds =>
      obtain ⟨hne1, hsub⟩ := count_of_two hle
      have hcommit := commitIfStaged_received d d.byte (s := { s with
        rem := s.rem - 1#16, trace := s.trace ++ [.rxByte d.byte .ack] }) hst (by simp [he]) hlt
      rw [hmore (hrem ▸ hne1)]
      refine (congrArg (engineRun (d' :: ds)) hcommit).trans ?_
      refine (ih ?_ (List.cons_ne_nil _ _) (Nat.le_of_succ_le hle) ?_
        fun d hm => hd d (List.mem_cons_of_mem _ hm)).trans ?_
      · exact ⟨he, hx, hst, (congrArg (· - 1#16) hrem).trans hsub⟩
      · simp only [List.length_append, List.length_cons, List.length_nil] at hroom ⊢
        omega
      · simp [readEvents]

/-- What a read transfer of the bytes of `ds` leaves of the state it starts in. -/
def received (ds : List Draws) (s : State) : State :=
  { s with
    fifo := s.fifo ++ ds.map Draws.byte, rem := 0#16, eng := .idle, done := true
    trace := s.trace ++ [.start, .addrByte s.xAddr s.xRead .ack] ++ readEvents ds ++ [.stop] }

/-- A read transfer from its address on. -/
theorem engineRun_read {d : Draws} {ds : List Draws} {s : State} (h : Receives .addr ds.length s) (hne : ds ≠ [])
    (hle : ds.length ≤ 0xFFFF) (hroom : s.fifo.length + ds.length ≤ s.cfg.fifoDepth)
    (hd : ∀ d', d' ∈ d :: ds → d'.ack = true ∧ d'.stretch = false) :
    engineRun (d :: ds) s = received ds s := by
  obtain ⟨he, hx, hst, hrem⟩ := h
  obtain ⟨hack, hstr⟩ := hd d List.mem_cons_self
  rw [engineRun_address ds he hst hack hstr]
  exact engineRun_receives ⟨rfl, hx, hst, hrem⟩ hne hle hroom fun d' hd' => (hd d' (List.mem_cons_of_mem d hd')).2

end Sys2Proof.Machine
end

section
/-! SUPPORT. A WRITE and a READ from ARM to their return, under the eager schedule, on a Target that acknowledges (R214, R219, R220). -/

namespace Sys2Proof.Machine

/-! ### WRITE -/

/-- A WRITE that polls a transfer completed without an error returns its length (R214, R223). -/
theorem exec_write_poll_done {buffer : List Byte} {length : Nat} {s : State} {x : Txn} (hready : Ready s)
    (hcall : s.call = some (.txn x)) (hp : x.pos = .wPoll) (herr : s.err = false) (hclkt : s.clkt = false)
    (hdone : s.done = true) : exec (.write buffer length) s = .next (s.retOk (.nat x.length)) := by
  obtain ⟨hrun, hmap⟩ := hready
  rw [exec_write_of_call buffer length hrun hcall, txnStep_wPoll hmap hp]
  simp [herr, hclkt, hdone, endTxn]

/-- The poll after a transfer that sent every byte. -/
theorem exec_write_poll_sent {buffer bs : List Byte} {length : Nat} {s : State} {x : Txn} {d : Draws} {ds : List Draws}
    (hready : Ready s) (hcall : s.call = some (.txn x)) (hp : x.pos = .wPoll) (herr : s.err = false)
    (hclkt : s.clkt = false) (h : Transmits .addr bs s) (hne : bs ≠ []) (hle : bs.length ≤ 0xFFFF)
    (hlen : ds.length = bs.length) (hd : ∀ d', d' ∈ d :: ds → d'.ack = true ∧ d'.stretch = false) :
    exec (.write buffer length) (engineRun (d :: ds) s) =
      .next ((sent bs s).retOk (.nat x.length)) := by
  rw [engineRun_write h hne hle hlen hd]
  exact exec_write_poll_done (s := sent bs s) hready hcall hp herr hclkt rfl

/-- Settles O54: ARM, then the address and one byte for each record of draws, then one poll. -/
theorem writeToAcknowledgingTarget : Obligations.WriteToAcknowledgingTarget := by
  intro s buffer length ds hs hpins hcall hpos hdepth hbuf hlen hds hack
  have ⟨hready, _⟩ := hs
  have harm := (writeArms s buffer length hs hcall hpos hdepth hbuf hlen).1 hpins
  obtain ⟨d, ds, rfl⟩ := List.exists_cons_of_length_eq_add_one hds
  have hbytes : (buffer.take length).length = length := List.length_take_of_le hbuf
  have hne : buffer.take length ≠ [] := List.ne_nil_of_length_pos (by rwa [hbytes])
  have hdraws : ds.length = (buffer.take length).length := (Nat.succ.inj hds).trans hbytes.symm
  refine ⟨_, _, harm, exec_write_poll_sent ?_ rfl rfl rfl rfl ⟨rfl, rfl, rfl, rfl, ?_⟩ hne (by rwa [hbytes]) hdraws hack,
    ⟨rfl, rfl⟩, rfl, rfl, rfl, rfl, rfl, rfl, faults_of_running hready.1⟩
  · exact hready
  · rw [hbytes]

/-! ### READ, ARM (R216) -/

/-- A READ within its contract opens with its first request (R215, R293). -/
theorem exec_read_opens {length : Nat} {s : State} (hrun : s.running = true) (hcall : s.call = none)
    (hpos : 0 < length) (hlen : length ≤ 0xFFFF) :
    exec (.read length) s = .next (endTxn (txnStep (readTxn length) s)) := by
  have hv : (readTxn length).violates s = false := by simp [Txn.violates, readTxn, hlen, hpos.ne']
  simp [exec, execRead, whenRunning_of_running hrun, advance, hcall, hv]

/-- A READ's descriptor at a position, before it has taken a byte. -/
def readAt (length : Nat) (p : TxnPos) : Txn := { readTxn length with pos := p }

theorem exec_read_len {length : Nat} {s : State} (hs : Configurable s) (hcall : s.call = none) (hpos : 0 < length)
    (hlen : length ≤ 0xFFFF) :
    exec (.read length) s = .next { s with
      dlenW := BitVec.ofNat 16 length, call := some (.txn (readAt length .rStat)) } := by
  obtain ⟨⟨hrun, hmap⟩, he⟩ := hs
  have hstep : txnStep (readTxn length) s = goOn (readAt length .rStat) { s with dlenW := BitVec.ofNat 16 length } :=
    txnWrite_length hmap he hlen _
  rw [exec_read_opens hrun hcall hpos hlen, hstep]
  rfl

theorem exec_read_stat {length : Nat} {s : State} (hs : Configurable s)
    (hcall : s.call = some (.txn (readAt length .rStat))) :
    exec (.read length) s = .next { s with
      clkt := false, err := false, done := false, call := some (.txn (readAt length .rStart)) } :=
  let ⟨⟨hrun, hmap⟩, he⟩ := hs
  exec_read_goes_on hrun hcall (txnWrite_clearStatus hmap he _)

theorem exec_read_start {length : Nat} {s : State} (hs : Configurable s) (hpins : s.pinsRouted = true)
    (hlen : s.dlenW ≠ 0#16) (hcall : s.call = some (.txn (readAt length .rStart))) :
    exec (.read length) s = .next { s with
      cI2cen := true, cIntr := false, cIntt := false, cIntd := false, cRead := true
      eng := .addr, rem := s.dlenW, xRead := true, xAddr := s.aAddr, fifo := [], rxStage := none
      call := some (.txn (readAt length .rLoop)) } :=
  let ⟨⟨hrun, hmap⟩, he⟩ := hs
  exec_read_goes_on hrun hcall (txnWrite_startRead hmap he hpins hlen _)

/-- READ's ARM up to its start. -/
theorem execN_read_before_start {length : Nat} {s : State} (hs : Configurable s) (hcall : s.call = none)
    (hpos : 0 < length) (hlen : length ≤ 0xFFFF) :
    execN 2 (.read length) s = .next { s with
      done := false, err := false, clkt := false, dlenW := BitVec.ofNat 16 length
      call := some (.txn (readAt length .rStart)) } := by
  rw [execN_cons (exec_read_len hs hcall hpos hlen)]
  refine execN_cons (exec_read_stat ?_ rfl) 0
  exact hs

/-- READ's ARM with the lines routed. -/
theorem execN_read_arms {length : Nat} {s : State} (hs : Configurable s) (hpins : s.pinsRouted = true)
    (hcall : s.call = none) (hpos : 0 < length) (hlen : length ≤ 0xFFFF) :
    execN 3 (.read length) s = .next { s with
      cI2cen := true, cIntr := false, cIntt := false, cIntd := false, cRead := true
      done := false, err := false, clkt := false, dlenW := BitVec.ofNat 16 length, fifo := [], rxStage := none
      eng := .addr, rem := BitVec.ofNat 16 length, xRead := true, xAddr := s.aAddr
      call := some (.txn (readAt length .rLoop)) } := by
  rw [execN_add (execN_read_before_start hs hcall hpos hlen) 1]
  refine execN_cons (exec_read_start ?_ ?_ ?_ rfl) 0
  · exact hs
  · exact hpins
  · exact length_ne_zero hpos hlen

/-! ### READ of a completed transfer (R217, R219, R220) -/

/-- The transfer has completed without an error, and the Engine is idle. -/
def Completed (s : State) : Prop := s.eng = .idle ∧ s.done = true ∧ s.err = false ∧ s.clkt = false

/-- What `take_one()` makes of the descriptor (R221). -/
def Txn.take (t : Txn) (b : Byte) : Txn := { t with buffer := t.buffer ++ [b], count := t.count + 1 }

theorem exec_read_loop {length : Nat} {s : State} {x : Txn} (hs : Ready s) (hcall : s.call = some (.txn x))
    (hp : x.pos = .rLoop) (hf : s.fifo ≠ []) :
    exec (.read length) s = .next { s with
      call := some (.txn { x with snap := readS s.free s, pos := .rTake }) } :=
  exec_read_goes_on hs.1 hcall (by rw [txnStep_rLoop hs.2 hp, if_pos hf])

/-- A byte taken after a snapshot of the completed transfer: the READ drains next (R217, R218). -/
theorem exec_read_take {length : Nat} {s u : State} {x : Txn} {d : Draws} {b : Byte} {rest : List Byte} (hs : Ready s)
    (hcall : s.call = some (.txn x)) (hp : x.pos = .rTake) (hsnap : x.snap = readS d u) (hu : Completed u)
    (he : s.eng = .idle) (hf : s.fifo = b :: rest) (hl : x.count < x.length) :
    exec (.read length) s = .next { s with fifo := rest, call := some (.txn { x.take b with pos := .rDrain }) } := by
  obtain ⟨-, hdone, herr, hclkt⟩ := hu
  have hstep : txnStep x s = goOn { x.take b with pos := .rDrain } { s with fifo := rest } := by
    simp only [txnStep, hp]
    rw [takeOne_eq hs.2 hf (.inl he) hl, testSnapshot]
    simp [hsnap, hdone, herr, hclkt, Txn.take]
  exact exec_read_goes_on hs.1 hcall hstep

theorem exec_read_drain {length : Nat} {s : State} {x : Txn} (hs : Ready s) (hcall : s.call = some (.txn x))
    (hp : x.pos = .rDrain) (hf : s.fifo ≠ []) :
    exec (.read length) s = .next { s with
      call := some (.txn { x with snap := readS s.free s, pos := .rDrainTake }) } :=
  exec_read_goes_on hs.1 hcall (by rw [txnStep_rDrain hs.2 hp, if_pos hf])

theorem exec_read_drain_take {length : Nat} {s : State} {x : Txn} {b : Byte} {rest : List Byte} (hs : Ready s)
    (hcall : s.call = some (.txn x)) (hp : x.pos = .rDrainTake) (he : s.eng = .idle) (hf : s.fifo = b :: rest)
    (hl : x.count < x.length) :
    exec (.read length) s = .next { s with fifo := rest, call := some (.txn { x.take b with pos := .rDrain }) } := by
  have hstep : txnStep x s = goOn { x.take b with pos := .rDrain } { s with fifo := rest } := by
    simp only [txnStep, hp]
    exact takeOne_eq hs.2 hf (.inl he) hl _
  exact exec_read_goes_on hs.1 hcall hstep

theorem exec_read_drained {length : Nat} {s : State} {x : Txn} (hs : Ready s) (hcall : s.call = some (.txn x))
    (hp : x.pos = .rDrain) (hf : s.fifo = []) :
    exec (.read length) s = .next (s.retOk (.bytes x.count x.buffer)) := by
  rw [exec_read_of_call length hs.1 hcall, txnStep_rDrain hs.2 hp, if_neg (by simp [hf])]
  rfl

/-- The drain takes the waiting bytes one by one, two host steps each, and then returns (R219, R220). -/
theorem execN_read_drains {length : Nat} {bs : List Byte} {s : State} {x : Txn} (hs : Ready s)
    (hcall : s.call = some (.txn x)) (hp : x.pos = .rDrain) (he : s.eng = .idle) (hf : s.fifo = bs)
    (hl : x.count + bs.length ≤ x.length) :
    execN (2 * bs.length + 1) (.read length) s =
      .next ({ s with fifo := [] }.retOk (.bytes (x.count + bs.length) (x.buffer ++ bs))) := by
  induction bs generalizing s x with
  | nil =>
    rw [execN_cons (exec_read_drained hs hcall hp hf), List.length_nil, Nat.add_zero, List.append_nil, ← hf]
    rfl
  | cons b rest ih =>
    rw [List.length_cons] at hl
    rw [show 2 * (b :: rest).length + 1 = 2 * rest.length + 1 + 1 + 1 by rw [List.length_cons]; omega,
      execN_cons (exec_read_drain hs hcall hp (by simp [hf]))]
    have htake := exec_read_drain_take (length := length) (s := { s with
      call := some (.txn { x with snap := readS s.free s, pos := .rDrainTake }) }) hs rfl rfl he hf
      (by omega : x.count < x.length)
    rw [execN_cons htake]
    refine (ih ?_ rfl rfl ?_ rfl ?_).trans ?_
    · exact hs
    · exact he
    · simp only [Txn.take]
      omega
    · simp [Txn.take, State.retOk, State.ret, Nat.add_assoc, Nat.add_comm 1]

/-- A READ that finds its transfer completed returns the bytes that wait, in their order. -/
theorem execN_read_completed {length : Nat} {bs : List Byte} {s : State} (hs : Ready s)
    (hcall : s.call = some (.txn (readAt bs.length .rLoop))) (hc : Completed s) (hf : s.fifo = bs) (hne : bs ≠ []) :
    execN (2 * bs.length + 1) (.read length) s = .next ({ s with fifo := [] }.retOk (.bytes bs.length bs)) := by
  obtain ⟨b, rest, rfl⟩ := List.exists_cons_of_ne_nil hne
  rw [show 2 * (b :: rest).length + 1 = 2 * rest.length + 1 + 1 + 1 by rw [List.length_cons]; omega,
    execN_cons (exec_read_loop hs hcall rfl (by simp [hf]))]
  have htake := exec_read_take (length := length) (s := { s with
    call := some (.txn { readAt (b :: rest).length .rLoop with snap := readS s.free s, pos := .rTake }) }) hs rfl rfl rfl
    hc hc.1 hf (Nat.succ_pos _)
  rw [execN_cons htake]
  refine (execN_read_drains ?_ rfl rfl ?_ rfl ?_).trans ?_
  · exact hs
  · exact hc.1
  · simp [Txn.take, readAt, readTxn, Nat.add_comm]
  · simp [Txn.take, readAt, readTxn, State.retOk, State.ret, Nat.add_comm]

/-- The host steps of a READ after a transfer that brought every byte. -/
theorem execN_read_received {length : Nat} {s : State} {d : Draws} {ds : List Draws} (hs : Ready s)
    (hcall : s.call = some (.txn (readAt ds.length .rLoop))) (herr : s.err = false) (hclkt : s.clkt = false)
    (hf : s.fifo = []) (h : Receives .addr ds.length s) (hne : ds ≠ []) (hle : ds.length ≤ 0xFFFF)
    (hroom : ds.length ≤ s.cfg.fifoDepth) (hd : ∀ d', d' ∈ d :: ds → d'.ack = true ∧ d'.stretch = false) :
    execN (2 * ds.length + 1) (.read length) (engineRun (d :: ds) s) =
      .next ({ received ds s with fifo := [] }.retOk (.bytes ds.length (ds.map Draws.byte))) := by
  rw [engineRun_read h hne hle (by simpa [hf] using hroom) hd, ← List.length_map (as := ds) Draws.byte]
  rw [← List.length_map (as := ds) Draws.byte] at hcall
  exact execN_read_completed (s := received ds s) hs hcall ⟨rfl, rfl, herr, hclkt⟩ (by simp [received, hf])
    (by simpa using hne)

/-- Settles O55: ARM, then the address and one byte for each record of draws, then the loop and the drain. -/
theorem readFromAcknowledgingTarget : Obligations.ReadFromAcknowledgingTarget := by
  intro s d0 ds hs hpins hcall hpos hdepth hlen hack
  have ⟨hready, _⟩ := hs
  have harm := execN_read_arms hs hpins hcall hpos hlen
  refine ⟨_, _, harm, execN_read_received ?_ rfl rfl rfl rfl ⟨rfl, rfl, rfl, rfl⟩ (List.ne_nil_of_length_pos hpos) hlen
    hdepth hack, ⟨rfl, rfl⟩, ?_, rfl, rfl, faults_of_running hready.1⟩
  · exact hready
  · simp [received, readEvents, State.retOk]

end Sys2Proof.Machine
end

section
/-! SUPPORT. The mapping procedures (R180 to R183), and the register requests of the configuration procedures (R184 to R191): a setter writes one register and returns, a getter reads one and returns. -/

namespace Sys2Proof.Machine

/-! ### The mapping (R180 to R183) -/

/-- The mapping that the platform grants for these operands (R40, R182). -/
def grantedMapping (base length : Nat) (s : State) : Mapping :=
  { base := base, length := length, pointer := s.free.mapPointer }

theorem mapBlock_of_mapped (base length : Nat) {s : State} (h : s.mapped = true) : mapBlock base length s = none :=
  if_pos h

theorem mapBlock_of_unmapped (base length : Nat) {s : State} (h : s.mapped = false) :
    mapBlock base length s = if s.free.mapGranted then some (grantedMapping base length s) else none :=
  if_neg (ne_true_of_eq_false h)

/-- MAP and INIT fail where there is no mapping to be had. -/
theorem exec_map_init_none {base length : Nat} {s : State} (hrun : s.running = true)
    (h : mapBlock base length s = none) :
    exec (.map base length) s = .next (s.retErr .mapFailed) ∧
      exec (.init base length) s = .next (s.retErr .mapFailed) := by
  simp [exec, execMap, execInit, whenRunning_of_running hrun, h]

/-- MAP keeps the mapping it gets and returns it; INIT keeps it, and routes the two lines. -/
theorem exec_map_init_some {base length : Nat} {s : State} {m : Mapping} (hrun : s.running = true)
    (h : mapBlock base length s = some m) :
    exec (.map base length) s = .next ({ s with mapping := some m }.retOk (.handle m)) ∧
      exec (.init base length) s = .next ({ s with mapping := some m, pinsRouted := true }.retOk .unit) := by
  simp [exec, execMap, execInit, whenRunning_of_running hrun, h]

/-- UNMAP and DEINIT are the same host step. -/
theorem exec_unmap_deinit {s : State} (hrun : s.running = true) :
    exec .unmap s = .next (unmapBlock s) ∧ exec .deinit s = .next (unmapBlock s) :=
  ⟨whenRunning_of_running hrun _, whenRunning_of_running hrun _⟩

theorem unmapBlock_of_mapped {s : State} (h : s.mapped = true) :
    unmapBlock s = { s with mapping := none }.retOk .unit :=
  if_pos h

theorem unmapBlock_of_unmapped {s : State} (h : s.mapped = false) : unmapBlock s = s.raise .doubleUnmap :=
  if_neg (ne_true_of_eq_false h)

/-- Settles O25: on a mapped block there is no mapping to be had, on another one the draw decides. -/
theorem mappingProcedures : Obligations.MappingProcedures := by
  intro s base length hrun m failed unmapped
  obtain ⟨hunmap, hdeinit⟩ := exec_unmap_deinit hrun
  rw [hunmap, hdeinit]
  refine ⟨fun hmap => ?_, fun hmap => ?_⟩
  · obtain ⟨hexec, hinit⟩ := exec_map_init_none hrun (mapBlock_of_mapped base length hmap)
    rw [hexec, hinit, unmapBlock_of_mapped hmap]
    exact ⟨rfl, rfl, rfl, rfl⟩
  · rw [unmapBlock_of_unmapped hmap, raise_of_running hrun]
    have hblock := mapBlock_of_unmapped base length hmap
    cases hg : s.free.mapGranted with
    | true =>
      obtain ⟨hexec, hinit⟩ := exec_map_init_some hrun (hblock.trans (if_pos hg))
      exact ⟨hexec, hinit, rfl, rfl⟩
    | false =>
      obtain ⟨hexec, hinit⟩ := exec_map_init_none hrun (hblock.trans (if_neg (ne_true_of_eq_false hg)))
      exact ⟨hexec, hinit, rfl, rfl⟩

/-! ### Setters and getters (R184 to R191) -/

/-- The host step of a setter: write one register, and return. -/
def setRegister (r : Reg) (data : Word) (s : State) : State :=
  (memWrite r.offset data s).andThen fun _ s => s.retOk .unit

/-- The host step of a getter: read one register, and return a number read from its word. -/
def getRegister (r : Reg) (number : Word → Nat) (s : State) : State :=
  (memRead r.offset s.free s).andThen fun v s => s.retOk (.nat (number v))

theorem setRegister_ok {r : Reg} {data : Word} {s t : State} (hs : Configurable s)
    (hd : data &&& r.reservedMask = 0#32) (hw : writeReg r data s = .ok () t) :
    setRegister r data s = t.retOk .unit := by
  rw [setRegister, memWrite_offset r hs.1.2 hd fun _ => hs.2, hw, Req.andThen]

theorem setRegister_unmapped (r : Reg) (data : Word) {s : State} (hrun : s.running = true) (hmap : s.mapped = false) :
    setRegister r data s = { s with faults := [.notInitialized r.offset] } := by
  rw [setRegister, memWrite_unmapped _ data hmap, Req.andThen, raise_of_running hrun]

theorem setRegister_active {r : Reg} {data : Word} {s : State} (hs : Ready s) (he : s.eng ≠ .idle)
    (hd : data &&& r.reservedMask = 0#32) (hc : isConfigReg r = true) :
    setRegister r data s = { s with faults := [.configWhileActive r.offset data] } := by
  rw [setRegister, memWrite_active r hs.2 hd hc he, Req.andThen, raise_of_running hs.1]

/-- A setter of a register other than C stops with nothing stored, or has stored its word and returned. -/
theorem setRegister_cases {r : Reg} (hr : r ≠ .C) (data : Word) (s : State) :
    (∃ t, writeReg r data s = .ok () t ∧ setRegister r data s = t.retOk .unit) ∨
      (∃ f, setRegister r data s = s.raise f) ∨ ∃ x, setRegister r data s = s.refuse x := by
  unfold setRegister
  cases hq : memWrite r.offset data s with
  | ok v t =>
    obtain ⟨-, -, -, hw⟩ := memWrite_ok hq
    rw [regAt_offset] at hw
    exact .inl ⟨t, hw, rfl⟩
  | stop t =>
    rcases memWrite_stop hq (by rwa [regAt_offset]) with ⟨f, -, rfl⟩ | ⟨x, rfl⟩
    · exact .inr (.inl ⟨f, rfl⟩)
    · exact .inr (.inr ⟨x, rfl⟩)

theorem getRegister_ok {r : Reg} {v : Word} (number : Word → Nat) {s : State} (hmap : s.mapped = true)
    (hr : readReg r s.free s = .ok v s) : getRegister r number s = s.retOk (.nat (number v)) := by
  rw [getRegister, memRead_offset r _ hmap, hr, Req.andThen]

theorem getRegister_unmapped (r : Reg) (number : Word → Nat) {s : State} (hrun : s.running = true)
    (hmap : s.mapped = false) : getRegister r number s = { s with faults := [.notInitialized r.offset] } := by
  rw [getRegister, memRead_unmapped _ _ hmap, Req.andThen, raise_of_running hrun]

/-! ### Timeout and address (R188 to R191) -/

/-- The low half of a data word. -/
def lowHalf (v : Word) : Nat := (v.extractLsb' 0 16).toNat

/-- The address field of a data word (R191). -/
def addressField (v : Word) : Nat := (v &&& 0x7F#32).toNat

/-- A half word is the low half of the data word it is written in. -/
theorem extractLsb'_setWidth_half (h : Half) : (h.setWidth 32 : Word).extractLsb' 0 16 = h := by
  rw [extractLsb'_zero_eq_setWidth, BitVec.setWidth_setWidth_of_le h (by decide), BitVec.setWidth_eq]

/-- The seven low bits of an address byte, as the data word they are written in: no reserved bit of A, and the address
itself in the field (R190). -/
theorem maskedAddress_word (addr : Byte) :
    ((addr &&& 0x7F#8).setWidth 32 : Word) &&& Reg.A.reservedMask = 0#32 ∧
      ((addr &&& 0x7F#8).setWidth 32 : Word).extractLsb' 0 7 = addr.setWidth 7 := by
  revert addr
  decide

/-- The mask of R191 selects what A stores. -/
theorem addressField_readA (d : Draws) (s : State) : addressField (readA d s) = s.aAddr.toNat := by
  have hfield : (readA d s).toNat % 2 ^ 7 = s.aAddr.toNat := by
    have hlow := congrArg BitVec.toNat (extractLsb'_append_low (d.bits.extractLsb' 7 25) s.aAddr)
    simpa [readA] using hlow
  rw [addressField, BitVec.toNat_and, ← hfield]
  exact Nat.and_two_pow_sub_one_eq_mod _ 7

theorem exec_setClockTimeout (count : Half) {s : State} (hrun : s.running = true) :
    exec (.setClockTimeout count) s = .next (setRegister .CLKT (count.setWidth 32) s) :=
  whenRunning_of_running hrun (setRegister .CLKT (count.setWidth 32))

theorem exec_setSlaveAddress (addr : Byte) {s : State} (hrun : s.running = true) :
    exec (.setSlaveAddress addr) s = .next (setRegister .A ((addr &&& 0x7F#8).setWidth 32) s) :=
  whenRunning_of_running hrun (setRegister .A ((addr &&& 0x7F#8).setWidth 32))

theorem exec_getClockTimeout {s : State} (hrun : s.running = true) :
    exec .getClockTimeout s = .next (getRegister .CLKT lowHalf s) :=
  whenRunning_of_running hrun (getRegister .CLKT lowHalf)

theorem exec_getSlaveAddress {s : State} (hrun : s.running = true) :
    exec .getSlaveAddress s = .next (getRegister .A addressField s) :=
  whenRunning_of_running hrun (getRegister .A addressField)

/-- Settles O29: one write of CLKT or A, or one read of it, with the checks of R100 passed or failed. -/
theorem timeoutAndAddress : Obligations.TimeoutAndAddress := by
  intro s count addr
  have ⟨haddrReserved, haddrField⟩ := maskedAddress_word addr
  refine ⟨fun hs => ?_, fun ⟨hrun, hmap⟩ => ?_, fun hrun hmap => ?_, fun hs he => ?_⟩
  · rw [exec_setClockTimeout count hs.1.1, exec_setSlaveAddress addr hs.1.1,
      setRegister_ok (r := .CLKT) hs (half_reserved count) rfl, setRegister_ok hs haddrReserved rfl,
      extractLsb'_setWidth_half, haddrField]
    exact ⟨rfl, rfl⟩
  · rw [exec_getClockTimeout hrun, exec_getSlaveAddress hrun, getRegister_ok _ hmap rfl, getRegister_ok _ hmap rfl,
      addressField_readA, lowHalf, readCLKT, extractLsb'_append_low]
    exact ⟨rfl, rfl⟩
  · rw [exec_setClockTimeout count hrun, exec_getClockTimeout hrun, exec_setSlaveAddress addr hrun,
      exec_getSlaveAddress hrun]
    simp only [setRegister_unmapped _ _ hrun hmap, getRegister_unmapped _ _ hrun hmap]
    exact ⟨rfl, rfl, rfl, rfl⟩
  · rw [exec_setClockTimeout count hs.1, exec_setSlaveAddress addr hs.1,
      setRegister_active (r := .CLKT) hs he (half_reserved count) rfl, setRegister_active hs he haddrReserved rfl]
    exact ⟨rfl, rfl⟩

end Sys2Proof.Machine
end

section
/-! SUPPORT. The clock procedures (R185 to R187, R193): the divisor that SET_CLOCK_FREQUENCY stores, and the frequency read back from it. -/

namespace Sys2Proof.Machine

/-! ### The divisor (R185) -/

theorem divisorFor_tooSlow {coreClockHz hz : Nat} (h : hz = 0 ∨ coreClockHz / hz > 32768) :
    divisorFor coreClockHz hz = none := by
  by_cases h0 : hz = 0
  · exact if_pos h0
  · simp [divisorFor, h0, h.resolve_left h0]

/-- A quotient that is not too big is rounded down to even, and 32768 is stored as 0. -/
theorem divisorFor_some {coreClockHz hz : Nat} (h0 : hz ≠ 0) (hq : coreClockHz / hz ≤ 32768) :
    ∃ d : Half, divisorFor coreClockHz hz = some d ∧ (coreClockHz / hz = 32768 → d = 0#16) ∧
      (coreClockHz / hz < 32768 → d.toNat = coreClockHz / hz - coreClockHz / hz % 2) := by
  unfold divisorFor
  rw [if_neg h0]
  generalize coreClockHz / hz = q at hq
  refine ⟨_, if_neg (Nat.not_lt.2 hq), fun h => by rw [h]; rfl, fun h => ?_⟩
  rw [if_neg (by omega), BitVec.toNat_ofNat, Nat.mod_eq_of_lt (by omega)]

/-- The divisor that a value of DIV stands for (R185, R186). -/
def storedDivisor (cdiv : Half) : Nat := if cdiv = 0#16 then 32768 else cdiv.toNat

theorem storedDivisor_pos (cdiv : Half) : 0 < storedDivisor cdiv := by
  unfold storedDivisor
  split
  · decide
  · next h => exact Nat.pos_of_ne_zero fun h0 => h (BitVec.eq_of_toNat_eq h0)

/-- The divisor of a quotient from 2 to 32768 is even, and it stands for no more than the quotient. -/
theorem divisorFor_even_le {coreClockHz hz : Nat} (h2 : 2 ≤ coreClockHz / hz) (hq : coreClockHz / hz ≤ 32768) :
    ∃ d : Half, divisorFor coreClockHz hz = some d ∧ d.toNat % 2 = 0 ∧ storedDivisor d ≤ coreClockHz / hz := by
  have h0 : hz ≠ 0 := by
    rintro rfl
    simp at h2
  obtain ⟨d, hd, htop, hbelow⟩ := divisorFor_some h0 hq
  refine ⟨d, hd, ?_⟩
  rcases Nat.lt_or_eq_of_le hq with hlt | heq
  · have hnat := hbelow hlt
    have hne : d ≠ 0#16 := by
      rintro rfl
      simp at hnat
      omega
    rw [storedDivisor, if_neg hne]
    omega
  · rw [htop heq, heq]
    decide

/-! ### The frequency (R186) -/

/-- The frequency read back is the ceiling of the core clock over the divisor. -/
theorem frequencyOf_ceil (coreClockHz : Nat) (cdiv : Half) :
    coreClockHz ≤ frequencyOf coreClockHz cdiv * storedDivisor cdiv ∧
      frequencyOf coreClockHz cdiv * storedDivisor cdiv < coreClockHz + storedDivisor cdiv := by
  have hdiv : (if cdiv.toNat = 0 then 32768 else cdiv.toNat) = storedDivisor cdiv := by
    simp [storedDivisor, BitVec.toNat_eq]
  have hpos := storedDivisor_pos cdiv
  unfold frequencyOf
  rw [hdiv]
  generalize storedDivisor cdiv = d at hpos
  have hsplit := Nat.div_add_mod' coreClockHz d
  have hlt := Nat.mod_lt coreClockHz hpos
  dsimp only
  split
  · omega
  · rw [Nat.add_mul]
    omega

/-! ### The host steps -/

theorem exec_setClockFrequency_tooSlow {hz : Nat} {s : State} (hrun : s.running = true)
    (h : divisorFor s.cfg.coreClockHz hz = none) : exec (.setClockFrequency hz) s = .next (s.retErr .tooSlow) := by
  simp [exec, execSetClockFrequency, whenRunning_of_running hrun, h]

theorem exec_setClockFrequency_some {hz : Nat} {d : Half} {s : State} (hrun : s.running = true)
    (h : divisorFor s.cfg.coreClockHz hz = some d) :
    exec (.setClockFrequency hz) s = .next (setRegister .DIV (d.setWidth 32) s) := by
  simp only [exec, execSetClockFrequency, whenRunning_of_running hrun, h]
  rfl

/-- On a block that may be configured the divisor is stored. -/
theorem exec_setClockFrequency_stores {hz : Nat} {d : Half} {s : State} (hs : Configurable s)
    (h : divisorFor s.cfg.coreClockHz hz = some d) :
    exec (.setClockFrequency hz) s = .next ({ s with cdiv := d }.retOk .unit) := by
  rw [exec_setClockFrequency_some hs.1.1 h, setRegister_ok hs (half_reserved d) rfl, extractLsb'_setWidth_half]

theorem exec_getSclFrequency {s : State} (hrun : s.running = true) : exec .getSclFrequency s =
    .next (getRegister .DIV (fun v => frequencyOf s.cfg.coreClockHz (v.extractLsb' 0 16)) s) := by
  rw [exec, execGetSclFrequency, whenRunning_of_running hrun, show (0x14 : Nat) = Reg.DIV.offset from rfl, getRegister]
  cases hq : memRead Reg.DIV.offset s.free s with
  | ok v t =>
    obtain ⟨-, hr⟩ := memRead_ok hq
    rw [regAt_offset] at hr
    cases hr
    rfl
  | stop t => rfl

theorem exec_getCdiv {s : State} (hrun : s.running = true) : exec .getCdiv s = .next (getRegister .DIV lowHalf s) :=
  whenRunning_of_running hrun (getRegister .DIV lowHalf)

/-- What DIV reads back as the divisor (R33). -/
def readBack (s : State) : Half := if s.cfg.cdivReadback = .asWritten then s.cdiv else s.cdiv &&& 0xFFFE#16

theorem exec_getSclFrequency_returns {s : State} (hs : Ready s) :
    exec .getSclFrequency s = .next (s.retOk (.nat (frequencyOf s.cfg.coreClockHz (readBack s)))) := by
  rw [exec_getSclFrequency hs.1, getRegister_ok _ hs.2 rfl, readDIV_low, readBack]

theorem exec_getCdiv_returns {s : State} (hs : Ready s) :
    exec .getCdiv s = .next (s.retOk (.nat (readBack s).toNat)) := by
  rw [exec_getCdiv hs.1, getRegister_ok _ hs.2 rfl, lowHalf, readDIV_low, readBack]

/-- An even divisor is read back as written, whatever `CDIV_READBACK` is. -/
theorem readBack_of_even {s : State} (h : s.cdiv.toNat % 2 = 0) : readBack s = s.cdiv := by
  refine ite_eq_left_iff.2 fun _ => BitVec.eq_of_getLsbD_eq fun i hi => ?_
  rw [BitVec.getLsbD_and]
  rcases Nat.eq_zero_or_pos i with rfl | hpos
  · simp [BitVec.getLsbD, h]
  · have hmask : (0xFFFE#16).getLsbD i = true := by
      revert i
      decide
    rw [hmask, Bool.and_true]

/-! ### The statements -/

/-- Settles O26, by whether there is a divisor, and then by how its write of DIV ends. -/
theorem setClockFrequency : Obligations.SetClockFrequency := by
  intro s hz hrun
  refine ⟨fun h => exec_setClockFrequency_tooSlow hrun (divisorFor_tooSlow h), fun h0 hq => ?_⟩
  obtain ⟨d, hd, htop, hbelow⟩ := divisorFor_some h0 hq
  refine ⟨d, htop, hbelow, fun hs => exec_setClockFrequency_stores hs hd, ?_⟩
  rw [exec_setClockFrequency_some hrun hd]
  exact ⟨fun hmap => by rw [setRegister_unmapped _ _ hrun hmap]; rfl,
    fun hs he => by rw [setRegister_active hs he (half_reserved d) rfl]; rfl⟩

/-- Settles O27: both read DIV, and the frequency is a ceiling by `frequencyOf_ceil`. -/
theorem readBackFrequency : Obligations.ReadBackFrequency := by
  intro s
  refine ⟨fun hs => ⟨⟨_, exec_getSclFrequency_returns hs, frequencyOf_ceil _ (readBack s)⟩, exec_getCdiv_returns hs⟩,
    fun hrun hmap => ?_⟩
  rw [exec_getSclFrequency hrun, exec_getCdiv hrun, getRegister_unmapped _ _ hrun hmap,
    getRegister_unmapped _ _ hrun hmap]
  exact ⟨rfl, rfl⟩

/-! ### The laws (R193) -/

/-- How a call of SET_CLOCK_FREQUENCY ends: TooSlow, its divisor stored, or the host stopped with nothing stored. -/
theorem exec_setClockFrequency_cases {hz : Nat} {s t : State} (he : exec (.setClockFrequency hz) s = .next t) :
    (divisorFor s.cfg.coreClockHz hz = none ∧ t = s.retErr .tooSlow) ∨
      (∃ d, divisorFor s.cfg.coreClockHz hz = some d ∧ t = { s with cdiv := d }.retOk .unit) ∨
      (t.running = false ∧ t.cdiv = s.cdiv) := by
  have hrun := (exec_effect he).1
  cases hd : divisorFor s.cfg.coreClockHz hz with
  | none =>
    rw [exec_setClockFrequency_tooSlow hrun hd] at he
    cases he
    exact .inl ⟨rfl, rfl⟩
  | some d =>
    rw [exec_setClockFrequency_some hrun hd] at he
    cases he
    rcases setRegister_cases (r := .DIV) (by decide) (d.setWidth 32) s with ⟨t, hw, ht⟩ | ⟨f, ht⟩ | ⟨x, ht⟩
    · cases hw
      rw [extractLsb'_setWidth_half] at ht
      exact .inr (.inl ⟨d, rfl, ht⟩)
    · exact .inr (.inr (by simp [ht]))
    · exact .inr (.inr (by simp [ht]))

/-- R193 (a): the other two ways to end leave the host stopped, or another result. -/
theorem tooSlow_changes_nothing {hz : Nat} {s t : State} (he : exec (.setClockFrequency hz) s = .next t)
    (hrun : t.running = true) (hres : t.result = some (.result (.err .tooSlow))) : t = s.retErr .tooSlow := by
  rcases exec_setClockFrequency_cases he with ⟨-, ht⟩ | ⟨d, -, rfl⟩ | ⟨hstop, -⟩
  · exact ht
  · cases hres
  · simp [hrun] at hstop

/-- R193 (b): the second call computes the divisor of the first, or stores none. -/
theorem cdiv_set_twice {hz : Nat} {s t u : State} (ht : exec (.setClockFrequency hz) s = .next t)
    (hu : exec (.setClockFrequency hz) t = .next u) : u.cdiv = t.cdiv := by
  have hrun := (exec_effect hu).1
  rcases exec_setClockFrequency_cases hu with ⟨-, rfl⟩ | ⟨d, hd, rfl⟩ | ⟨-, hkept⟩
  · rfl
  · rcases exec_setClockFrequency_cases ht with ⟨hnone, rfl⟩ | ⟨d', hd', rfl⟩ | ⟨hstop, -⟩
    · exact absurd (hnone.symm.trans hd) nofun
    · exact Option.some.inj (hd.symm.trans hd')
    · simp [hrun] at hstop
  · exact hkept

/-- R193 (c): the frequency read back from the stored divisor is at least the one that was set. -/
theorem le_frequencyOf {coreClockHz hz : Nat} {d : Half} (h : storedDivisor d ≤ coreClockHz / hz) :
    hz ≤ frequencyOf coreClockHz d := by
  refine Nat.le_of_mul_le_mul_right ?_ (storedDivisor_pos d)
  calc hz * storedDivisor d ≤ hz * (coreClockHz / hz) := Nat.mul_le_mul_left _ h
    _ ≤ coreClockHz := Nat.mul_div_le _ _
    _ ≤ frequencyOf coreClockHz d * storedDivisor d := (frequencyOf_ceil coreClockHz d).1

/-- The frequency read back where an even divisor has just been stored. -/
theorem exec_getSclFrequency_of_even {s : State} (hs : Ready s) (h : s.cdiv.toNat % 2 = 0) :
    exec .getSclFrequency s = .next (s.retOk (.nat (frequencyOf s.cfg.coreClockHz s.cdiv))) := by
  rw [exec_getSclFrequency_returns hs, readBack_of_even h]

/-- Settles O28, the first three laws by their lemmas, and the fourth by evaluating the divisors. -/
theorem clockLaws : Obligations.ClockLaws := by
  refine ⟨fun s t hz _ he hrun hres => tooSlow_changes_nothing he hrun hres,
    fun s t u hz _ => cdiv_set_twice, fun s hz hs h2 hq => ?_, fun s hs hcore => ?_⟩
  · obtain ⟨d, hd, heven, hle⟩ := divisorFor_even_le h2 hq
    exact ⟨_, _, frequencyOf s.cfg.coreClockHz d, exec_setClockFrequency_stores hs hd,
      exec_getSclFrequency_of_even hs.1 heven, ⟨rfl, rfl⟩, ⟨rfl, rfl⟩, le_frequencyOf hle, frequencyOf_ceil _ d⟩
  · have hfirst : divisorFor s.cfg.coreClockHz 400000 = some 374#16 := by rw [hcore]; rfl
    have hback : frequencyOf s.cfg.coreClockHz 374#16 = 401070 := by rw [hcore]; rfl
    have hsecond : divisorFor s.cfg.coreClockHz 401070 = some 372#16 := by rw [hcore]; rfl
    have heven : (374#16).toNat % 2 = 0 := rfl
    have hget := exec_getSclFrequency_of_even (s := { s with cdiv := 374#16 }.retOk .unit) hs.1 heven
    exact ⟨_, _, _, exec_setClockFrequency_stores hs hfirst, rfl, hget, ⟨rfl, by rw [← hback]; rfl⟩,
      exec_setClockFrequency_stores hs hsecond, rfl⟩

end Sys2Proof.Machine
end

section
/-! SUPPORT. What can change DIV, CLKT and A (R192): of the register accesses a write of the register itself, and no Engine step. -/

namespace Sys2Proof.Machine

/-! ### The three registers from one state to another -/

/-- DIV, CLKT and A hold in `t` what they hold in `s`. -/
def ConfigKept (s t : State) : Prop := t.cdiv = s.cdiv ∧ t.tout = s.tout ∧ t.aAddr = s.aAddr

/-- Those of DIV, CLKT and A that differ between `s` and `t` are among the registers `W`. -/
def ConfigChange (W : Reg → Prop) (s t : State) : Prop :=
  (t.cdiv ≠ s.cdiv → W .DIV) ∧ (t.tout ≠ s.tout → W .CLKT) ∧ (t.aAddr ≠ s.aAddr → W .A)

theorem ConfigKept.trans {s t u : State} (h : ConfigKept s t) (h' : ConfigKept t u) : ConfigKept s u :=
  let ⟨hd, ht, ha⟩ := h
  let ⟨hd', ht', ha'⟩ := h'
  ⟨hd'.trans hd, ht'.trans ht, ha'.trans ha⟩

theorem ConfigKept.change {W : Reg → Prop} {s t : State} (h : ConfigKept s t) : ConfigChange W s t :=
  let ⟨hd, ht, ha⟩ := h
  ⟨fun hne => absurd hd hne, fun hne => absurd ht hne, fun hne => absurd ha hne⟩

theorem ConfigChange.then_kept {W : Reg → Prop} {s t u : State} (h : ConfigChange W s t) (h' : ConfigKept t u) :
    ConfigChange W s u := by
  obtain ⟨hd, ht, ha⟩ := h'
  rwa [ConfigChange, hd, ht, ha]

theorem ConfigChange.mono {W W' : Reg → Prop} {s t : State} (h : ConfigChange W s t) (hW : ∀ r, W r → W' r) :
    ConfigChange W' s t :=
  let ⟨hd, ht, ha⟩ := h
  ⟨hW _ ∘ hd, hW _ ∘ ht, hW _ ∘ ha⟩

theorem ConfigChange.kept {W : Reg → Prop} {s t : State} (h : ConfigChange W s t) (hd : ¬ W .DIV) (ht : ¬ W .CLKT)
    (ha : ¬ W .A) : ConfigKept s t :=
  let ⟨hd', ht', ha'⟩ := h
  ⟨by_contra (hd ∘ hd'), by_contra (ht ∘ ht'), by_contra (ha ∘ ha')⟩

/-! ### Register accesses -/

theorem HostSide.configKept {s t : State} (h : HostSide s t) : ConfigKept s t := by
  obtain ⟨m, p, f, r, c, v, rfl, -⟩ := h
  exact ⟨rfl, rfl, rfl⟩

/-- A stopped access has written C at most. -/
theorem StopOf.configKept {s t : State} (h : StopOf s t) : ConfigKept s t := by
  obtain ⟨u, ⟨_, _, _, _, _, _, _, rfl⟩, ⟨f, -, rfl⟩ | ⟨r, rfl⟩⟩ := h.control <;> exact ⟨rfl, rfl, rfl⟩

theorem readReg_configKept {r : Reg} {d : Draws} {s t : State} {v : Word} (h : readReg r d s = .ok v t) :
    ConfigKept s t := by
  cases r with
  | FIFO =>
    simp only [readReg, popFifo] at h
    split at h
    · cases h
    · split at h <;> cases h <;> exact ⟨rfl, rfl, rfl⟩
  | _ =>
    cases h
    exact ⟨rfl, rfl, rfl⟩

/-- A start whose checks pass latches the transfer (R141). -/
theorem startTransfer_ok_eq {data : Word} {s t : State} {v : Unit} (h : startTransfer data s = .ok v t) :
    t = latchTransfer s := by
  unfold startTransfer at h
  split_ifs at h
  cases h
  rfl

theorem writeControl_configKept {data : Word} {s t : State} {v : Unit} (h : writeControl data s = .ok v t) :
    ConfigKept s t := by
  have h : (if data.getLsbD 7 then startTransfer data (cleared data (storeControl data s))
      else .ok () (cleared data (storeControl data s))) = .ok v t := h
  rw [cleared_storeControl] at h
  split at h
  · rw [startTransfer_ok_eq h]
    exact ⟨rfl, rfl, rfl⟩
  · cases h
    exact ⟨rfl, rfl, rfl⟩

/-- A register write changes no other of the three registers than its own. -/
theorem writeReg_configChange {r : Reg} {data : Word} {s t : State} {v : Unit} (h : writeReg r data s = .ok v t) :
    ConfigChange (· = r) s t := by
  cases r with
  | C => exact (writeControl_configKept h).change
  | FIFO =>
    simp only [writeReg, pushFifo] at h
    split at h
    · cases h
    · split at h <;> cases h <;> exact ConfigKept.change ⟨rfl, rfl, rfl⟩
  | S | DLEN | DEL =>
    cases h
    exact ConfigKept.change ⟨rfl, rfl, rfl⟩
  | DIV | CLKT | A =>
    cases h
    simp [ConfigChange]

theorem memRead_configKept (off : Nat) (d : Draws) (s : State) : ConfigKept s (memRead off d s).state := by
  cases hq : memRead off d s with
  | ok v t => exact readReg_configKept (memRead_ok hq).2
  | stop t =>
    obtain ⟨f, -, rfl⟩ := memRead_stop hq
    exact (HostSide.raise f s).configKept

/-- An offset that passes the checks of R100 is that of its register. -/
theorem offset_regAt {off : Nat} {s : State} (h : accessFault off s = none) : (regAt off).offset = off := by
  have hle : off ≤ 0x1C ∧ off % 4 = 0 := by
    unfold accessFault at h
    split_ifs at h
    omega
  obtain ⟨k, rfl⟩ : ∃ k, off = 4 * k := ⟨off / 4, by omega⟩
  have hk : k < 8 := by omega
  interval_cases k <;> rfl

/-- A write request changes no other of the three registers than the one at its offset. -/
theorem memWrite_configChange (off : Nat) (data : Word) (s : State) :
    ConfigChange (fun r => r.offset = off) s (memWrite off data s).state := by
  have hsound := memWrite_sound off data s
  cases hq : memWrite off data s with
  | ok v t =>
    obtain ⟨hf, -, -, hw⟩ := memWrite_ok hq
    exact (writeReg_configChange hw).mono fun r hr => hr ▸ offset_regAt hf
  | stop t =>
    rw [hq] at hsound
    exact (StopOf.configKept hsound).change

/-! ### Transactions -/

/-- The registers that a transaction writes: C, S, DLEN and FIFO (R212, R216). -/
theorem memWrite_configKept {off : Nat} (data : Word) (s : State)
    (hoff : off = 0x00 ∨ off = 0x04 ∨ off = 0x08 ∨ off = 0x10) : ConfigKept s (memWrite off data s).state := by
  refine (memWrite_configChange off data s).kept ?_ ?_ ?_ <;> rcases hoff with rfl | rfl | rfl | rfl <;> decide

theorem txnWrite_configKept {off : Nat} (data : Word) (t : Txn) (s : State)
    (hoff : off = 0x00 ∨ off = 0x04 ∨ off = 0x08 ∨ off = 0x10) : ConfigKept s (txnWrite off data t s).state := by
  have hkept := memWrite_configKept data s hoff
  unfold txnWrite
  cases hq : memWrite off data s <;> rw [hq] at hkept <;> exact hkept

theorem txnStatus_configKept {s : State} {k : Word → State → TxnOut} (hk : ∀ v u, ConfigKept u (k v u).state) :
    ConfigKept s (txnStatus s k).state := by
  have hkept := memRead_configKept 0x04 s.free s
  unfold txnStatus
  cases hq : memRead 0x04 s.free s <;> rw [hq] at hkept
  · exact hkept.trans (hk _ _)
  · exact hkept

theorem takeOne_configKept (t : Txn) (s : State) {k : Txn → State → TxnOut} (hk : ∀ t u, ConfigKept u (k t u).state) :
    ConfigKept s (takeOne t s k).state := by
  have hkept := memRead_configKept 0x10 s.free s
  unfold takeOne
  split
  · exact (HostSide.raise _ s).configKept
  · cases hq : memRead 0x10 s.free s <;> rw [hq] at hkept
    · exact hkept.trans (hk _ _)
    · exact hkept

theorem goOn_configKept (t : Txn) (s : State) : ConfigKept s (goOn t s).state := ⟨rfl, rfl, rfl⟩

theorem testSnapshot_configKept (t : Txn) (s : State) : ConfigKept s (testSnapshot t s).state :=
  (testSnapshot_side t s).1.configKept

/-- At each position a transaction reads a register, or writes one of the four. -/
theorem txnStep_configKept (t : Txn) (s : State) : ConfigKept s (txnStep t s).state := by
  cases hp : t.pos <;> simp only [txnStep, hp]
  case wClear | wPush | wLen | wStat | wStart | rLen | rStat | rStart => exact txnWrite_configKept _ _ s (by decide)
  case wPoll =>
    refine txnStatus_configKept fun v u => ?_
    split
    · split <;> exact ⟨rfl, rfl, rfl⟩
    · exact goOn_configKept _ u
  case rLoop =>
    refine txnStatus_configKept fun v u => ?_
    split
    · exact goOn_configKept _ u
    · exact testSnapshot_configKept _ u
  case rDrain =>
    refine txnStatus_configKept fun v u => ?_
    split
    · exact goOn_configKept _ u
    · exact ⟨rfl, rfl, rfl⟩
  case rTake => exact takeOne_configKept t s testSnapshot_configKept
  case rDrainTake => exact takeOne_configKept t s fun _ u => goOn_configKept _ u

theorem advance_configKept (new : Txn) (s : State) : ConfigKept s (advance new s).state := by
  unfold advance
  split
  · exact txnStep_configKept _ s
  · split
    · exact (HostSide.raise _ s).configKept
    · exact txnStep_configKept _ s

theorem TransactionStep.configKept {s u : State} (h : TransactionStep s u) : ConfigKept s u := by
  rcases h with ⟨r, rfl⟩ | ⟨new, -, ha⟩ | ⟨new, -, r, rfl⟩ | ⟨new, -, n, -, -, rfl⟩
  · exact (HostSide.ret r s).configKept
  · have hkept := advance_configKept new s
    rwa [ha] at hkept
  · exact advance_configKept new s
  · exact advance_configKept new s

/-! ### The other instructions -/

/-- The instructions whose host step may write a register: the raw write, the setter that the register has, and
SET_MASKED_BITS at its offset (R192). -/
inductive Configures : Instr → Reg → Prop where
  | write (r : Reg) (lo : BitVec 2) (data : Word) : Configures (writeInstr r lo data) r
  | frequency (hz : Nat) : Configures (.setClockFrequency hz) .DIV
  | timeout (count : Half) : Configures (.setClockTimeout count) .CLKT
  | address (addr : Byte) : Configures (.setSlaveAddress addr) .A
  | masked (r : Reg) (value mask : Word) : Configures (.setMaskedBits r.offset value mask) r

/-- What a procedure does of itself keeps the three registers. -/
theorem QuietSide.configKept {s t : State} (h : QuietSide s t) : ConfigKept s t := h.1.configKept

/-- A host step without a register access. -/
theorem hostProcedure_configKept {k : State → State} {s u : State} (hk : QuietSide s (k s))
    (he : whenRunning s k = .next u) : ConfigKept s u :=
  ((whenRunning_next_iff s u k).1 he).2 ▸ hk.configKept

theorem readRequest_configKept {r : Reg} {lo : BitVec 2} {s u : State} (he : readRequest r lo s = .next u) :
    ConfigKept s u := by
  obtain ⟨-, rfl⟩ := (whenRunning_next_iff _ _ _).1 he
  exact (memRead_configKept _ _ s).trans (endRead_side _).configKept

theorem writeRequest_configChange {r : Reg} {lo : BitVec 2} {data : Word} {s u : State}
    (he : writeRequest r lo data s = .next u) : ConfigChange (Configures (writeInstr r lo data)) s u := by
  obtain ⟨-, rfl⟩ := (whenRunning_next_iff _ _ _).1 he
  refine ((memWrite_configChange _ data s).then_kept (endWrite_side _).configKept).mono fun r' hr => ?_
  obtain rfl : r' = r := by rw [← regAt_offset r', hr, regAt_offset_add]
  exact .write r' lo data

theorem readProcedure_configKept {off : Nat} {k : Word → State → State} {s u : State} (hk : ∀ v t, QuietSide t (k v t))
    (he : whenRunning s (fun s => (memRead off s.free s).andThen k) = .next u) : ConfigKept s u := by
  obtain ⟨-, rfl⟩ := (whenRunning_next_iff _ _ _).1 he
  exact (memRead_configKept _ _ s).trans (andThen_side _ hk).configKept

/-- The write of a procedure that writes one register and returns. -/
theorem memWrite_andThen_configChange {i : Instr} {off : Nat} (data : Word) (s : State)
    (hi : ∀ r, r.offset = off → Configures i r) :
    ConfigChange (Configures i) s ((memWrite off data s).andThen fun _ s => s.retOk .unit) :=
  ((memWrite_configChange off data s).then_kept (andThen_side _ fun _ t => .ret _ t).configKept).mono hi

theorem setRegister_configChange {i : Instr} {r : Reg} (data : Word) (s : State) (hi : Configures i r) :
    ConfigChange (Configures i) s (setRegister r data s) := by
  refine memWrite_andThen_configChange data s fun r' hr => ?_
  rwa [← regAt_offset r', hr, regAt_offset]

theorem setter_configChange {i : Instr} {r : Reg} {data : Word} {s u : State} (hi : Configures i r)
    (he : whenRunning s (setRegister r data) = .next u) : ConfigChange (Configures i) s u :=
  ((whenRunning_next_iff s u _).1 he).2 ▸ setRegister_configChange data s hi

theorem setClockFrequency_configChange {hz : Nat} {s u : State} (he : exec (.setClockFrequency hz) s = .next u) :
    ConfigChange (Configures (.setClockFrequency hz)) s u := by
  have hrun := (exec_effect he).1
  cases hd : divisorFor s.cfg.coreClockHz hz with
  | none =>
    rw [exec_setClockFrequency_tooSlow hrun hd] at he
    cases he
    exact (HostSide.ret _ s).configKept.change
  | some d =>
    rw [exec_setClockFrequency_some hrun hd] at he
    cases he
    exact setRegister_configChange _ s (.frequency hz)

theorem setMaskedBits_configChange {off : Nat} {value mask : Word} {s u : State}
    (he : exec (.setMaskedBits off value mask) s = .next u) :
    ConfigChange (Configures (.setMaskedBits off value mask)) s u := by
  rw [exec, execSetMaskedBits, whenRunning_next_iff] at he
  obtain ⟨-, rfl⟩ := he
  split
  · exact memWrite_andThen_configChange _ s fun r hr => hr ▸ .masked r value mask
  · exact ((memRead_configKept off s.free s).trans (andThen_side _ fun _ t => .setCall _ t).configKept).change

/-- A host step changes DIV, CLKT or A only where its instruction configures it. -/
theorem exec_configChange {i : Instr} {s u : State} (he : exec i s = .next u) : ConfigChange (Configures i) s u := by
  cases i with
  | rdC | rdS | rdDlen | rdA | rdFifo | rdDiv | rdDel | rdClkt => exact (readRequest_configKept he).change
  | wrC lo data => exact writeRequest_configChange (r := .C) he
  | wrS lo data => exact writeRequest_configChange (r := .S) he
  | wrDlen lo data => exact writeRequest_configChange (r := .DLEN) he
  | wrA lo data => exact writeRequest_configChange (r := .A) he
  | wrFifo lo data => exact writeRequest_configChange (r := .FIFO) he
  | wrDiv lo data => exact writeRequest_configChange (r := .DIV) he
  | wrDel lo data => exact writeRequest_configChange (r := .DEL) he
  | wrClkt lo data => exact writeRequest_configChange (r := .CLKT) he
  | crc8 =>
    rw [exec, execCrc8] at he
    exact (hostProcedure_configKept (.setResult _ s) he).change
  | crcchk =>
    rw [exec, execCrcchk] at he
    exact (hostProcedure_configKept (.setResult _ s) he).change
  | init base length =>
    rw [exec, execInit] at he
    exact (hostProcedure_configKept (mapBlock_quiet base length (fun _ => rfl) fun _ => .ok .unit) he).change
  | map base length =>
    rw [exec, execMap] at he
    exact (hostProcedure_configKept (mapBlock_quiet base length id fun m => .ok (.handle m)) he).change
  | deinit | unmap => exact (hostProcedure_configKept (unmapBlock_quiet s) he).change
  | setClockFrequency => exact setClockFrequency_configChange he
  | getSclFrequency | getCdiv | getClockTimeout | getSlaveAddress =>
    exact (readProcedure_configKept (fun _ t => .ret _ t) he).change
  | setClockTimeout count => exact setter_configChange (r := .CLKT) (.timeout count) he
  | setSlaveAddress addr => exact setter_configChange (r := .A) (.address addr) he
  | setMaskedBits => exact setMaskedBits_configChange he
  | write | read | cmdNoArg | cmdReadWord | cmdWriteWord | readMeasurement | dataReady | setMeasurementInterval =>
    exact (exec_transactionStep rfl he).configKept.change

/-! ### The Engine -/

theorem timeout_configKept (d : Draws) (s : State) : ConfigKept s (timeout d s) := by
  unfold timeout
  dsimp only
  split <;> exact ⟨rfl, rfl, rfl⟩

theorem afterStretch_configKept (d : Draws) (s : State) {k : State → State} (hk : ConfigKept s (k s)) :
    ConfigKept s (afterStretch d s k) := by
  unfold afterStretch
  split
  · exact timeout_configKept d s
  · exact ⟨rfl, rfl, rfl⟩
  · exact hk

theorem completeIfDone_configKept (s : State) : ConfigKept s (completeIfDone s) := by
  unfold completeIfDone
  split <;> exact ⟨rfl, rfl, rfl⟩

theorem addrStep_configKept (d : Draws) (s : State) : ConfigKept s (addrStep d s) := by
  refine afterStretch_configKept d (s.emit .start) ?_
  dsimp only
  split <;> exact ⟨rfl, rfl, rfl⟩

theorem txStep_configKept (d : Draws) (s : State) : ConfigKept s (txStep d s) := by
  unfold txStep
  split
  · exact ⟨rfl, rfl, rfl⟩
  · next b rest _ =>
    refine afterStretch_configKept d { s with fifo := rest } ?_
    dsimp only
    split
    · exact completeIfDone_configKept _
    · exact ⟨rfl, rfl, rfl⟩

theorem rxStep_configKept (d : Draws) (s : State) : ConfigKept s (rxStep d s) := by
  refine afterStretch_configKept d s (ConfigKept.trans ?_ (completeIfDone_configKept _))
  rw [receive_eq]
  exact ⟨rfl, rfl, rfl⟩

theorem phaseStep_configKept (d : Draws) (s : State) : ConfigKept s (phaseStep d s) := by
  unfold phaseStep
  split
  · exact ⟨rfl, rfl, rfl⟩
  · exact ⟨rfl, rfl, rfl⟩
  · exact addrStep_configKept d s
  · split
    · exact rxStep_configKept d s
    · exact txStep_configKept d s

theorem commitStep_configKept (d : Draws) (s : State) : ConfigKept s (commitStep d s) := by
  unfold commitStep
  split <;> exact ⟨rfl, rfl, rfl⟩

/-! ### The statement -/

/-- Settles O32: what each register access can change, instruction by instruction, and the Engine's steps one by one. -/
theorem configurationPersists : Obligations.ConfigurationPersists := by
  refine ⟨fun i s t he => ?_, fun d s => ⟨phaseStep_configKept d s, commitStep_configKept d s⟩⟩
  obtain ⟨hdiv, hclkt, ha⟩ := exec_configChange he
  refine ⟨fun hne => ?_, fun hne => ?_, fun hne => ?_⟩
  · cases hdiv hne with
    | write => exact .inl ⟨_, _, rfl⟩
    | frequency => exact .inr (.inl ⟨_, rfl⟩)
    | masked => exact .inr (.inr ⟨_, _, rfl⟩)
  · cases hclkt hne with
    | write => exact .inl ⟨_, _, rfl⟩
    | timeout => exact .inr (.inl ⟨_, rfl⟩)
    | masked => exact .inr (.inr ⟨_, _, rfl⟩)
  · cases ha hne with
    | write => exact .inl ⟨_, _, rfl⟩
    | address => exact .inr (.inl ⟨_, rfl⟩)
    | masked => exact .inr (.inr ⟨_, _, rfl⟩)

end Sys2Proof.Machine
end

section
/-! SUPPORT. A WRITE that returns success has sent its whole buffer (R211, R212, R226 (b)): its bookkeeping at each position, kept by the Engine's moves and by the host steps of the WRITE. -/

namespace Sys2Proof.Machine

/-! ### Register writes of a transaction that stop (R100) -/

theorem txnWrite_unmapped (off : Nat) (data : Word) (t : Txn) {s : State} (h : s.mapped = false) :
    txnWrite off data t s = .more (s.raise (.notInitialized off)) := by
  rw [txnWrite, memWrite_unmapped off data h]

theorem txnWrite_active (r : Reg) {data : Word} (t : Txn) {s : State} (h : s.mapped = true)
    (hd : data &&& r.reservedMask = 0#32) (hr : isConfigReg r = true) (he : s.eng ≠ .idle) :
    txnWrite r.offset data t s = .more (s.raise (.configWhileActive r.offset data)) := by
  rw [txnWrite, memWrite_active r h hd hr he]

theorem txnStatus_unmapped {s : State} (k : Word → State → TxnOut) (h : s.mapped = false) :
    txnStatus s k = .more (s.raise (.notInitialized 0x04)) := by
  rw [txnStatus, memRead_unmapped 0x04 s.free h]

/-- Not mapped, a WRITE stops at whatever request it stands at, and nothing else changes. -/
theorem txnStep_write_unmapped {t : Txn} {s : State} (hdir : t.pos.dir = .write) (h : s.mapped = false) :
    ∃ f, txnStep t s = .more (s.raise f) := by
  cases hp : t.pos with
  | wClear | wPush | wLen | wStat | wStart =>
    simp only [txnStep, hp]
    exact ⟨_, txnWrite_unmapped _ _ _ h⟩
  | wPoll =>
    simp only [txnStep, hp]
    exact ⟨_, txnStatus_unmapped _ h⟩
  | rLen | rStat | rStart | rLoop | rTake | rDrain | rDrainTake => simp [hp, TxnPos.dir] at hdir

/-! ### The bookkeeping of a WRITE at each position -/

/-- The bytes that a WRITE sends (R212). -/
def Txn.toSend (t : Txn) : List Byte := t.buffer.take t.length

/-- What a WRITE's descriptor keeps at every position: a length within the contract that fits DLEN (R211). -/
def WriteFrame (t : Txn) (s : State) : Prop :=
  0 < t.length ∧ t.length ≤ s.cfg.fifoDepth ∧ t.length ≤ t.buffer.length ∧ t.length ≤ 0xFFFF

/-- None of DONE, ERR and CLKT is set. -/
def NoFlags (s : State) : Prop := s.done = false ∧ s.err = false ∧ s.clkt = false

/-- ARM has the Engine and the stage to itself, and has queued `bytes` (R212). -/
def Queued (bytes : List Byte) (s : State) : Prop := s.eng = .idle ∧ s.rxStage = none ∧ s.fifo = bytes

/-- The transfer of the WRITE has moved `k` bytes, and the rest is queued. -/
def Moved (t : Txn) (k : Nat) (s : State) : Prop :=
  s.rxStage = none ∧ NoFlags s ∧ s.xRead = false ∧ s.fifo = t.toSend.drop k ∧ s.rem.toNat + k = t.length

/-- The trace ends with the acknowledged address and the first `k` bytes, acknowledged. -/
def Traced (t : Txn) (k : Nat) (s : State) : Prop := writeEvents s.xAddr (t.buffer.take k) <:+ s.trace

/-- The Engine is idle again: an error flag tells of a failure, or everything was sent and STOP followed. -/
def TransferOver (t : Txn) (s : State) : Prop :=
  s.err = true ∨ s.clkt = true ∨ writeEvents s.xAddr t.toSend ++ [.stop] <:+ s.trace

theorem WriteSound.frame {t : Txn} {s : State} (h : WriteSound t s) : WriteFrame t s := by
  obtain ⟨hpos, hdepth, hbuf, hle, -⟩ := h
  exact ⟨hpos, hdepth, hbuf, hle⟩

theorem writeSound_wClear {t : Txn} {s : State} (hp : t.pos = .wClear) : WriteSound t s ↔ WriteFrame t s := by
  simp [WriteSound, WriteFrame, hp]

theorem writeSound_wPush {t : Txn} {s : State} {i : Nat} (hp : t.pos = .wPush i) :
    WriteSound t s ↔ WriteFrame t s ∧ i < t.length ∧ Queued (t.buffer.take i) s := by
  simp [WriteSound, WriteFrame, Queued, hp, and_assoc]

theorem writeSound_wLen {t : Txn} {s : State} (hp : t.pos = .wLen) :
    WriteSound t s ↔ WriteFrame t s ∧ Queued t.toSend s := by
  simp [WriteSound, WriteFrame, Queued, Txn.toSend, hp, and_assoc]

theorem writeSound_wStat {t : Txn} {s : State} (hp : t.pos = .wStat) :
    WriteSound t s ↔ WriteFrame t s ∧ Queued t.toSend s ∧ s.dlenW.toNat = t.length := by
  simp [WriteSound, WriteFrame, Queued, Txn.toSend, hp, and_assoc]

theorem writeSound_wStart {t : Txn} {s : State} (hp : t.pos = .wStart) :
    WriteSound t s ↔ WriteFrame t s ∧ Queued t.toSend s ∧ s.dlenW.toNat = t.length ∧ NoFlags s := by
  simp [WriteSound, WriteFrame, Queued, Txn.toSend, NoFlags, hp, and_assoc]

/-- The bookkeeping of a WRITE that polls, by the Engine's phase. -/
theorem writeSound_addr {t : Txn} {s : State} (hp : t.pos = .wPoll) (he : s.eng = .addr) :
    WriteSound t s ↔ WriteFrame t s ∧ Moved t 0 s := by
  simp [WriteSound, WriteFrame, Moved, NoFlags, Txn.toSend, hp, he, and_assoc]

theorem writeSound_data {t : Txn} {s : State} (hp : t.pos = .wPoll) (he : s.eng = .data) :
    WriteSound t s ↔ WriteFrame t s ∧ ∃ k, k < t.length ∧ Moved t k s ∧ Traced t k s := by
  simp only [WriteSound, WriteFrame, Moved, Traced, NoFlags, Txn.toSend, hp, he, and_assoc]
  constructor
  · rintro ⟨h1, h2, h3, h4, hst, hd, her, hc, hx, k, hk, hf, hr, htr⟩
    exact ⟨h1, h2, h3, h4, k, hk, hst, hd, her, hc, hx, hf, hr, htr⟩
  · rintro ⟨h1, h2, h3, h4, k, hk, hst, hd, her, hc, hx, hf, hr, htr⟩
    exact ⟨h1, h2, h3, h4, hst, hd, her, hc, hx, k, hk, hf, hr, htr⟩

theorem writeSound_idle {t : Txn} {s : State} (hp : t.pos = .wPoll) (he : s.eng = .idle) :
    WriteSound t s ↔ WriteFrame t s ∧ s.rxStage = none ∧ TransferOver t s := by
  simp [WriteSound, WriteFrame, TransferOver, Txn.toSend, hp, he, and_assoc]

theorem writeSound_stalled {t : Txn} {s : State} (hp : t.pos = .wPoll) (he : s.eng = .stalled) :
    WriteSound t s ↔ WriteFrame t s ∧ s.rxStage = none ∧ s.done = false := by
  simp [WriteSound, WriteFrame, hp, he, and_assoc]

/-- After "clear controller state" no byte is staged, and before the poll the Engine is idle (R212). -/
theorem WriteSound.after_clear {t : Txn} {s : State} (h : WriteSound t s) (hclear : t.pos ≠ .wClear) :
    s.rxStage = none ∧ (s.eng = .idle ∨ t.pos = .wPoll) := by
  obtain ⟨-, -, -, -, hpos⟩ := h
  cases hp : t.pos <;> rw [hp] at hpos
  case wClear => exact absurd hp hclear
  case wPush =>
    obtain ⟨-, he, hstage, -⟩ := hpos
    exact ⟨hstage, .inl he⟩
  case wLen | wStat | wStart =>
    obtain ⟨he, hstage, -⟩ := hpos
    exact ⟨hstage, .inl he⟩
  case wPoll =>
    obtain ⟨hstage, -⟩ := hpos
    exact ⟨hstage, .inr rfl⟩
  all_goals exact hpos.elim

/-- While the Engine moves, the WRITE has at least one byte to send. -/
theorem WriteSound.moved {t : Txn} {s : State} (h : WriteSound t s) (hp : t.pos = .wPoll)
    (he : s.eng = .addr ∨ s.eng = .data) : ∃ k, k < t.length ∧ Moved t k s ∧ (s.eng = .data → Traced t k s) := by
  rcases he with he | he
  · obtain ⟨⟨hpos, -⟩, hmoved⟩ := (writeSound_addr hp he).1 h
    exact ⟨0, hpos, hmoved, by simp [he]⟩
  · obtain ⟨-, k, hk, hmoved, htraced⟩ := (writeSound_data hp he).1 h
    exact ⟨k, hk, hmoved, fun _ => htraced⟩

/-! ### The Engine's moves -/

/-- The byte that TXB sends is the next of the buffer (R146). -/
theorem Moved.next_byte {t : Txn} {s : State} {k : Nat} {b : Byte} {rest : List Byte} (h : Moved t k s)
    (hframe : WriteFrame t s) (hk : k < t.length) (hf : s.fifo = b :: rest) :
    rest = t.toSend.drop (k + 1) ∧ t.buffer.take (k + 1) = t.buffer.take k ++ [b] := by
  obtain ⟨-, -, hbuf, -⟩ := hframe
  obtain ⟨-, -, -, hfifo, -⟩ := h
  have hlt : k < t.toSend.length := by
    rw [Txn.toSend, List.length_take]
    omega
  rw [hf, List.drop_eq_getElem_cons hlt, List.cons.injEq] at hfifo
  obtain ⟨rfl, rfl⟩ := hfifo
  refine ⟨rfl, ?_⟩
  rw [List.take_succ_eq_append_getElem (hk.trans_le hbuf)]
  simp [Txn.toSend]

/-- One more acknowledged byte on the wire, and what follows it. -/
theorem Traced.snoc {t : Txn} {s : State} {k : Nat} {b : Byte} (h : Traced t k s)
    (hb : t.buffer.take (k + 1) = t.buffer.take k ++ [b]) (events : List BusEvent) :
    writeEvents s.xAddr (t.buffer.take (k + 1)) ++ events <:+ s.trace ++ .txByte b .ack :: events := by
  obtain ⟨before, hbefore⟩ := h
  exact ⟨before, by simp [← hbefore, hb, writeEvents]⟩

theorem WriteFrame.of_cfg {t : Txn} {s u : State} (h : WriteFrame t s) (hcfg : u.cfg = s.cfg) : WriteFrame t u := by
  unfold WriteFrame at h ⊢
  rwa [hcfg]

/-- A move of the Engine under a WRITE that polls: the next event of its transfer, or an end that a flag tells of, or
a freeze, which never sets DONE. -/
theorem EngineMove.keeps_polling {t : Txn} {s u : State} (hp : t.pos = .wPoll) (h : WriteSound t s)
    (hm : EngineMove s u) : WriteSound t u := by
  obtain ⟨hcfg, -⟩ := hm.host_side
  have hframe := h.frame.of_cfg hcfg
  obtain ⟨k, hk, hmoved, htraced⟩ := h.moved hp hm.active
  have ⟨hstage, hflags, hx, hfifo, hrem⟩ := hmoved
  have ⟨hdone, _, _⟩ := hflags
  cases hm with
  | abandoned v _ _ hv =>
    refine (writeSound_idle hp rfl).2 ⟨hframe, ?_, .inr (.inl rfl)⟩
    rcases hv with ⟨-, rfl⟩ | ⟨-, -, rfl⟩ | ⟨-, -, rfl⟩ <;> exact hstage
  | frozen v hv | endless v hv =>
    refine (writeSound_stalled hp rfl).2 ⟨hframe, ?_⟩
    rcases hv with ⟨-, rfl⟩ | ⟨-, -, rfl⟩ | ⟨-, -, rfl⟩ <;> exact ⟨hstage, hdone⟩
  | addrAck he =>
    obtain ⟨⟨hpos, -⟩, hmoved⟩ := (writeSound_addr hp he).1 h
    refine (writeSound_data hp rfl).2 ⟨hframe, 0, hpos, hmoved, ⟨s.trace, ?_⟩⟩
    simp [writeEvents, hx]
  | addrNack => exact (writeSound_idle hp rfl).2 ⟨hframe, hstage, .inl rfl⟩
  | txMore he _ b rest hf hr =>
    obtain ⟨hrest, hnext⟩ := hmoved.next_byte h.frame hk hf
    obtain ⟨hrem', hlt⟩ : (s.rem - 1#16).toNat + (k + 1) = t.length ∧ k + 1 < t.length := by bv_omega
    refine (writeSound_data hp ?_).2 ⟨hframe, k + 1, hlt, ⟨hstage, hflags, hx, hrest, hrem'⟩, ?_⟩
    · exact he
    · simpa [Traced] using (htraced he).snoc hnext []
  | txLast he _ b rest hf hr =>
    obtain ⟨-, hnext⟩ := hmoved.next_byte h.frame hk hf
    have hlast : k + 1 = t.length := by
      rw [hr] at hrem
      exact (Nat.add_comm k 1).trans hrem
    refine (writeSound_idle hp rfl).2 ⟨hframe, hstage, .inr (.inr ?_)⟩
    simpa only [Txn.toSend, hlast] using (htraced he).snoc hnext [.stop]
  | txNack => exact (writeSound_idle hp rfl).2 ⟨hframe, hstage, .inl rfl⟩
  | rxMore _ hx' | rxLast _ hx' => simp [hx] at hx'

theorem EngineMove.keeps_writeSound {t : Txn} {s u : State} (h : WriteSound t s) (hm : EngineMove s u) :
    WriteSound t u := by
  obtain ⟨hcfg, -⟩ := hm.host_side
  by_cases hclear : t.pos = .wClear
  · exact (writeSound_wClear hclear).2 (h.frame.of_cfg hcfg)
  · obtain ⟨-, hidle | hpoll⟩ := h.after_clear hclear
    · have hactive := hm.active
      simp [hidle] at hactive
    · exact hm.keeps_polling hpoll h

/-- RXC has no step once the WRITE has emptied the stage (R150, R212). -/
theorem commit_keeps_writeSound {t : Txn} {s : State} {v : Byte} (d : Draws) (h : WriteSound t s)
    (hv : s.rxStage = some v) : WriteSound t { s with fifo := appended d v s, rxStage := none } := by
  by_cases hclear : t.pos = .wClear
  · exact (writeSound_wClear hclear).2 h.frame
  · obtain ⟨hstage, -⟩ := h.after_clear hclear
    simp [hstage] at hv

/-! ### The host steps of a WRITE -/

/-- Nothing of a WRITE's bookkeeping is in the fields that a host step writes beside its register access. -/
theorem WriteSound.of_side {t : Txn} {s u : State} (h : WriteSound t s) (hs : HostSide s u) : WriteSound t u := by
  obtain ⟨m, p, f, r, c, v, rfl, -⟩ := hs
  exact h

/-- What a host step of the WRITE `t` leaves while it goes on: the same call, or its next descriptor, with its
bookkeeping. -/
def WriteOut (t : Txn) (s : State) : TxnOut → Prop
  | .more u => (u.call = s.call ∧ WriteSound t u) ∨ ∃ t', u.call = some (.txn t') ∧ WriteSound t' u
  | .wrote _ _ | .got _ _ => True

theorem writeOut_goOn {t t' : Txn} {s u : State} (h : WriteSound t' u) : WriteOut t s (goOn t' u) :=
  .inr ⟨t', rfl, h⟩

theorem writeOut_raise {t : Txn} {s : State} (f : Fault) (h : WriteSound t s) : WriteOut t s (.more (s.raise f)) :=
  .inl ⟨rfl, h.of_side (.raise f s)⟩

/-- With the bytes up to `i` queued the next push stands, or the write of DLEN (R212). -/
theorem writeSound_pushed {t : Txn} {s : State} {i : Nat} (hframe : WriteFrame t s) (hi : i < t.length)
    (hq : Queued (t.buffer.take (i + 1)) s) :
    WriteSound { t with pos := if i + 1 < t.length then .wPush (i + 1) else .wLen } s := by
  split
  · next hmore => exact (writeSound_wPush rfl).2 ⟨hframe, hmore, hq⟩
  · next hlast =>
    have hlen : i + 1 = t.length := by omega
    refine (writeSound_wLen rfl).2 ⟨hframe, ?_⟩
    rwa [hlen] at hq

theorem txnStep_wClear_writeOut {t : Txn} {s : State} (hmap : s.mapped = true) (hp : t.pos = .wClear)
    (h : WriteSound t s) : WriteOut t s (txnStep t s) := by
  have hframe := h.frame
  have ⟨hpos, _⟩ := hframe
  simp only [txnStep, hp]
  by_cases he : s.eng = .idle
  · rw [txnWrite_clearFifo hmap he]
    exact writeOut_goOn ((writeSound_wPush rfl).2 ⟨hframe, hpos, he, rfl, rfl⟩)
  · have hstop := txnWrite_active .C (data := 0x00000010#32) { t with pos := .wPush 0 } hmap (by decide) rfl he
    exact hstop ▸ writeOut_raise _ h

theorem txnStep_wPush_writeOut {t : Txn} {s : State} {i : Nat} (hmap : s.mapped = true) (hp : t.pos = .wPush i)
    (h : WriteSound t s) : WriteOut t s (txnStep t s) := by
  obtain ⟨hframe, hi, he, hstage, hfifo⟩ := (writeSound_wPush hp).1 h
  have ⟨_, hdepth, hbuf, _⟩ := hframe
  have hlt : i < t.buffer.length := hi.trans_le hbuf
  have hroom : s.fifo.length < s.cfg.fifoDepth := by
    rw [hfifo, List.length_take]
    omega
  simp only [txnStep, hp]
  rw [txnWrite_push _ hmap he hroom]
  refine writeOut_goOn (writeSound_pushed hframe hi ⟨he, hstage, ?_⟩)
  rw [List.take_succ_eq_append_getElem hlt, List.getD_eq_getElem _ _ hlt, hfifo]

theorem txnStep_wStart_writeOut {t : Txn} {s : State} (hrun : s.running = true) (hmap : s.mapped = true)
    (hp : t.pos = .wStart) (h : WriteSound t s) : WriteOut t s (txnStep t s) := by
  obtain ⟨hframe, ⟨he, hstage, hfifo⟩, hlen, hflags⟩ := (writeSound_wStart hp).1 h
  have ⟨hpos, _⟩ := hframe
  have hne : s.dlenW ≠ 0#16 := by
    rintro h0
    simp only [h0, BitVec.toNat_zero] at hlen
    omega
  simp only [txnStep, hp]
  cases hpins : s.pinsRouted with
  | true =>
    rw [txnWrite_startWrite hmap he hpins hne]
    exact writeOut_goOn ((writeSound_addr rfl rfl).2 ⟨hframe, hstage, hflags, rfl, hfifo, hlen⟩)
  | false =>
    rw [txnWrite_startWrite_notRouted ⟨⟨hrun, hmap⟩, he⟩ hpins hne]
    exact .inl ⟨rfl, h⟩

/-- Every host step of a WRITE keeps its bookkeeping. -/
theorem txnStep_writeOut {t : Txn} {s : State} (hrun : s.running = true) (hdir : t.pos.dir = .write)
    (h : WriteSound t s) : WriteOut t s (txnStep t s) := by
  cases hmap : s.mapped with
  | false =>
    obtain ⟨f, hf⟩ := txnStep_write_unmapped hdir hmap
    rw [hf]
    exact writeOut_raise f h
  | true =>
    cases hp : t.pos with
    | wClear => exact txnStep_wClear_writeOut hmap hp h
    | wPush i => exact txnStep_wPush_writeOut hmap hp h
    | wLen =>
      obtain ⟨hframe, he, hstage, hfifo⟩ := (writeSound_wLen hp).1 h
      have ⟨_, _, _, hle⟩ := hframe
      simp only [txnStep, hp]
      rw [txnWrite_length hmap he hle]
      refine writeOut_goOn ((writeSound_wStat rfl).2 ⟨hframe, ⟨he, hstage, hfifo⟩, ?_⟩)
      simp only [BitVec.toNat_ofNat]
      omega
    | wStat =>
      obtain ⟨hframe, ⟨he, hstage, hfifo⟩, hlen⟩ := (writeSound_wStat hp).1 h
      simp only [txnStep, hp]
      rw [txnWrite_clearStatus hmap he]
      exact writeOut_goOn ((writeSound_wStart rfl).2 ⟨hframe, ⟨he, hstage, hfifo⟩, hlen, rfl, rfl, rfl⟩)
    | wStart => exact txnStep_wStart_writeOut hrun hmap hp h
    | wPoll =>
      rw [txnStep_wPoll hmap hp]
      split
      · trivial
      · split
        · trivial
        · split
          · trivial
          · exact writeOut_goOn h
    | rLen | rStat | rStart | rLoop | rTake | rDrain | rDrainTake => simp [hp, TxnPos.dir] at hdir

/-! ### The host steps of an instruction -/

/-- The WRITE that runs, if any, has its bookkeeping. -/
def WritesSound (s : State) : Prop := ∀ t, s.call = some (.txn t) → t.dir = .write → WriteSound t s

theorem writesSound_of_no_write {s : State} (h : ∀ t, s.call = some (.txn t) → t.dir ≠ .write) : WritesSound s :=
  fun t hc hd => absurd hd (h t hc)

theorem writesSound_of_txn {s : State} {t : Txn} (hc : s.call = some (.txn t)) (h : WriteSound t s) :
    WritesSound s := by
  intro t' hc' _
  rw [hc] at hc'
  cases hc'
  exact h

/-- A step of the transaction `t`, the one that runs or a new one where none runs, keeps the bookkeeping. -/
theorem txnStep_keeps_writesSound {t : Txn} {s u : State} (hrun : s.running = true) (hpos : t.pos.dir = t.dir)
    (hcall : ∀ t', s.call = some (.txn t') → t' = t) (hwrite : t.dir = .write → WriteSound t s)
    (hu : txnStep t s = .more u) : WritesSound u := by
  cases hd : t.dir with
  | read =>
    have hc := txnStep_call t s hpos
    rw [hu] at hc
    refine writesSound_of_no_write fun t' ht' => ?_
    rcases hc with hsame | ⟨t'', ht'', hdir, -⟩
    · simp [hcall t' (hsame ▸ ht'), hd]
    · rw [ht''] at ht'
      cases ht'
      simp [hdir, hd]
  | write =>
    have ho := txnStep_writeOut hrun (hpos.trans hd) (hwrite hd)
    rw [hu] at ho
    rcases ho with ⟨hsame, hs⟩ | ⟨t', ht', hs⟩
    · exact fun t' ht' _ => hcall t' (hsame ▸ ht') ▸ hs
    · exact writesSound_of_txn ht' hs

/-- A WRITE within its contract opens soundly where a full FIFO's length fits DLEN (R211). -/
theorem OpensTxn.write_sound {new : Txn} {s : State} (h : OpensTxn new) (hdepth : s.cfg.fifoDepth ≤ 0xFFFF)
    (hv : new.violates s = false) (hd : new.dir = .write) : WriteSound new s := by
  rcases h with ⟨bytes, n, rfl⟩ | ⟨_, rfl⟩
  · have hv : (n ≠ 0 ∧ n ≤ s.cfg.fifoDepth) ∧ n ≤ bytes.length := by simpa [Txn.violates, writeTxn] using hv
    obtain ⟨⟨hpos, hle⟩, hbuf⟩ := hv
    exact (writeSound_wClear rfl).2 ⟨Nat.pos_of_ne_zero hpos, hle, hbuf, hle.trans hdepth⟩
  · cases hd

theorem advance_keeps_writesSound {new : Txn} {i : Instr} {s u : State} (hnew : OpensTxn new) (hcall : CallOf i s)
    (hrun : s.running = true) (hdepth : s.cfg.fifoDepth ≤ 0xFFFF) (h : WritesSound s)
    (hu : advance new s = .more u) : WritesSound u := by
  rcases advance_call new i s hcall hnew.pos_dir with ⟨t, hc, ha, -⟩ | ⟨-, -, ha⟩ | ⟨hn, hv, ha, -⟩ <;> rw [ha] at hu
  · refine txnStep_keeps_writesSound hrun (hcall.txn hc) (fun t' hc' => ?_) (h t hc) hu
    rw [hc] at hc'
    cases hc'
    rfl
  · cases hu
    exact fun t hc hd => (h t hc hd).of_side (.raise _ s)
  · exact txnStep_keeps_writesSound hrun hnew.pos_dir (fun t' hc' => absurd hc' (hn t'))
      (hnew.write_sound hdepth hv) hu

/-- One host step of any instruction keeps the bookkeeping of the WRITE that runs. -/
theorem exec_keeps_writesSound {i : Instr} {s u : State} (hcall : CallOf i s) (hdepth : s.cfg.fifoDepth ≤ 0xFFFF)
    (h : WritesSound s) (he : exec i s = .next u) : WritesSound u := by
  have ⟨hrun, _⟩ := exec_effect he
  cases hi : isTransaction i with
  | false =>
    refine writesSound_of_no_write fun t hc => ?_
    have howns := (exec_call hcall he _ hc).1
    simp [isTransaction_of_owns_txn howns] at hi
  | true =>
    rcases exec_transaction_advances hi he with ⟨new, hnew, ha⟩ | hnone | ⟨n, hread⟩
    · exact advance_keeps_writesSound hnew hcall hrun hdepth h ha
    · exact writesSound_of_no_write (by simp [hnone])
    · refine writesSound_of_no_write fun t hc => ?_
      rw [hread] at hc
      cases hc
      nofun

/-! ### Every step -/

/-- The part of `WriteTracked` beside `CallOwned` and the depth lasts through every step. -/
theorem step_keeps_writesSound {s t : State} (howned : CallOwned s) (hdepth : s.cfg.fifoDepth ≤ 0xFFFF)
    (h : WritesSound s) (hs : step s = .next t) : WritesSound t := by
  rcases step_cases hs with
    ⟨hp, rfl⟩ | ⟨hc, rfl⟩ | ⟨r, -, rfl⟩ | ⟨i, dst, u, -, hi, he, rfl⟩ | ⟨-, -, l, p, rfl⟩ | rfl
  · have hm := phaseStep_move s.free s hp
    obtain ⟨-, hcall, -⟩ := hm.host_side
    intro x hx hd
    have hx : s.call = some (.txn x) := hcall ▸ hx
    have hu : WriteSound x (phaseStep s.free s) := hm.keeps_writeSound (h x hx hd)
    exact hu
  · obtain ⟨v, hv, he⟩ := commitStep_move s.free hc
    rw [he]
    exact fun x hx hd => commit_keeps_writeSound s.free (h x hx hd) hv
  · exact h
  · have hu := exec_keeps_writesSound (owned_of howned hi) hdepth h he
    rcases endStep_cases dst u with h' | ⟨-, -, l, p, h'⟩ <;> rw [h'] <;> exact hu
  · exact h
  · exact h

/-- No step changes the parameters (log entry 4). -/
theorem step_cfg {s t : State} (hs : step s = .next t) : t.cfg = s.cfg := by
  refine step_keeps (fun u => u.cfg = s.cfg) (fun _ _ h => h) (fun _ _ _ h => h) ?_ ?_ ?_ (fun _ _ _ h _ => h) rfl hs
  · rintro u v h ⟨_, _, _, _, _, _, rfl, -⟩
    exact h
  · rintro u v h hr
    obtain ⟨hcfg, -⟩ := hr.host_side
    exact hcfg.trans h
  · rintro u v h hm
    obtain ⟨hcfg, -⟩ := hm.host_side
    exact hcfg.trans h

/-! ### What a WRITE returns -/

/-- A WRITE that returns `Ok` at a poll has found DONE set and no error flag (R214, R223). -/
theorem exec_write_returns {s t : State} {x : Txn} {buffer : List Byte} {length n : Nat}
    (hc : s.call = some (.txn x)) (hp : x.pos = .wPoll) (he : exec (.write buffer length) s = .next t)
    (hret : Returned (.ok (.nat n)) t) :
    s.err = false ∧ s.clkt = false ∧ s.done = true ∧ t.trace = s.trace := by
  rw [exec_write_of_call buffer length (exec_effect he).1 hc] at he
  cases he
  obtain ⟨hnone, hres⟩ := hret
  cases hm : s.mapped with
  | false =>
    obtain ⟨f, hf⟩ := txnStep_write_unmapped (by rw [hp]; rfl) hm
    simp [hf, endTxn, hc] at hnone
  | true =>
    rw [txnStep_wPoll hm hp] at hnone hres ⊢
    cases herr : s.err with
    | true => simp [herr, endTxn, State.retErr] at hres
    | false =>
      cases hclkt : s.clkt with
      | true => simp [herr, hclkt, endTxn, State.retErr] at hres
      | false =>
        cases hdone : s.done with
        | true => simp [endTxn, State.retOk]
        | false => simp [herr, hclkt, hdone, goOn, endTxn] at hnone

/-- DONE without an error flag, under a WRITE that polls: everything was sent, and STOP followed. -/
theorem WriteSound.sent_all {t : Txn} {s : State} (h : WriteSound t s) (hp : t.pos = .wPoll) (herr : s.err = false)
    (hclkt : s.clkt = false) (hdone : s.done = true) : writeEvents s.xAddr t.toSend ++ [.stop] <:+ s.trace := by
  cases he : s.eng with
  | addr | data =>
    obtain ⟨k, -, ⟨-, ⟨hnot, -⟩, -⟩, -⟩ := h.moved hp (by simp [he])
    simp [hdone] at hnot
  | stalled =>
    obtain ⟨-, -, hnot⟩ := (writeSound_stalled hp he).1 h
    simp [hdone] at hnot
  | idle =>
    obtain ⟨-, -, hover⟩ := (writeSound_idle hp he).1 h
    simpa [TransferOver, herr, hclkt] using hover

/-- Settles O44, from how each kind of step keeps the bookkeeping, and from what the last step of a WRITE found. -/
theorem writeSuccessMeansAllBytesAcknowledged : Obligations.WriteSuccessMeansAllBytesAcknowledged := by
  refine ⟨?_, ?_⟩
  · rintro s t ⟨howned, hdepth, hsound⟩ - hs
    exact ⟨step_owned howned hs, by rwa [step_cfg hs], step_keeps_writesSound howned hdepth hsound hs⟩
  · rintro s t x buffer length ⟨howned, -, hsound⟩ hc hp he hret
    have hd : x.dir = .write := by rw [← (howned _ hc).2 x rfl, hp]; rfl
    obtain ⟨herr, hclkt, hdone, htrace⟩ := exec_write_returns hc hp he hret
    rw [htrace]
    exact (hsound x hc hd).sent_all hp herr hclkt hdone

end Sys2Proof.Machine
end

section
/-! SUPPORT. The contract of WRITE and READ and their first request (R211, R215, R293), READ's ARM, and one iteration of each polling loop (R213 to R223). -/

namespace Sys2Proof.Machine

/-! ### The contract and the first request (R100, R211, R215, R225) -/

/-- Outside its contract a transaction records ContractViolation before any request. -/
theorem advance_violates {new : Txn} {s : State} (hrun : s.running = true) (hcall : s.call = none)
    (hv : new.violates s = true) :
    endTxn (advance new s) = { s with faults := [.contractViolation new.length] } := by
  have hadv : advance new s = .more (s.raise (.contractViolation new.length)) := by simp [advance, hcall, hv]
  rw [hadv, ← raise_of_running hrun]
  rfl

theorem exec_write_violates {buffer : List Byte} {length : Nat} {s : State} (hrun : s.running = true)
    (hcall : s.call = none) (hv : (writeTxn buffer length).violates s = true) :
    exec (.write buffer length) s = .next { s with faults := [.contractViolation length] } := by
  rw [exec, execWrite, whenRunning_of_running hrun, advance_violates hrun hcall hv]
  rfl

theorem exec_read_violates {length : Nat} {s : State} (hrun : s.running = true) (hcall : s.call = none)
    (hv : (readTxn length).violates s = true) :
    exec (.read length) s = .next { s with faults := [.contractViolation length] } := by
  rw [exec, execRead, whenRunning_of_running hrun, advance_violates hrun hcall hv]
  rfl

/-- A WRITE within its contract whose first request stops records that request's fault. -/
theorem exec_write_first_stops {buffer : List Byte} {length : Nat} {s : State} {f : Fault} (hrun : s.running = true)
    (hcall : s.call = none) (hpos : 0 < length) (hdepth : length ≤ s.cfg.fifoDepth) (hbuf : length ≤ buffer.length)
    (hstop : ∀ t, txnWrite 0x00 0x00000010#32 t s = .more (s.raise f)) :
    exec (.write buffer length) s = .next { s with faults := [f] } := by
  have hstep : txnStep (writeTxn buffer length) s = .more (s.raise f) := hstop _
  rw [exec_write_opens hrun hcall hpos hdepth hbuf, hstep, ← raise_of_running hrun f]
  rfl

theorem exec_read_first_stops {length : Nat} {s : State} {f : Fault} (hrun : s.running = true) (hcall : s.call = none)
    (hpos : 0 < length) (hlen : length ≤ 0xFFFF)
    (hstop : ∀ t, txnWrite 0x08 (BitVec.ofNat 32 length) t s = .more (s.raise f)) :
    exec (.read length) s = .next { s with faults := [f] } := by
  have hstep : txnStep (readTxn length) s = .more (s.raise f) := hstop _
  rw [exec_read_opens hrun hcall hpos hlen, hstep, ← raise_of_running hrun f]
  rfl

/-- Settles O47: the contract first, then the checks of R100 at the first request. -/
theorem transactionPreconditions : Obligations.TransactionPreconditions := by
  intro s buffer length hrun hcall
  refine ⟨fun h => ?_, fun h => ?_, fun hpos hdepth hbuf => ⟨fun hmap => ?_, fun hmap he => ?_⟩,
    fun hpos hlen => ⟨fun hmap => ?_, fun hmap he => ?_⟩⟩
  · refine exec_write_violates hrun hcall ?_
    simpa [Txn.violates, writeTxn, or_assoc] using h
  · refine exec_read_violates hrun hcall ?_
    simpa [Txn.violates, readTxn] using h
  · exact exec_write_first_stops hrun hcall hpos hdepth hbuf fun t => txnWrite_unmapped _ _ t hmap
  · exact exec_write_first_stops hrun hcall hpos hdepth hbuf fun t => txnWrite_active .C t hmap (by decide) rfl he
  · exact exec_read_first_stops hrun hcall hpos hlen fun t => txnWrite_unmapped _ _ t hmap
  · exact exec_read_first_stops hrun hcall hpos hlen fun t =>
      txnWrite_active .DLEN t hmap (length_reserved hlen) rfl he

/-! ### READ, ARM with the lines not routed (R142, R216) -/

/-- The start stores its control bits and does its CLEAR before it stops (R102, R142). -/
theorem txnWrite_startRead_notRouted {s : State} (hs : Configurable s) (hpins : s.pinsRouted = false)
    (hlen : s.dlenW ≠ 0#16) (t : Txn) :
    txnWrite 0x00 0x00008091#32 t s = .more { s with
      cI2cen := true, cIntr := false, cIntt := false, cIntd := false, cRead := true, fifo := [], rxStage := none
      faults := [.busNotRouted] } := by
  obtain ⟨⟨hrun, hmap⟩, he⟩ := hs
  have hstart : writeReg .C 0x00008091#32 s =
      .stop ((clearFifo (storeControl 0x00008091#32 s)).raise .busNotRouted) :=
    startTransfer_notRouted (s := clearFifo (storeControl 0x00008091#32 s)) 0x00008091#32 rfl hlen hpins
  rw [show (0x00 : Nat) = Reg.C.offset from rfl, txnWrite_register .C hmap he (by decide), hstart]
  exact congrArg TxnOut.more (raise_of_running (s := clearFifo (storeControl 0x00008091#32 s)) hrun _)

theorem exec_read_start_notRouted {length : Nat} {s : State} (hs : Configurable s) (hpins : s.pinsRouted = false)
    (hlen : s.dlenW ≠ 0#16) (hcall : s.call = some (.txn (readAt length .rStart))) :
    exec (.read length) s = .next { s with
      cI2cen := true, cIntr := false, cIntt := false, cIntd := false, cRead := true, fifo := [], rxStage := none
      faults := [.busNotRouted] } := by
  have hstep : txnStep (readAt length .rStart) s = .more { s with
      cI2cen := true, cIntr := false, cIntt := false, cIntd := false, cRead := true, fifo := [], rxStage := none
      faults := [.busNotRouted] } := txnWrite_startRead_notRouted hs hpins hlen _
  obtain ⟨⟨hrun, -⟩, -⟩ := hs
  rw [exec_read_of_call length hrun hcall, hstep]
  rfl

/-- Settles O49: ARM up to its start, and the start with the lines routed and not routed. -/
theorem readArms : Obligations.ReadArms := by
  intro s length hs hcall hpos hlen descriptor armed
  refine ⟨fun hpins => execN_read_arms hs hpins hcall hpos hlen, fun hpins => ?_⟩
  rw [execN_add (execN_read_before_start hs hcall hpos hlen) 1]
  refine execN_cons (exec_read_start_notRouted ?_ ?_ ?_ rfl) 0
  · exact hs
  · exact hpins
  · exact length_ne_zero hpos hlen

/-! ### WRITE, POLL (R213, R214, R223) -/

/-- Settles O50: `txnStep_wPoll` for each of the four outcomes. -/
theorem writePolls : Obligations.WritePolls := by
  intro s x buffer length ⟨hrun, hmap⟩ hcall hp
  rw [exec_write_of_call buffer length hrun hcall, txnStep_wPoll hmap hp]
  refine ⟨fun hdone herr hclkt => ⟨readS s.free s, ?_⟩, fun herr => ?_, fun herr hclkt => ?_,
    fun herr hclkt hdone => ?_⟩
  · simp [hdone, herr, hclkt, goOn, endTxn]
  · simp [herr, endTxn, State.retErr, State.ret]
  · simp [herr, hclkt, endTxn, State.retErr, State.ret]
  · simp [herr, hclkt, hdone, endTxn, State.retOk, State.ret]

/-! ### READ, LOOP (R217, R218, R223) -/

/-- Settles O51: `txnStep_rLoop` for each of its outcomes, and the flags of the snapshot (R25). -/
theorem readPolls : Obligations.ReadPolls := by
  intro s x length hs hcall hp
  refine ⟨fun hf => ⟨readS s.free s, exec_read_loop hs hcall hp hf, by simp, by simp, by simp⟩, fun hf => ?_⟩
  rw [exec_read_of_call length hs.1 hcall, txnStep_rLoop hs.2 hp, if_neg (by simp [hf])]
  refine ⟨fun hdone herr hclkt => ⟨readS s.free s, ?_⟩, fun herr => ?_, fun herr hclkt => ?_,
    fun herr hclkt hdone => ⟨readS s.free s, ?_⟩⟩
  · simp [hdone, herr, hclkt, goOn, endTxn]
  · simp [herr, endTxn, State.retErr, State.ret]
  · simp [herr, hclkt, endTxn, State.retErr, State.ret]
  · simp [herr, hclkt, hdone, goOn, endTxn]

/-! ### Taking one byte (R221) -/

/-- READ's terminal test: the outcomes of R217 and R218, in the order of R223. -/
theorem testSnapshot_eq (t : Txn) (s : State) :
    testSnapshot t s =
      if t.snap.getLsbD 8 then .got (.error .ackError) s
      else if t.snap.getLsbD 9 then .got (.error .timeoutError) s
      else if t.snap.getLsbD 1 then goOn { t with pos := .rDrain } s
      else goOn { t with pos := .rLoop } s := by
  rw [testSnapshot, terminal_eq, classify]
  cases t.snap.getLsbD 8 <;> cases t.snap.getLsbD 9 <;> cases t.snap.getLsbD 1 <;> rfl

/-- The mask 0x302 selects the three flags. -/
theorem noFlags_of_and_mask {v : Word} (h : v &&& 0x302#32 = 0#32) :
    v.getLsbD 8 = false ∧ v.getLsbD 9 = false ∧ v.getLsbD 1 = false := by
  have hterm : (v.getLsbD 1 || v.getLsbD 8 || v.getLsbD 9) = false := by
    rw [← terminal_eq, terminal, h]
    rfl
  simp only [Bool.or_eq_false_iff] at hterm
  obtain ⟨⟨h1, h8⟩, h9⟩ := hterm
  exact ⟨h8, h9, h1⟩

/-- A byte beyond the buffer: BufferOverflow, and neither the FIFO nor the buffer changes. -/
theorem exec_read_overflow {length : Nat} {s : State} {x : Txn} (hrun : s.running = true)
    (hcall : s.call = some (.txn x)) (hp : x.pos = .rTake ∨ x.pos = .rDrainTake) (hl : x.count ≥ x.length) :
    exec (.read length) s = .next { s with faults := [.bufferOverflow x.count x.length] } := by
  have hstep : txnStep x s = .more (s.raise (.bufferOverflow x.count x.length)) := by
    rcases hp with hp | hp <;> simp only [txnStep, hp] <;> exact takeOne_full hl _
  rw [exec_read_of_call length hrun hcall, hstep, ← raise_of_running hrun]
  rfl

/-- A byte taken in the loop, and then the test of the snapshot that showed it. -/
theorem exec_read_take_tests {length : Nat} {s : State} {x : Txn} {b : Byte} {rest : List Byte} (hs : Ready s)
    (hcall : s.call = some (.txn x)) (hp : x.pos = .rTake) (hf : s.fifo = b :: rest)
    (hd : s.eng = .idle ∨ s.xRead = true) (hl : x.count < x.length) :
    exec (.read length) s = .next (endTxn (testSnapshot (x.take b) { s with fifo := rest })) := by
  obtain ⟨hrun, hmap⟩ := hs
  have hstep : txnStep x s = testSnapshot (x.take b) { s with fifo := rest } := by
    simp only [txnStep, hp]
    exact takeOne_eq hmap hf hd hl _
  rw [exec_read_of_call length hrun hcall, hstep]

/-- Settles O52: the overflow check, and the four outcomes of the terminal test. -/
theorem readTakesOne : Obligations.ReadTakesOne := by
  intro s x length b rest hs hcall hp hf hd taken
  refine ⟨exec_read_overflow hs.1 hcall (.inl hp), fun hl => ?_⟩
  rw [exec_read_take_tests hs hcall hp hf hd hl, testSnapshot_eq]
  have hsnap : (x.take b).snap = x.snap := rfl
  rw [hsnap]
  refine ⟨fun hnone => ?_, fun h8 => ?_, fun h8 h9 => ?_, fun h8 h9 h1 => ?_⟩
  · obtain ⟨h8, h9, h1⟩ := noFlags_of_and_mask hnone
    rw [h8, h9, h1]
    rfl
  · rw [h8]
    rfl
  · rw [h8, h9]
    rfl
  · rw [h8, h9, h1]
    rfl

/-! ### READ, DRAIN (R219, R220) -/

/-- A byte taken in the drain, whose next step is the next snapshot. -/
theorem exec_read_drain_take_of_dir {length : Nat} {s : State} {x : Txn} {b : Byte} {rest : List Byte} (hs : Ready s)
    (hcall : s.call = some (.txn x)) (hp : x.pos = .rDrainTake) (hf : s.fifo = b :: rest)
    (hd : s.eng = .idle ∨ s.xRead = true) (hl : x.count < x.length) :
    exec (.read length) s = .next { s with fifo := rest, call := some (.txn { x.take b with pos := .rDrain }) } := by
  have hstep : txnStep x s = goOn { x.take b with pos := .rDrain } { s with fifo := rest } := by
    simp only [txnStep, hp]
    exact takeOne_eq hs.2 hf hd hl _
  exact exec_read_goes_on hs.1 hcall hstep

/-- Settles O53: a snapshot with a byte, the one without, and the take after the first. -/
theorem readDrains : Obligations.ReadDrains := by
  intro s x length hs hcall
  refine ⟨fun hp hf => ⟨_, exec_read_drain hs hcall hp hf⟩, fun hp hf => exec_read_drained hs hcall hp hf,
    fun hp b rest hf hd => ⟨fun hl => exec_read_drain_take_of_dir hs hcall hp hf hd hl, fun hl => ?_⟩⟩
  exact exec_read_overflow hs.1 hcall (.inr hp) hl

end Sys2Proof.Machine
end

section
/-! SUPPORT. The commands that are one WRITE (R261, R262, R263): ARM takes the host steps of its WRITE, and a poll returns what the WRITE's poll does. -/

namespace Sys2Proof.Machine

/-! ### ARM takes the steps of the WRITE (R212) -/

/-- At least so many host steps of a WRITE are left before its first poll. -/
def Txn.armLeft (t : Txn) : Nat :=
  match t.pos with
  | .wClear => t.length + 4
  | .wPush k => t.length - k + 3
  | .wLen => 3
  | .wStat => 2
  | .wStart => 1
  | _ => 0

/-- The same of the state: where no transaction runs, one of `length` bytes is about to open. -/
def armLeft (length : Nat) (s : State) : Nat :=
  match s.call with
  | some (.txn t) => t.armLeft
  | _ => length + 4

theorem armLeft_of_txn (length : Nat) {s : State} {t : Txn} (h : s.call = some (.txn t)) :
    armLeft length s = t.armLeft := by
  rw [armLeft, h]

theorem armLeft_congr (length : Nat) {s u : State} (h : u.call = s.call) : armLeft length u = armLeft length s := by
  rw [armLeft, armLeft, h]

/-- A register write never ends a transaction. -/
theorem txnWrite_more (off : Nat) (data : Word) (t : Txn) (s : State) :
    ∃ u, txnWrite off data t s = .more u ∧ (u.call = s.call ∨ u.call = some (.txn t)) := by
  have hsound := memWrite_sound off data s
  unfold txnWrite
  cases hw : memWrite off data s with
  | ok v u => exact ⟨_, rfl, .inr rfl⟩
  | stop u =>
    rw [hw] at hsound
    exact ⟨u, rfl, .inl hsound.call.1⟩

/-- A host step of ARM goes on, and is one of those left before the first poll. -/
theorem txnStep_arms {t : Txn} (s : State) (h : 0 < t.armLeft) :
    ∃ u, txnStep t s = .more u ∧ (u.call = s.call ∨ ∃ t', u.call = some (.txn t') ∧ t.armLeft ≤ t'.armLeft + 1) := by
  obtain ⟨off, data, t', hstep, hleft⟩ :
      ∃ off data t', txnStep t s = txnWrite off data t' s ∧ t.armLeft ≤ t'.armLeft + 1 := by
    cases hp : t.pos with
    | wPush k =>
      refine ⟨_, _, _, by rw [txnStep, hp], ?_⟩
      by_cases hk : k + 1 < t.length
      · simp only [Txn.armLeft, hp, if_pos hk]
        omega
      · simp only [Txn.armLeft, hp, if_neg hk]
        omega
    | wClear | wLen | wStat | wStart => exact ⟨_, _, _, by rw [txnStep, hp], by simp [Txn.armLeft, hp]⟩
    | _ => simp [Txn.armLeft, hp] at h
  obtain ⟨u, hu, hcall⟩ := txnWrite_more off data t' s
  exact ⟨u, hstep.trans hu, hcall.imp_right fun hc => ⟨t', hc, hleft⟩⟩

/-- The transaction that `advance` runs for a WRITE has as many steps of ARM left as the state; or it stops at the
contract. -/
theorem advance_armLeft_cases (buffer : List Byte) (length : Nat) (s : State) :
    (∃ f, advance (writeTxn buffer length) s = .more (s.raise f)) ∨
      ∃ t, armLeft length s = t.armLeft ∧ advance (writeTxn buffer length) s = txnStep t s := by
  unfold advance
  split
  · next t hc => exact .inr ⟨t, armLeft_of_txn length hc, rfl⟩
  · next hn =>
    split
    · exact .inl ⟨_, rfl⟩
    · refine .inr ⟨writeTxn buffer length, ?_, rfl⟩
      unfold armLeft
      split
      · next t hc => exact absurd hc (hn t)
      · rfl

theorem advance_arms {buffer : List Byte} {length : Nat} {s : State} (h : 0 < armLeft length s) :
    ∃ u, advance (writeTxn buffer length) s = .more u ∧ armLeft length s ≤ armLeft length u + 1 := by
  rcases advance_armLeft_cases buffer length s with ⟨f, hadv⟩ | ⟨t, hleft, hadv⟩
  · exact ⟨_, hadv, Nat.le_succ _⟩
  · obtain ⟨u, hu, hcall⟩ := txnStep_arms s (hleft ▸ h)
    refine ⟨u, hadv.trans hu, ?_⟩
    rcases hcall with hsame | ⟨t', ht', hle⟩
    · rw [armLeft_congr length hsame]
      exact Nat.le_succ _
    · rwa [hleft, armLeft_of_txn length ht']

/-- The procedure goes on with the WRITE of `bytes` as WRITE itself does. -/
def RunsWrite (i : Instr) (bytes : List Byte) : Prop :=
  ∀ s u, s.running = true → advance (writeTxn bytes bytes.length) s = .more u → exec i s = .next u

theorem exec_of_arms {i : Instr} {bytes : List Byte} (hi : RunsWrite i bytes) {s : State}
    (h : 0 < armLeft bytes.length s) :
    exec i s = exec (.write bytes bytes.length) s ∧
      ∀ u, exec i s = .next u → armLeft bytes.length s ≤ armLeft bytes.length u + 1 := by
  cases hrun : s.running with
  | false =>
    rw [exec_of_stopped i hrun, exec_of_stopped _ hrun]
    exact ⟨rfl, fun u hu => absurd hu (stopped_not_next hrun u)⟩
  | true =>
    obtain ⟨u, hu, hle⟩ := advance_arms (buffer := bytes) h
    rw [hi s u hrun hu, exec, execWrite, whenRunning_of_running hrun, hu]
    refine ⟨rfl, fun u' hu' => ?_⟩
    cases hu'
    exact hle

/-- Up to its first poll such a procedure takes the host steps of its WRITE, one for one. -/
theorem execN_of_arms {i : Instr} {bytes : List Byte} (hi : RunsWrite i bytes) {n : Nat} {s : State}
    (h : n ≤ armLeft bytes.length s) : execN n i s = execN n (.write bytes bytes.length) s := by
  induction n generalizing s with
  | zero => rfl
  | succ n ih =>
    obtain ⟨heq, hleft⟩ := exec_of_arms hi (Nat.zero_lt_of_lt h)
    simp only [execN, ← heq]
    cases he : exec i s with
    | next u => exact ih (Nat.le_of_succ_le_succ (h.trans (hleft u he)))
    | fault f => rfl
    | refused r => rfl

theorem execN_arms_of_runsWrite {i : Instr} {bytes : List Byte} (hi : RunsWrite i bytes) {s : State}
    (hs : Configurable s) (hpins : s.pinsRouted = true) (hcall : s.call = none) (hpos : 0 < bytes.length)
    (hdepth : bytes.length ≤ s.cfg.fifoDepth) (hle : bytes.length ≤ 0xFFFF) :
    ∃ t, execN (bytes.length + 4) i s = .next t ∧ t.fifo = bytes ∧ t.dlenW = BitVec.ofNat 16 bytes.length ∧
      t.eng = .addr ∧ t.xRead = false := by
  have hleft : armLeft bytes.length s = bytes.length + 4 := by rw [armLeft, hcall]
  have harm := (writeArms s bytes bytes.length hs hcall hpos hdepth (Nat.le_refl _) hle).1 hpins
  exact ⟨_, (execN_of_arms hi hleft.ge).trans harm, List.take_length, rfl, rfl, rfl⟩

/-! ### The two commands -/

theorem exec_cmdNoArg (opcode : Half) (s : State) :
    exec (.cmdNoArg opcode) s = whenRunning s (writeCommand (halfBytes opcode)) := rfl

theorem exec_cmdWriteWord (opcode value : Half) (s : State) :
    exec (.cmdWriteWord opcode value) s =
      whenRunning s (writeCommand (halfBytes opcode ++ argumentBytes value)) := rfl

/-- A procedure that is the WRITE of `bytes` goes on as that WRITE does. -/
theorem runsWrite_of_writeCommand {i : Instr} {bytes : List Byte}
    (h : ∀ s, exec i s = whenRunning s (writeCommand bytes)) : RunsWrite i bytes := by
  intro s u hrun hu
  rw [h, whenRunning_of_running hrun, writeCommand_eq, hu]
  rfl

/-- The poll of a command (R262, R263): `Ok(())` or the error of its WRITE. -/
theorem writeCommand_polls (bytes : List Byte) {s : State} {x : Txn} (hmap : s.mapped = true)
    (hcall : s.call = some (.txn x)) (hp : x.pos = .wPoll) :
    (s.err = true → writeCommand bytes s = s.retErr .ackError) ∧
    (s.err = false → s.clkt = true → writeCommand bytes s = s.retErr .timeoutError) ∧
    (s.err = false → s.clkt = false → s.done = true → writeCommand bytes s = s.retOk .unit) := by
  rw [writeCommand_eq, advance_of_call _ hcall, txnStep_wPoll hmap hp]
  refine ⟨fun herr => ?_, fun herr hclkt => ?_, fun herr hclkt hdone => ?_⟩
  · simp [herr, endCommand]
  · simp [herr, hclkt, endCommand]
  · simp [herr, hclkt, hdone, endCommand]

/-- Settles O56: ARM as that of the command's WRITE, and then the poll. -/
theorem writeCommands : Obligations.WriteCommands := by
  intro s opcode value ⟨hrun, hmap⟩ noArg withArg
  refine ⟨fun he hpins hcall hdepth => ⟨?_, ?_⟩, fun x hcall hp => ?_⟩
  · obtain ⟨t, ht, hfifo, hlen, heng, -⟩ := execN_arms_of_runsWrite
      (runsWrite_of_writeCommand (exec_cmdNoArg opcode)) ⟨⟨hrun, hmap⟩, he⟩ hpins hcall (Nat.succ_pos _)
      ((by decide : 2 ≤ 5).trans hdepth) (by decide : 2 ≤ 0xFFFF)
    exact ⟨t, ht, hfifo, hlen, heng⟩
  · obtain ⟨t, ht, hfifo, hlen, heng, -⟩ := execN_arms_of_runsWrite
      (runsWrite_of_writeCommand (exec_cmdWriteWord opcode value)) ⟨⟨hrun, hmap⟩, he⟩ hpins hcall (Nat.succ_pos _)
      hdepth (by decide : 5 ≤ 0xFFFF)
    exact ⟨t, ht, hfifo, hlen, heng⟩
  · obtain ⟨hack, htimeout, hok⟩ := writeCommand_polls (halfBytes opcode) hmap hcall hp
    obtain ⟨hack', htimeout', hok'⟩ := writeCommand_polls (halfBytes opcode ++ argumentBytes value) hmap hcall hp
    rw [exec_cmdNoArg, exec_cmdWriteWord, whenRunning_of_running hrun, whenRunning_of_running hrun]
    refine ⟨fun herr => ?_, fun herr hclkt => ?_, fun herr hclkt hdone => ?_⟩
    · rw [hack herr, hack' herr]
      exact ⟨rfl, rfl⟩
    · rw [htimeout herr hclkt, htimeout' herr hclkt]
      exact ⟨rfl, rfl⟩
    · rw [hok herr hclkt hdone, hok' herr hclkt hdone]
      exact ⟨rfl, rfl⟩

end Sys2Proof.Machine
end

section
/-! SUPPORT. What the CRC unit promises (R240 to R246): the two requests, the errors it detects, and the validation of a frame group by group. -/

namespace Sys2Proof.Machine

/-! ### The two requests (R242, R243) -/

theorem exec_crc8 {s : State} (hrun : s.running = true) (b0 b1 : Byte) :
    exec (.crc8 b0 b1) s = .next { s with result := some (.nat (crc8 b0 b1).toNat) } := by
  rw [exec, execCrc8, whenRunning_of_running hrun]

theorem exec_crcchk {s : State} (hrun : s.running = true) (b0 b1 ck : Byte) :
    exec (.crcchk b0 b1 ck) s = .next { s with result := some (.nat (if crc8 b0 b1 = ck then 1 else 0)) } := by
  rw [exec, execCrcchk, whenRunning_of_running hrun]

/-- Settles O22: the equation of each request, and three values of the function. -/
theorem crcRequestsComplete : Obligations.CrcRequestsComplete := by
  refine ⟨fun s b0 b1 ck hrun => ⟨exec_crc8 hrun b0 b1, fun h => ?_, fun h => ?_⟩, by decide +kernel⟩
  · rw [exec_crcchk hrun, if_pos h]
  · rw [exec_crcchk hrun, if_neg h]

/-! ### Errors of one bit (R246) -/

theorem xor_twoPow_ne {w i : Nat} (hi : i < w) (x : BitVec w) : x ^^^ BitVec.twoPow w i ≠ x := by
  intro h
  have hbit := congrArg (·.getLsbD i) h
  simp [hi] at hbit

/-- By linearity a change of the word goes undetected only when the change alone, from a register of 0, leaves 0. -/
theorem crc8_xor_eq_iff (a b x y : Byte) :
    crc8 (a ^^^ x) (b ^^^ y) = crc8 a b ↔ crcByte (crcByte 0#8 x) y = 0#8 := by
  rw [crc8_xor]
  exact xor_left_eq_self_iff

/-- The sixteen changes of one bit each leave something in the CRC register. -/
theorem crcByte_twoPow_ne_zero : ∀ i < 16,
    crcByte (crcByte 0#8 ((BitVec.twoPow 16 i).extractLsb' 8 8)) ((BitVec.twoPow 16 i).extractLsb' 0 8) ≠ 0#8 := by
  decide +kernel

/-- Settles O23: the word by linearity and the sixteen changes, the CRC byte because CRCCHK compares all of it. -/
theorem singleBitFlipIsDetected : Obligations.SingleBitFlipIsDetected := by
  refine ⟨fun w i hi h => ?_, fun s b0 b1 ck i hrun hck hi => ?_⟩
  · rw [BitVec.extractLsb'_xor, BitVec.extractLsb'_xor, crc8_xor_eq_iff] at h
    exact crcByte_twoPow_ne_zero i hi h
  · rw [exec_crcchk hrun, if_neg (hck ▸ (xor_twoPow_ne hi ck).symm)]

/-! ### The frame (R244, R245) -/

/-- Group `i` of a byte list (R244). -/
def groupAt (r : List Byte) (i : Nat) : Byte × Byte × Byte :=
  (r.getD (3 * i) 0#8, r.getD (3 * i + 1) 0#8, r.getD (3 * i + 2) 0#8)

theorem groups_eq_map_groupAt {r : List Byte} {n : Nat} (h : r.length = 3 * n) :
    groups r = (List.range n).map (groupAt r) := by
  induction n generalizing r with
  | zero => rw [List.length_eq_zero_iff.1 h, groups_nil, List.range_zero, List.map_nil]
  | succ n ih =>
    match r, h with
    | b0 :: b1 :: ck :: rest, h =>
      rw [groups_cons, ih (Nat.add_right_cancel (m := 3) h), List.range_succ_eq_map, List.map_cons, List.map_map]
      rfl

/-- R245 by index: the words of the groups when all are valid, and else no word. -/
theorem validate_eq {r : List Byte} {n : Nat} (h : r.length = 3 * n) :
    validate r n = if ∀ i < n, groupValid (groupAt r i) = true
      then .ok ((List.range n).map fun i => groupWord (groupAt r i)) else .error .crcError := by
  simp [validate, h, groups_eq_map_groupAt h, Function.comp_def]

theorem groupValid_groupAt (r : List Byte) (i : Nat) : groupValid (groupAt r i) = true ↔
    crc8 (r.getD (3 * i) 0#8) (r.getD (3 * i + 1) 0#8) = r.getD (3 * i + 2) 0#8 :=
  groupValid_iff _ _ _

/-- Settles O24: the length first, and then whether all groups are valid. -/
theorem frameValidation : Obligations.FrameValidation := by
  refine fun r n => ⟨validate_short, fun hlen => ⟨fun ⟨i, hi, hbad⟩ => ?_, fun hgood => ?_⟩⟩
  · rw [validate_eq hlen, if_neg fun hall => hbad ((groupValid_groupAt r i).1 (hall i hi))]
  · refine ⟨(List.range n).map fun i => groupWord (groupAt r i), ?_, by simp, fun i hi => ?_⟩
    · rw [validate_eq hlen, if_pos fun i hi => (groupValid_groupAt r i).2 (hgood i hi)]
    · simp [hi, groupWord, groupAt]

end Sys2Proof.Machine
end

section
/-! SUPPORT. The commands that are a WRITE and then a READ (R264, R265, R268, R271): while their call stays open they take the host steps of the transaction that runs, and what they make of the way it ends. -/

namespace Sys2Proof.Machine

/-! ### How a command that is a WRITE and a READ uses a host step -/

/-- How such a command uses what its transaction's host step comes to. -/
def endQuery (n : Nat) (fin : Nat → List Byte → Result) (fail : ErrKind → Result) : TxnOut → State
  | .more s => s
  | .wrote (.ok _) s => { s with call := some (.txn (readTxn n)) }
  | .wrote (.error k) s => s.ret (fail k)
  | .got (.ok (count, buf)) s => s.ret (fin count buf)
  | .got (.error k) s => s.ret (fail k)

theorem queryCommand_eq (bytes : List Byte) (n : Nat) (fin : Nat → List Byte → Result) (fail : ErrKind → Result)
    (s : State) :
    queryCommand bytes n fin fail s = endQuery n fin fail (advance (writeTxn bytes bytes.length) s) := by
  unfold queryCommand endQuery
  rfl

theorem exec_cmdReadWord (opcode : Half) (s : State) :
    exec (.cmdReadWord opcode) s = whenRunning s (queryCommand (halfBytes opcode) 3 wordResult .err) := rfl

theorem exec_readMeasurement (s : State) :
    exec .readMeasurement s =
      whenRunning s (queryCommand (halfBytes s.cfg.opcodes.readMeasurement) 18 measurementResult .err) := rfl

theorem exec_dataReady (s : State) :
    exec .dataReady s = whenRunning s (queryCommand (halfBytes s.cfg.opcodes.getDataReady) 3
      (fun count buf => readyResult (wordResult count buf)) (fun k => readyResult (.err k))) := rfl

/-! ### A transaction's step that does not end it keeps the call open -/

/-- The transaction has ended, or a call stands. -/
def TxnOut.CallOpen : TxnOut → Prop
  | .more u => u.call ≠ none
  | .wrote _ _ | .got _ _ => True

theorem goOn_callOpen (t : Txn) (s : State) : (goOn t s).CallOpen := Option.some_ne_none _

theorem testSnapshot_callOpen (t : Txn) (s : State) : (testSnapshot t s).CallOpen := by
  unfold testSnapshot
  split
  · split
    · trivial
    · exact goOn_callOpen _ _
  · exact goOn_callOpen _ _

theorem txnWrite_callOpen (off : Nat) (data : Word) (t : Txn) {s : State} (h : s.call ≠ none) :
    (txnWrite off data t s).CallOpen := by
  obtain ⟨u, hu, hsame | hnext⟩ := txnWrite_more off data t s
  · rw [hu]
    exact hsame.trans_ne h
  · rw [hu]
    exact hnext.trans_ne (Option.some_ne_none _)

theorem txnStatus_callOpen {s : State} {k : Word → State → TxnOut} (h : s.call ≠ none)
    (hk : ∀ v u, (k v u).CallOpen) : (txnStatus s k).CallOpen := by
  unfold txnStatus
  cases hr : memRead 0x04 s.free s with
  | ok v u => exact hk v u
  | stop u =>
    obtain ⟨f, -, rfl⟩ := memRead_stop hr
    exact h

theorem takeOne_callOpen (t : Txn) {s : State} {k : Txn → State → TxnOut} (h : s.call ≠ none)
    (hk : ∀ t u, (k t u).CallOpen) : (takeOne t s k).CallOpen := by
  unfold takeOne
  split
  · exact h
  · cases hr : memRead 0x10 s.free s with
    | ok v u => exact hk _ u
    | stop u =>
      obtain ⟨f, -, rfl⟩ := memRead_stop hr
      exact h

theorem txnStep_callOpen (t : Txn) {s : State} (h : s.call ≠ none) : (txnStep t s).CallOpen := by
  cases hp : t.pos <;> simp only [txnStep, hp]
  case wClear | wPush | wLen | wStat | wStart | rLen | rStat | rStart => exact txnWrite_callOpen _ _ _ h
  case wPoll =>
    refine txnStatus_callOpen h fun v u => ?_
    split
    · split <;> trivial
    · exact goOn_callOpen _ u
  case rLoop =>
    refine txnStatus_callOpen h fun v u => ?_
    split
    · exact goOn_callOpen _ u
    · exact testSnapshot_callOpen _ u
  case rDrain =>
    refine txnStatus_callOpen h fun v u => ?_
    split
    · exact goOn_callOpen _ u
    · trivial
  case rTake => exact takeOne_callOpen t h testSnapshot_callOpen
  case rDrainTake => exact takeOne_callOpen t h fun _ u => goOn_callOpen _ u

/-! ### How WRITE and READ end, and how the commands do -/

/-- A call that stands after the host step says that the transaction goes on. -/
theorem eq_more_of_endTxn_call {o : TxnOut} (h : (endTxn o).call ≠ none) : o = .more (endTxn o) := by
  rcases o with u | ⟨k | n, u⟩ | ⟨k | ⟨count, buf⟩, u⟩
  · rfl
  all_goals exact absurd rfl h

/-- An error that WRITE or READ returns is what the command is given to return. -/
theorem endQuery_of_returned_err {o : TxnOut} {k : ErrKind} (ho : o.CallOpen) (h : Returned (.err k) (endTxn o))
    (n : Nat) (fin : Nat → List Byte → Result) (fail : ErrKind → Result) :
    endQuery n fin fail o = { endTxn o with result := some (.result (fail k)) } := by
  obtain ⟨hcall, hresult⟩ := h
  rcases o with u | ⟨k' | m, u⟩ | ⟨k' | ⟨count, buf⟩, u⟩
  · exact absurd hcall ho
  all_goals cases hresult
  all_goals rfl

/-- While WRITE's or READ's call stays open, a command's host step is that of the transaction (R262 to R265, R268). -/
theorem commands_go_on {s t : State} {x : Txn} (hrun : s.running = true) (hcall : s.call = some (.txn x))
    (hstep : txnStep x s = .more t) (opcode value : Half) :
    exec (.cmdNoArg opcode) s = .next t ∧ exec (.cmdWriteWord opcode value) s = .next t ∧
      exec (.cmdReadWord opcode) s = .next t ∧ exec .readMeasurement s = .next t ∧ exec .dataReady s = .next t := by
  simp only [exec_cmdNoArg, exec_cmdWriteWord, exec_cmdReadWord, exec_readMeasurement, exec_dataReady,
    whenRunning_of_running hrun, writeCommand_eq, queryCommand_eq, advance_of_call _ hcall, hstep, endCommand, endQuery,
    and_self]

/-- An error of the READ is the command's own, and DATA_READY's false (R264, R265, R268). -/
theorem queries_fail {s t : State} {x : Txn} {length : Nat} {k : ErrKind} (hcall : s.call = some (.txn x))
    (hread : exec (.read length) s = .next t) (hret : Returned (.err k) t) (opcode : Half) :
    exec (.cmdReadWord opcode) s = .next t ∧ exec .readMeasurement s = .next t ∧
      exec .dataReady s = .next { t with result := some (.result (.ok (.bool false))) } := by
  have hrun : s.running = true := (exec_effect hread).1
  rw [exec_read_of_call length hrun hcall] at hread
  cases hread
  have hopen : (txnStep x s).CallOpen := txnStep_callOpen x (by simp [hcall])
  have hsame : { endTxn (txnStep x s) with result := some (.result (.err k)) } = endTxn (txnStep x s) := by
    rw [← hret.2]
  simp only [exec_cmdReadWord, exec_readMeasurement, exec_dataReady, whenRunning_of_running hrun, queryCommand_eq,
    advance_of_call _ hcall, endQuery_of_returned_err hopen hret, hsame, true_and]
  rfl

/-! ### ARM pushes the command's opcode (R261, R264, R265, R268) -/

theorem exec_cfg {i : Instr} {s t : State} (h : exec i s = .next t) : t.cfg = s.cfg := by
  obtain ⟨-, v, heffect, m, p, f, r, c, w, rfl, -⟩ := exec_effect h
  exact heffect.host_side.1

theorem runsWrite_write (bytes : List Byte) : RunsWrite (.write bytes bytes.length) bytes := by
  intro s u hrun hu
  rw [exec, execWrite, whenRunning_of_running hrun, hu]
  rfl

section
variable {i : Instr} {cfg : Params} {bytes : List Byte} {n : Nat} {fin : Nat → List Byte → Result}
  {fail : ErrKind → Result}

/-- Up to its first poll such a command takes the host steps of its WRITE, one for one. Its opcode may be a parameter
of the machine, which no step writes (R260). -/
theorem execN_query_of_arms (hi : ∀ s, s.cfg = cfg → exec i s = whenRunning s (queryCommand bytes n fin fail))
    {m : Nat} {s : State} (hcfg : s.cfg = cfg) (h : m ≤ armLeft bytes.length s) :
    execN m i s = execN m (.write bytes bytes.length) s := by
  induction m generalizing s with
  | zero => rfl
  | succ m ih =>
    have hpos : 0 < armLeft bytes.length s := Nat.zero_lt_of_lt h
    obtain ⟨u, hu, -⟩ := advance_arms (buffer := bytes) hpos
    have hquery : queryCommand bytes n fin fail s = endTxn (advance (writeTxn bytes bytes.length) s) := by
      rw [queryCommand_eq, hu]
      rfl
    have heq : exec i s = exec (.write bytes bytes.length) s := by
      rw [hi s hcfg, exec, execWrite, whenRunning, whenRunning, hquery]
    simp only [execN, heq]
    cases he : exec (.write bytes bytes.length) s with
    | next v =>
      have hleft := (exec_of_arms (runsWrite_write bytes) hpos).2 v he
      exact ih ((exec_cfg he).trans hcfg) (Nat.le_of_succ_le_succ (h.trans hleft))
    | fault f => rfl
    | refused r => rfl

theorem execN_query_arms {opcode : Half}
    (hi : ∀ s, s.cfg = cfg → exec i s = whenRunning s (queryCommand (halfBytes opcode) n fin fail)) {s : State}
    (hcfg : s.cfg = cfg) (hs : Configurable s) (hpins : s.pinsRouted = true) (hcall : s.call = none)
    (hdepth : 2 ≤ s.cfg.fifoDepth) :
    ∃ t, execN 6 i s = .next t ∧ t.fifo = halfBytes opcode ∧ t.dlenW = 2#16 ∧ t.eng = .addr ∧ t.xRead = false := by
  have hleft : armLeft 2 s = 6 := by rw [armLeft, hcall]
  rw [execN_query_of_arms hi hcfg hleft.ge]
  exact execN_arms_of_runsWrite (runsWrite_write (halfBytes opcode)) hs hpins hcall (Nat.succ_pos _) hdepth
    (by decide : 2 ≤ 0xFFFF)

end

/-- Settles O57: a step after which the call stands is the transaction's, an error is handed on, and ARM is that of
the command's WRITE. -/
theorem commandsRunTheirTransactions : Obligations.CommandsRunTheirTransactions := by
  refine ⟨fun s t x opcode value buffer length hrun hcall => ⟨fun hwrite hopen => ?_, fun hread hopen => ?_,
    fun k hread hret => queries_fail hcall hread hret opcode⟩, fun s opcode hs hpins hcall hdepth => ⟨?_, ?_, ?_⟩⟩
  · rw [exec_write_of_call buffer length hrun hcall] at hwrite
    cases hwrite
    obtain ⟨hnoArg, hwriteWord, -⟩ := commands_go_on hrun hcall (eq_more_of_endTxn_call hopen) opcode value
    exact ⟨hnoArg, hwriteWord⟩
  · rw [exec_read_of_call length hrun hcall] at hread
    cases hread
    obtain ⟨-, -, hqueries⟩ := commands_go_on hrun hcall (eq_more_of_endTxn_call hopen) opcode value
    exact hqueries
  · exact execN_query_arms (fun u _ => exec_cmdReadWord opcode u) rfl hs hpins hcall hdepth
  · exact execN_query_arms (fun u hu => hu ▸ exec_readMeasurement u) rfl hs hpins hcall hdepth
  · exact execN_query_arms (fun u hu => hu ▸ exec_dataReady u) rfl hs hpins hcall hdepth

end Sys2Proof.Machine
end

section
/-! SUPPORT. What the sensor commands return (R264 to R271): at the poll of their WRITE, of the bytes of their READ, and of a measurement interval. -/

namespace Sys2Proof.Machine

/-! ### The poll of the WRITE and the end of the READ -/

section
variable (bytes : List Byte) (n : Nat) (fin : Nat → List Byte → Result) (fail : ErrKind → Result) {s : State} {x : Txn}

/-- The poll of such a command's WRITE: its error, or its READ comes next (R264, R265). -/
theorem queryCommand_polls (hmap : s.mapped = true) (hcall : s.call = some (.txn x)) (hp : x.pos = .wPoll) :
    (s.err = true → queryCommand bytes n fin fail s = s.ret (fail .ackError)) ∧
    (s.err = false → s.clkt = true → queryCommand bytes n fin fail s = s.ret (fail .timeoutError)) ∧
    (s.err = false → s.clkt = false → s.done = true →
      queryCommand bytes n fin fail s = { s with call := some (.txn (readTxn n)) }) := by
  rw [queryCommand_eq, advance_of_call _ hcall, txnStep_wPoll hmap hp]
  refine ⟨fun herr => ?_, fun herr hclkt => ?_, fun herr hclkt hdone => ?_⟩
  · simp [herr, endQuery]
  · simp [herr, hclkt, endQuery]
  · simp [herr, hclkt, hdone, endQuery]

/-- The end of its READ: what the command makes of the bytes (R219, R220). -/
theorem queryCommand_drained (hmap : s.mapped = true) (hcall : s.call = some (.txn x)) (hp : x.pos = .rDrain)
    (hf : s.fifo = []) : queryCommand bytes n fin fail s = s.ret (fin x.count x.buffer) := by
  rw [queryCommand_eq, advance_of_call _ hcall, txnStep_rDrain hmap hp, if_neg (by simp [hf])]
  rfl

end

/-! ### A word (R264, R268, R270) -/

theorem wordResult_short {count : Nat} (h : count ≠ 3) (buf : List Byte) : wordResult count buf = .err .shortRead :=
  if_pos h

theorem validate_one_group (b0 b1 ck : Byte) :
    validate [b0, b1, ck] 1 = if crc8 b0 b1 = ck then .ok [b0 ++ b1] else .error .crcError := by
  simp [validate, groupValid_iff, groupWord]

theorem wordResult_valid {b0 b1 ck : Byte} (h : crc8 b0 b1 = ck) :
    wordResult 3 [b0, b1, ck] = .ok (.nat (b0 ++ b1).toNat) := by
  simp [wordResult, validate_one_group, h]

theorem wordResult_invalid {b0 b1 ck : Byte} (h : crc8 b0 b1 ≠ ck) : wordResult 3 [b0, b1, ck] = .err .crcError := by
  simp [wordResult, validate_one_group, h]

@[simp] theorem readyResult_err (k : ErrKind) : readyResult (.err k) = .ok (.bool false) := rfl

theorem readyResult_wordResult (b0 b1 ck : Byte) : readyResult (wordResult 3 [b0, b1, ck]) =
    .ok (.bool (decide (crc8 b0 b1 = ck ∧ b0 ++ b1 = 0x0001#16))) := by
  by_cases h : crc8 b0 b1 = ck
  · have hone : (b0 ++ b1).toNat = 1 ↔ b0 ++ b1 = 0x0001#16 := BitVec.toNat_inj (y := 0x0001#16)
    rw [wordResult_valid h]
    simp [readyResult, h, ← hone]
  · rw [wordResult_invalid h]
    simp [h]

/-- Settles O58: the poll of the WRITE, and what the two commands make of three bytes. -/
theorem readWordCommands : Obligations.ReadWordCommands := by
  intro s opcode x ⟨hrun, hmap⟩ hcall done
  simp only [exec_cmdReadWord, exec_dataReady, whenRunning_of_running hrun]
  refine ⟨fun hp => ?_, fun hp hf => ?_⟩
  · obtain ⟨hack, htimeout, hok⟩ := queryCommand_polls (halfBytes opcode) 3 wordResult .err hmap hcall hp
    obtain ⟨hack', htimeout', hok'⟩ := queryCommand_polls (halfBytes s.cfg.opcodes.getDataReady) 3
      (fun count buf => readyResult (wordResult count buf)) (fun k => readyResult (.err k)) hmap hcall hp
    refine ⟨fun herr => ?_, fun herr hclkt => ?_, fun herr hclkt hdone => ?_⟩
    · rw [hack herr, hack' herr]
      exact ⟨rfl, rfl⟩
    · rw [htimeout herr hclkt, htimeout' herr hclkt]
      exact ⟨rfl, rfl⟩
    · rw [hok herr hclkt hdone, hok' herr hclkt hdone]
      exact ⟨rfl, rfl⟩
  · simp only [queryCommand_drained _ _ _ _ hmap hcall hp hf]
    refine ⟨fun hcount => ?_, fun b0 b1 ck hcount hbuf => ?_⟩
    · rw [wordResult_short hcount]
      exact ⟨rfl, rfl⟩
    · rw [hcount, hbuf, readyResult_wordResult]
      refine ⟨fun hvalid => ?_, fun hinvalid => ?_, rfl⟩
      · rw [wordResult_valid hvalid]
        rfl
      · rw [wordResult_invalid hinvalid]
        rfl

/-! ### A measurement (R265, R266, R267, R270) -/

theorem and_lowMask31_eq_mod (x : Word) : (x &&& 0x7FFFFFFF#32).toNat = x.toNat % 2 ^ 31 := by
  rw [BitVec.toNat_and]
  exact Nat.and_two_pow_sub_one_eq_mod x.toNat 31

/-- IEEE equality with 0.0: the patterns of +0.0 and -0.0, which differ in the sign bit (R267). -/
theorem isZeroF32_iff (x : Word) : isZeroF32 x = true ↔ x = 0x00000000#32 ∨ x = 0x80000000#32 := by
  rw [isZeroF32, beq_iff_eq, ← BitVec.toNat_inj, and_lowMask31_eq_mod, ← BitVec.toNat_inj, ← BitVec.toNat_inj]
  have hlt : x.toNat < 2 ^ 32 := x.isLt
  change x.toNat % 2 ^ 31 = 0 ↔ x.toNat = 0 ∨ x.toNat = 2 ^ 31
  omega

theorem measurementResult_short {count : Nat} (h : count ≠ 18) (buf : List Byte) :
    measurementResult count buf = .err .shortRead := if_pos h

theorem measurementResult_invalid {buf : List Byte} {k : ErrKind} (h : validate buf 6 = .error k) :
    measurementResult 18 buf = .err k := by
  simp [measurementResult, h]

theorem measurementResult_valid {buf : List Byte} {words : List Half} (h : validate buf 6 = .ok words) :
    measurementResult 18 buf = measurementOf words := by
  simp [measurementResult, h]

theorem measurementOf_zero {w0 w1 : Half} (h : w0 ++ w1 = 0x00000000#32 ∨ w0 ++ w1 = 0x80000000#32)
    (w2 w3 w4 w5 : Half) : measurementOf [w0, w1, w2, w3, w4, w5] = .err .notValid :=
  if_pos ((isZeroF32_iff (w0 ++ w1)).2 h)

theorem measurementOf_nonzero {w0 w1 : Half} (hpos : w0 ++ w1 ≠ 0x00000000#32) (hneg : w0 ++ w1 ≠ 0x80000000#32)
    (w2 w3 w4 w5 : Half) :
    measurementOf [w0, w1, w2, w3, w4, w5] = .ok (.measurement (w0 ++ w1) (w2 ++ w3) (w4 ++ w5)) :=
  if_neg fun hzero => ((isZeroF32_iff (w0 ++ w1)).1 hzero).elim hpos hneg

/-- Settles O59: the poll of the WRITE, and what the command makes of its bytes, the count first. -/
theorem measurementCommand : Obligations.MeasurementCommand := by
  intro s x ⟨hrun, hmap⟩ hcall done
  simp only [exec_readMeasurement, whenRunning_of_running hrun]
  refine ⟨fun hp => ?_, fun hp hf => ?_⟩
  · obtain ⟨hack, htimeout, hok⟩ := queryCommand_polls (halfBytes s.cfg.opcodes.readMeasurement) 18
      measurementResult .err hmap hcall hp
    exact ⟨fun herr => congrArg _ (hack herr), fun herr hclkt => congrArg _ (htimeout herr hclkt),
      fun herr hclkt hdone => congrArg _ (hok herr hclkt hdone)⟩
  · rw [queryCommand_drained _ _ _ _ hmap hcall hp hf]
    refine ⟨fun hcount => ?_, fun hcount k hk => ?_, fun hcount w0 w1 w2 w3 w4 w5 hwords =>
      ⟨fun hzero => ?_, fun hpos hneg => ?_⟩⟩
    · rw [measurementResult_short hcount]
      rfl
    · rw [hcount, measurementResult_invalid hk]
      rfl
    · rw [hcount, measurementResult_valid hwords, measurementOf_zero hzero]
      rfl
    · rw [hcount, measurementResult_valid hwords, measurementOf_nonzero hpos hneg]
      rfl

/-! ### The measurement interval (R269, R290) -/

theorem exec_setMeasurementInterval_rejects {s : State} {seconds : Nat} (hrun : s.running = true)
    (h : seconds < 2 ∨ seconds > 1800) :
    exec (.setMeasurementInterval seconds) s = .next (s.retErr .invalidArgument) := by
  rw [exec, execSetMeasurementInterval, whenRunning_of_running hrun, if_pos h]

theorem exec_setMeasurementInterval_eq_cmdWriteWord {s : State} {seconds : Nat} (hrun : s.running = true)
    (hlow : 2 ≤ seconds) (hhigh : seconds ≤ 1800) :
    exec (.setMeasurementInterval seconds) s =
      exec (.cmdWriteWord s.cfg.opcodes.setInterval (BitVec.ofNat 16 seconds)) s := by
  have hin : ¬ (seconds < 2 ∨ seconds > 1800) := by omega
  rw [exec_cmdWriteWord, exec, execSetMeasurementInterval, whenRunning_of_running hrun, if_neg hin,
    whenRunning_of_running hrun]

/-- Settles O60: the check of the argument, and then the poll of CMD_WRITE_WORD's WRITE. -/
theorem measurementInterval : Obligations.MeasurementInterval := by
  refine fun s seconds hrun => ⟨exec_setMeasurementInterval_rejects hrun, fun hlow hhigh =>
    ⟨exec_setMeasurementInterval_eq_cmdWriteWord hrun hlow hhigh,
      fun x ⟨_, hmap⟩ hcall hp herr hclkt hdone => ?_⟩⟩
  obtain ⟨-, -, hok⟩ := writeCommand_polls
    (halfBytes s.cfg.opcodes.setInterval ++ argumentBytes (BitVec.ofNat 16 seconds)) hmap hcall hp
  rw [exec_setMeasurementInterval_eq_cmdWriteWord hrun hlow hhigh, exec_cmdWriteWord, whenRunning_of_running hrun,
    hok herr hclkt hdone]
  rfl

end Sys2Proof.Machine
end
